-- ==== Sys2Proof/Word.lean ====
section
/-! DEFINITION. The word types of the engine: a byte, and the 16-bit quantities (lengths, capacities, the CRC).
Spec: 00_scope.md rule R10 (a byte is 8 bits, bit 7 the most significant; every quantity is unsigned). -/

namespace Sys2Proof

/-- One byte, bits 7 (most significant) down to 0 (R10). -/
abbrev Byte := BitVec 8

/-- A 16-bit unsigned quantity: `REQ_LEN`, `RSP_LEN`, `RSP_CAP`, `TX_OFF`, `RX_LEN`, `RES_LEN`, the CRC (R38, R39, R121). -/
abbrev Half := BitVec 16

/-- A one-bit quantity as the number 0 or 1 in the lowest bit of a byte (R10: no sign extension anywhere). -/
def bitByte (b : Bool) : Byte := if b then 1#8 else 0#8

end Sys2Proof
end

