-- ==== Sys2Proof/Syntax.lean ====
section
/-! DEFINITION. The syntax of the engine: control-byte classes, the Block value, what the ports present, and `Instr`, one
constructor per row of the opcode table (thirteen received block kinds, six host commands, the unassigned command codes).
Spec: 30_encoding.md rules R87 to R101, 40_codec.md rule R128. -/

namespace Sys2Proof

/-- `EDC_MODE` and the `mode` operands: 0 `LRC` (one checksum byte), 1 `CRC` (two bytes) (R32, R100). -/
inductive EdcMode where
  | lrc
  | crc
deriving DecidableEq, Repr

/-- The sub-type of a supervisory block (R90). -/
inductive Kind where
  | resynch
  | ifs
  | abort
  | wtx
deriving DecidableEq, Repr

/-- The decoded control byte (R87). `unknown` holds the byte itself. -/
inductive Control where
  | i (ns m : Bool)
  | rPos (nr : Bool)
  | rNegSeq (nr : Bool)
  | rNegOther (nr : Bool)
  | sReq (kind : Kind)
  | sResp (kind : Kind)
  | unknown (raw : Byte)
deriving DecidableEq, Repr

/-- A Block value: the length and the error-detection code are not part of it (R128). -/
structure Block where
  nad     : Byte
  control : Control
  payload : List Byte
deriving DecidableEq, Repr

/-- The two ways `DECODE` fails (R140). -/
inductive DecodeError where
  | checksumMismatch
  | malformedLength
deriving DecidableEq, Repr

/-- One host command as the HOST or CODEC port presents it: the 8-bit code and the operands of R100 and R101. An operand the
command does not have is not read. The spec gives no byte layout for the transfer, which is one atomic step (R61). -/
structure HostCmd where
  code          : Byte
  channelConfig : List Byte   -- opaque, `OPEN`
  hostAddr      : Byte        -- zero-extended to a byte on the port (R101)
  chipAddr      : Byte
  mode          : Bool        -- `edc_mode` of `OPEN`, `mode` of `ENCODE` and `DECODE`: 0 LRC, 1 CRC
  apdu          : List Byte   -- a length and that many bytes (R101)
  cap           : Half
  nodeAddress   : Byte
  control       : Byte        -- the control byte itself (R101)
  payload       : List Byte
  raw           : List Byte
deriving DecidableEq, Repr

/-- What the engine decodes: a command on a host-side port, or the byte sequence one `ChanRead` returned (R69). -/
inductive PortWord where
  | command (c : HostCmd)
  | block (raw : List Byte)
deriving DecidableEq, Repr

/-- The three outcomes of a `ChanRead` (R7, R69). -/
inductive ReadOutcome where
  | bytes (s : List Byte)
  | timeout
  | error
deriving DecidableEq, Repr, Inhabited

/-- What the channel does with one `ChanRead`: it answers, or it never returns (70_reset_and_hazards.md R328). -/
inductive ReadAnswer where
  | returns (o : ReadOutcome)
  | never
deriving DecidableEq, Repr

/-- The instructions: one constructor per row of `spec/opcode_table.json`. A block row carries the node address and the payload
of the block it arrived in; a command row carries its operands (R100). -/
inductive Instr where
  | iBlock (nad : Byte) (ns m : Bool) (inf : List Byte)
  | rPos (nad : Byte) (nr : Bool) (inf : List Byte)
  | rNegSeq (nad : Byte) (nr : Bool) (inf : List Byte)
  | rNegOther (nad : Byte) (nr : Bool) (inf : List Byte)
  | sReqResynch (nad : Byte) (inf : List Byte)
  | sReqIfs (nad : Byte) (inf : List Byte)
  | sReqAbort (nad : Byte) (inf : List Byte)
  | sReqWtx (nad : Byte) (inf : List Byte)
  | sRespResynch (nad : Byte) (inf : List Byte)
  | sRespIfs (nad : Byte) (inf : List Byte)
  | sRespAbort (nad : Byte) (inf : List Byte)
  | sRespWtx (nad : Byte) (inf : List Byte)
  | unknown (nad raw : Byte) (inf : List Byte)
  | openCmd (cfg : List Byte) (hostAddr chipAddr : Byte) (mode : EdcMode)
  | resetCmd
  | transceiveCmd (apdu : List Byte) (cap : Half)
  | closeCmd
  | encodeCmd (mode : EdcMode) (nad : Byte) (control : Control) (payload : List Byte)
  | decodeCmd (mode : EdcMode) (raw : List Byte)
  | unassignedCmd (code : Byte)
deriving DecidableEq, Repr

end Sys2Proof
end

