-- ==== Sys2Proof/Config.lean ====
section
/-! DEFINITION. The implementation parameters of 00_scope.md rule R8, at the value the spec decides for this hardware, and the
free values: the parameters the spec leaves open and the answers of the Byte Channel, which no rule fixes. -/

namespace Sys2Proof.Config

/-- `LEN_MAX`, the codec's cap on the payload length (R8, R84). DESIGN CHOICE of the spec (D3), log entry 9. -/
def lenMax : Nat := 254

/-- `IFSC_DEFAULT` (R8). DESIGN CHOICE of the spec (D4), log entry 9. -/
def ifscDefault : Byte := 32#8

/-- `IFSD_DEFAULT` (R8). DESIGN CHOICE of the spec (D4), log entry 9. -/
def ifsdDefault : Byte := 32#8

/-- `IFS_MAX`, the largest size a supervisory IFS request may set (R8). DESIGN CHOICE of the spec (D4), log entry 9. -/
def ifsMax : Nat := 254

/-- `RETRY_MAX`, the retry budget of an exchange (R8). DESIGN CHOICE of the spec (D5), log entry 9. -/
def retryMax : Byte := 3#8

/-- `WTM_DEFAULT` (R8). DESIGN CHOICE of the spec (D16), log entry 9. -/
def wtmDefault : Byte := 1#8

/-- `ATR_MAX`, the most bytes read as an answer-to-reset (R8). PRESUMED by the spec (D31, G13), log entry 9. -/
def atrMax : Nat := 33

/-- `EDC_DEFAULT`: the mode a host with no preference gives to `OPEN`; the engine never reads it (R8, R245). Log entry 9. -/
def edcDefault : EdcMode := .lrc

/-- `REQ_MAX`, the capacity of `REQ` (R8). PRESUMED by the spec (D33, G14), log entry 9. -/
def reqMax : Nat := 261

/-- `RSP_MAX`, the capacity of `RSP` (R8). PRESUMED by the spec (D33, G14), log entry 9. -/
def rspMax : Nat := 258

/-- `BLOCK_MAX = 3 + LEN_MAX + 2`, the largest raw block (R8). -/
def blockMax : Nat := 3 + lenMax + 2

/-- `BWT_BASE`: OPEN in the spec (R8, D16); a constant with no body, so no proof can see its value. Log entry 12. -/
opaque bwtBase : Nat

/-- `ATR_TIMEOUT`: OPEN in the spec (R8, D31); a constant with no body. Log entry 12. -/
opaque atrTimeout : Nat

/-- `AtrWellFormed`, the predicate on the bytes `RESET` reads: OPEN in the spec (R8, R247, U7, D31); a constant with no body, so a
claim about `RESET` holds for every predicate. The default the spec gives is `Machine.atrDefault`. Log entry 11. -/
opaque atrWellFormed : List Byte → Bool

/-- The channel's answer to the `n`-th channel call, when that call is a `ChanAcquire` and no answer is scripted: a free value
(R7, R67; 93_implementation_defined.md U10). Log entry 3. -/
opaque freeAcquire : Nat → Bool

/-- The channel's answer to the `n`-th channel call, when that call is a `ChanWrite` and no answer is scripted: a free value
(R7, R68; U10). Log entry 3. -/
opaque freeWrite : Nat → Bool

/-- The channel's answer to the `n`-th channel call, when that call is a `ChanRead` and no answer is scripted: a free value
(R7, R69; U10). Log entry 3. -/
opaque freeRead : Nat → ReadOutcome

end Sys2Proof.Config
end

