-- ==== Sys2Proof/WellFormed.lean ====
section
/-! DEFINITION. Which instructions are well formed: the ones the ports can present. Spec: 30_encoding.md rules R84, R92, R100,
R101; 40_codec.md rules R126, R128. -/

namespace Sys2Proof

/-- The eighteen recognized control bytes, as R88 to R90 list them (R92: the other 238 are `Unknown`). -/
def recognizedControlBytes : List Byte :=
  [0x00#8, 0x20#8, 0x40#8, 0x60#8] ++
  [0x80#8, 0x90#8, 0x81#8, 0x91#8, 0x82#8, 0x92#8] ++
  [0xC0#8, 0xC1#8, 0xC2#8, 0xC3#8, 0xE0#8, 0xE1#8, 0xE2#8, 0xE3#8]

/-- The six assigned command codes (R100). -/
def assignedCommandCodes : List Byte := [0x01#8, 0x02#8, 0x03#8, 0x04#8, 0x10#8, 0x11#8]

/-- A control value is well formed unless it is `Unknown` of a recognized byte (R126). -/
def Control.wellFormed : Control → Bool
  | .unknown raw => !recognizedControlBytes.contains raw
  | .i _ _ => true
  | .rPos _ => true
  | .rNegSeq _ => true
  | .rNegOther _ => true
  | .sReq _ => true
  | .sResp _ => true

/-- A Block is valid when its control value is well formed and its payload fits the length byte (R128). -/
def Block.valid (b : Block) : Bool := b.control.wellFormed && decide (b.payload.length ≤ Config.lenMax)

/-- The payload of a block on the wire is at most `LEN_MAX` bytes (R84). -/
def payloadFits (inf : List Byte) : Bool := decide (inf.length ≤ Config.lenMax)

/-- The instructions the ports can present. A command's operands are unrestricted (the command itself refuses what is out of
range, R244, R248), but for the `control` operand of `ENCODE`, which the port presents as a control byte (R101, U23). -/
def Instr.wellFormed : Instr → Bool
  | .iBlock _ _ _ inf => payloadFits inf
  | .rPos _ _ inf => payloadFits inf
  | .rNegSeq _ _ inf => payloadFits inf
  | .rNegOther _ _ inf => payloadFits inf
  | .sReqResynch _ inf => payloadFits inf
  | .sReqIfs _ inf => payloadFits inf
  | .sReqAbort _ inf => payloadFits inf
  | .sReqWtx _ inf => payloadFits inf
  | .sRespResynch _ inf => payloadFits inf
  | .sRespIfs _ inf => payloadFits inf
  | .sRespAbort _ inf => payloadFits inf
  | .sRespWtx _ inf => payloadFits inf
  | .unknown _ raw inf => !recognizedControlBytes.contains raw && payloadFits inf
  | .openCmd _ _ _ _ => true
  | .resetCmd => true
  | .transceiveCmd _ _ => true
  | .closeCmd => true
  | .encodeCmd _ _ control _ => control.wellFormed
  | .decodeCmd _ _ => true
  | .unassignedCmd code => !assignedCommandCodes.contains code

end Sys2Proof
end

