-- ==== Sys2Proof/Decode.lean ====
section
/-! DEFINITION. The Block Codec and the decoder and encoder of instructions: the error-detection functions, the control-byte map,
`ENCODE` and `DECODE` as functions of bytes, then what each port word stands for, and the way back.
Spec: 40_codec.md rules R120 to R142, 30_encoding.md rules R80 to R102. -/

namespace Sys2Proof

/-! ### Error detection (R120 to R123) -/

/-- `EDC_LRC(s)`: the exclusive-or of all bytes, from 0x00 (R120). PRESUMED by the spec (G9), log entry 10. -/
def edcLrc (s : List Byte) : Byte := s.foldl (fun x b => x ^^^ b) 0x00#8

/-- One bit of the CRC: shift right, and the reflected polynomial 0x8408 when the bit shifted out is 1 (R122). -/
def crcBit (c : Half) : Half := if c.getLsbD 0 then (c >>> 1) ^^^ 0x8408#16 else c >>> 1

/-- `n` bits of the CRC (R122). -/
def crcBits : Nat → Half → Half
  | 0, c => c
  | n + 1, c => crcBits n (crcBit c)

/-- One byte of the CRC: exclusive-or into the low byte, then eight bits (R122). -/
def crcByte (c : Half) (b : Byte) : Half := crcBits 8 (c ^^^ b.zeroExtend 16)

/-- `EDC_CRC(s)`, the decided `CRC16`: CRC-16/X-25 (R121, R122). PRESUMED by the spec (G10, D7), log entry 10. -/
def crc16 (s : List Byte) : Half := s.foldl crcByte 0xFFFF#16 ^^^ 0xFFFF#16

/-- `E(mode)`: the number of error-detection bytes (R80, R123). -/
def EdcMode.size : EdcMode → Nat
  | .lrc => 1
  | .crc => 2

/-- A 16-bit value as two bytes, most significant first (R64). DESIGN CHOICE of the spec (D7), log entry 10. -/
def halfBytes (c : Half) : List Byte := [c.extractLsb' 8 8, c.extractLsb' 0 8]

/-- `Edc(mode, s)`: the error-detection field over the covered bytes (R86, R123). -/
def edc (mode : EdcMode) (s : List Byte) : List Byte :=
  match mode with
  | .lrc => [edcLrc s]
  | .crc => halfBytes (crc16 s)

/-! ### The control byte (R88 to R92, R125, R126) -/

/-- The `kind` field `pcb[1:0]` (R90). -/
def kindOf (pcb : Byte) : Kind :=
  match pcb.getLsbD 1, pcb.getLsbD 0 with
  | false, false => .resynch
  | false, true => .ifs
  | true, false => .abort
  | true, true => .wtx

/-- The number of a kind (R90). -/
def Kind.bits : Kind → Byte
  | .resynch => 0#8
  | .ifs => 1#8
  | .abort => 2#8
  | .wtx => 3#8

/-- `CLASSIFY(pcb)` (R125). The bit positions are PRESUMED by the spec (G5 to G7), log entry 14. -/
def classify (pcb : Byte) : Control :=
  if pcb &&& 0x9F#8 = 0x00#8 then .i (pcb.getLsbD 6) (pcb.getLsbD 5)
  else if pcb &&& 0xEF#8 = 0x80#8 then .rPos (pcb.getLsbD 4)
  else if pcb &&& 0xEF#8 = 0x81#8 then .rNegSeq (pcb.getLsbD 4)
  else if pcb &&& 0xEF#8 = 0x82#8 then .rNegOther (pcb.getLsbD 4)
  else if pcb &&& 0xFC#8 = 0xC0#8 then .sReq (kindOf pcb)
  else if pcb &&& 0xFC#8 = 0xE0#8 then .sResp (kindOf pcb)
  else .unknown pcb

/-- `PCB_ENCODE(c)` (R126). -/
def pcbEncode : Control → Byte
  | .i ns m => (bitByte ns <<< 6) ||| (bitByte m <<< 5)
  | .rPos nr => 0x80#8 ||| (bitByte nr <<< 4)
  | .rNegSeq nr => 0x81#8 ||| (bitByte nr <<< 4)
  | .rNegOther nr => 0x82#8 ||| (bitByte nr <<< 4)
  | .sReq kind => 0xC0#8 ||| kind.bits
  | .sResp kind => 0xE0#8 ||| kind.bits
  | .unknown raw => raw

/-! ### ENCODE and DECODE (R134, R140) -/

/-- The covered bytes of a block: address, control byte, length, payload (R80, R86). -/
def Block.body (b : Block) : List Byte :=
  b.nad :: pcbEncode b.control :: BitVec.ofNat 8 b.payload.length :: b.payload

/-- The raw block: the covered bytes, then their error-detection field (R134). -/
def Block.wire (mode : EdcMode) (b : Block) : List Byte := b.body ++ edc mode b.body

/-- `ENCODE(mode, block)`: `none` is `PayloadTooLong`, its only failure (R134). -/
def encodeBlock (mode : EdcMode) (b : Block) : Option (List Byte) :=
  if b.payload.length > Config.lenMax then none else some (b.wire mode)

/-- Steps 4 to 6 of `DECODE`, once the length byte is believed: the error-detection test, then the Block (R140). -/
def decodeChecked (mode : EdcMode) (raw : List Byte) (nad pcb : Byte) (rest : List Byte) : Except DecodeError Block :=
  let covered := raw.length - mode.size
  if raw.drop covered = edc mode (raw.take covered) then .ok ⟨nad, classify pcb, rest.take (covered - 3)⟩
  else .error .checksumMismatch

/-- `DECODE(mode, raw)`, its tests in the order of R140 (R141). -/
def decodeBlock (mode : EdcMode) (raw : List Byte) : Except DecodeError Block :=
  if raw.length < 3 + mode.size then .error .malformedLength
  else
    match raw with
    | nad :: pcb :: len :: rest =>
      if len.toNat > Config.lenMax then .error .malformedLength
      else if len.toNat ≠ raw.length - 3 - mode.size then .error .malformedLength
      else decodeChecked mode raw nad pcb rest
    | _ => .error .malformedLength

/-! ### From port words to instructions and back -/

/-- The instruction a received Block is: the class of its control byte, with the block's address and payload (R161, step w7). -/
def Instr.ofBlock (b : Block) : Instr :=
  match b.control with
  | .i ns m => .iBlock b.nad ns m b.payload
  | .rPos nr => .rPos b.nad nr b.payload
  | .rNegSeq nr => .rNegSeq b.nad nr b.payload
  | .rNegOther nr => .rNegOther b.nad nr b.payload
  | .sReq .resynch => .sReqResynch b.nad b.payload
  | .sReq .ifs => .sReqIfs b.nad b.payload
  | .sReq .abort => .sReqAbort b.nad b.payload
  | .sReq .wtx => .sReqWtx b.nad b.payload
  | .sResp .resynch => .sRespResynch b.nad b.payload
  | .sResp .ifs => .sRespIfs b.nad b.payload
  | .sResp .abort => .sRespAbort b.nad b.payload
  | .sResp .wtx => .sRespWtx b.nad b.payload
  | .unknown raw => .unknown b.nad raw b.payload

/-- A mode operand: 0 `LRC`, 1 `CRC` (R101). -/
def EdcMode.ofBit (b : Bool) : EdcMode := if b then .crc else .lrc

/-- The mode operand of a mode (R101). -/
def EdcMode.bit : EdcMode → Bool
  | .lrc => false
  | .crc => true

/-- The command a code and its operands are; every code outside the table is `unassignedCmd` (R100 to R102). -/
def decodeCommand (c : HostCmd) : Instr :=
  if c.code = 0x01#8 then .openCmd c.channelConfig c.hostAddr c.chipAddr (.ofBit c.mode)
  else if c.code = 0x02#8 then .resetCmd
  else if c.code = 0x03#8 then .transceiveCmd c.apdu c.cap
  else if c.code = 0x04#8 then .closeCmd
  else if c.code = 0x10#8 then .encodeCmd (.ofBit c.mode) c.nodeAddress (classify c.control) c.payload
  else if c.code = 0x11#8 then .decodeCmd (.ofBit c.mode) c.raw
  else .unassignedCmd c.code

/-- The decoder: total on every command and on every byte sequence, rejecting a byte sequence by the name `DECODE` gives
(R140). The mode is the session's (R81). -/
def decode (mode : EdcMode) : PortWord → Except DecodeError Instr
  | .command c => .ok (decodeCommand c)
  | .block raw =>
    match decodeBlock mode raw with
    | .ok b => .ok (.ofBlock b)
    | .error e => .error e

/-- A command code with every operand zero or empty. -/
def HostCmd.bare (code : Byte) : HostCmd :=
  ⟨code, [], 0#8, 0#8, false, [], 0#16, 0#8, 0#8, [], []⟩

/-- The port word of an instruction: a block as its raw bytes, a command as its code and operands (R80, R100). -/
def encode (mode : EdcMode) : Instr → PortWord
  | .iBlock nad ns m inf => .block (Block.wire mode ⟨nad, .i ns m, inf⟩)
  | .rPos nad nr inf => .block (Block.wire mode ⟨nad, .rPos nr, inf⟩)
  | .rNegSeq nad nr inf => .block (Block.wire mode ⟨nad, .rNegSeq nr, inf⟩)
  | .rNegOther nad nr inf => .block (Block.wire mode ⟨nad, .rNegOther nr, inf⟩)
  | .sReqResynch nad inf => .block (Block.wire mode ⟨nad, .sReq .resynch, inf⟩)
  | .sReqIfs nad inf => .block (Block.wire mode ⟨nad, .sReq .ifs, inf⟩)
  | .sReqAbort nad inf => .block (Block.wire mode ⟨nad, .sReq .abort, inf⟩)
  | .sReqWtx nad inf => .block (Block.wire mode ⟨nad, .sReq .wtx, inf⟩)
  | .sRespResynch nad inf => .block (Block.wire mode ⟨nad, .sResp .resynch, inf⟩)
  | .sRespIfs nad inf => .block (Block.wire mode ⟨nad, .sResp .ifs, inf⟩)
  | .sRespAbort nad inf => .block (Block.wire mode ⟨nad, .sResp .abort, inf⟩)
  | .sRespWtx nad inf => .block (Block.wire mode ⟨nad, .sResp .wtx, inf⟩)
  | .unknown nad raw inf => .block (Block.wire mode ⟨nad, .unknown raw, inf⟩)
  | .openCmd cfg hostAddr chipAddr m =>
    .command { HostCmd.bare 0x01#8 with channelConfig := cfg, hostAddr := hostAddr, chipAddr := chipAddr, mode := m.bit }
  | .resetCmd => .command (HostCmd.bare 0x02#8)
  | .transceiveCmd apdu cap => .command { HostCmd.bare 0x03#8 with apdu := apdu, cap := cap }
  | .closeCmd => .command (HostCmd.bare 0x04#8)
  | .encodeCmd m nad control payload =>
    .command { HostCmd.bare 0x10#8 with mode := m.bit, nodeAddress := nad, control := pcbEncode control, payload := payload }
  | .decodeCmd m raw => .command { HostCmd.bare 0x11#8 with mode := m.bit, raw := raw }
  | .unassignedCmd code => .command (HostCmd.bare code)

/-! ### The opcode table's words -/

/-- The port word of a table byte: the six command codes are commands with operands of zeros; every other byte is the control
byte of a block with address 0, no payload and the error-detection field of `mode`. The table's two code spaces overlap
only on bytes that are no row's own word (log entry 19). -/
def tablePortWord (mode : EdcMode) (b : Byte) : PortWord :=
  if assignedCommandCodes.contains b then .command (HostCmd.bare b)
  else .block ([0#8, b, 0#8] ++ edc mode [0#8, b, 0#8])

/-- The table numbers every row's word in one byte; `none` where there is no byte, or a bit stands above it. -/
def tableByte (nbits w : Nat) : Option Byte :=
  if 8 ≤ nbits ∧ w < 256 then some (BitVec.ofNat 8 w) else none

/-- The instruction the decoder reads from a table word, in LRC mode (log entry 19). -/
def decodeTableWord (nbits w : Nat) : Option Instr :=
  match tableByte nbits w with
  | none => none
  | some b =>
    match decode .lrc (tablePortWord .lrc b) with
    | .ok i => some i
    | .error _ => none

end Sys2Proof
end

