-- ==== Sys2Proof/Machine/State.lean ====
section
/-! DEFINITION. The state of the engine as plain data, its reset value, and the reasons a step can stop.
Spec: 10_state.md (every register and buffer), 20_memory.md (the buffer space and the Byte Channel), 70_reset_and_hazards.md
rules R311, R314. INVENTORY.md lists every field with its rule and its reset value. -/

namespace Sys2Proof.Machine

/-- `LSTATE`, the state of the Link State Machine (R24, R150). -/
inductive LState where
  | closed
  | awaitingAtr
  | idle
  | exchanging
  | resynchronizing
  | failed
deriving DecidableEq, Repr

/-- `PHASE`, the phase of the exchange (R25). -/
inductive Phase where
  | sendChain
  | sendLast
  | recvChain
deriving DecidableEq, Repr

/-- A status code (R271): the value of `STATUS` and of the `FAULT` latch. -/
inductive Status where
  | ok
  | invalidArgument
  | checksumMismatch
  | malformedLength
  | sequenceError
  | timeout
  | shortResponse
  | channelError
  | payloadTooLong
deriving DecidableEq, Repr

/-- The result data a completed command makes readable: nothing, bytes on the HOST port (`RESET`, `TRANSCEIVE`), or on the CODEC
port the raw block of `ENCODE` or the Block of `DECODE` (R42, R100, R253; log entry 15). -/
inductive ResultData where
  | none
  | bytes (s : List Byte)
  | rawBlock (s : List Byte)
  | block (b : Block)
deriving DecidableEq, Repr

/-- A call the engine made on the Byte Channel, with the channel's answer (R66 to R71, R74, R292). `reading` is a `ChanRead` that
was made and has not returned (R328). -/
inductive ChanEvent where
  | acquire (cfg : List Byte) (ok : Bool)
  | write (raw : List Byte) (ok : Bool)
  | read (maxBytes timeout : Nat) (outcome : ReadOutcome)
  | reading (maxBytes timeout : Nat)
  | assertReset
  | release
deriving DecidableEq, Repr

/-- One byte buffer: the cells that hold a value, as (index, byte) pairs with strictly rising indices. A cell that is not listed
holds no value (R41; log entry 7). -/
abbrev Memory := List Host.Cell

/-- The five buffers (R40, R60). -/
inductive Buf where
  | req
  | rsp
  | txb
  | rxb
  | atrb
deriving DecidableEq, Repr

/-- Everything the spec gives the engine, then the model's own fields: the inputs the host and the channel have scripted, and the
record of the channel calls made. -/
structure State where
  -- sequencing state (R23 to R25)
  lstate   : LState
  phase    : Phase
  -- Link Session State (R26 to R32)
  ssb      : Bool
  rsb      : Bool
  ifsc     : Byte
  ifsd     : Byte
  wtm      : Byte
  nadTx    : Byte
  nadRx    : Byte
  edcMode  : EdcMode
  -- last-known-good shadow and fault latch (R34, R35)
  lkgSsb   : Bool
  lkgRsb   : Bool
  lkgIfsc  : Byte
  lkgIfsd  : Byte
  fault    : Status
  -- exchange registers (R37 to R39)
  retry    : Byte
  reqLen   : Half
  rspLen   : Half
  rspCap   : Half
  txOff    : Half
  txLen    : Byte
  txMore   : Bool
  chunkMax : Byte
  -- buffers (R40)
  req      : Memory
  rsp      : Memory
  txb      : Memory
  rxb      : Memory
  rxLen    : Half
  atrb     : Memory
  atrLen   : Byte
  -- HOST port result registers (R42)
  status   : Status
  resLen   : Half
  result   : ResultData
  -- is the Byte Channel held (R67, R71, R311)
  held     : Bool
  -- the model's own: inputs not yet taken, and the channel calls made, newest first (log entries 2, 3, 21)
  hostIn   : List HostCmd
  acquires : List Bool
  writes   : List Bool
  reads    : List ReadAnswer
  events   : List ChanEvent
deriving DecidableEq, Repr

/-- Power-on (R44, R311): `LSTATE = Closed`, `STATUS = OK`, `RES_LEN = 0`, no buffer cell holds a value, the channel is not held.
Every other register holds no value in the spec; the model gives each its zero or first value (DESIGN CHOICE, log entry 6). -/
def State.reset : State where
  lstate := .closed
  phase := .sendChain
  ssb := false
  rsb := false
  ifsc := 0#8
  ifsd := 0#8
  wtm := 0#8
  nadTx := 0#8
  nadRx := 0#8
  edcMode := .lrc
  lkgSsb := false
  lkgRsb := false
  lkgIfsc := 0#8
  lkgIfsd := 0#8
  fault := .ok
  retry := 0#8
  reqLen := 0#16
  rspLen := 0#16
  rspCap := 0#16
  txOff := 0#16
  txLen := 0#8
  txMore := false
  chunkMax := 0#8
  req := []
  rsp := []
  txb := []
  rxb := []
  rxLen := 0#16
  atrb := []
  atrLen := 0#8
  status := .ok
  resLen := 0#16
  result := .none
  held := false
  hostIn := []
  acquires := []
  writes := []
  reads := []
  events := []

/-- Why a step stops. None of these is raised from a state that meets the invariant `State.Inv`, but for `readNeverReturns`. -/
inductive Fault where
  /-- A `ChanRead` never returns: raised by `RESET` and by the step that waits for a reply. The command never completes, the
  engine is stuck inside the call (R328, U18). `inside` is the engine's state inside the call: every register as the command had
  written it, and every channel call recorded, the read among them (R74). Safe. -/
  | readNeverReturns (inside : State)
  /-- A buffer cell that holds no value is read: raised where a chunk of `REQ` or the response in `RSP` is read. No rule reads
  such a cell; a model may fault and loses no behaviour (R41, U17). Safe. -/
  | unwrittenCell
  /-- A buffer is written at or past its capacity: raised where a payload is appended to `RSP`. No rule produces such an index
  (R62). Safe. -/
  | outsideBuffer
  /-- `ENCODE` fails inside an exchange: raised where a block is sent. The Link State Machine never provokes it (R135, R281). Safe. -/
  | blockTooLong
deriving DecidableEq, Repr

/-- Why an instruction has no meaning. -/
inductive Refusal where
  /-- The instruction is rejected by name: raised by `exec` alone, for an instruction the model gives no meaning yet. Safe. -/
  | notModelled (mnemonic : String)
deriving DecidableEq, Repr

end Sys2Proof.Machine
end

