-- ==== Sys2Proof/Machine/Flags.lean ====
section
/-! DEFINITION. The one-bit quantities and the codes: the acknowledgement tests on the sequence bits, the size-citing predicate,
and the numbers of the states, phases and statuses. Spec: 10_state.md rules R24, R25, R43; 41_link_state_machine.md rule R160;
42_chaining.md rule R221; 60_exceptions.md rule R271. -/

namespace Sys2Proof.Machine

/-- The number of a link state (R24). -/
def LState.code : LState → BitVec 3
  | .closed => 0#3
  | .awaitingAtr => 1#3
  | .idle => 2#3
  | .exchanging => 3#3
  | .resynchronizing => 4#3
  | .failed => 5#3

/-- The resting states, in which the engine waits for a host command (R150). -/
def LState.resting : LState → Bool
  | .closed => true
  | .awaitingAtr => true
  | .idle => true
  | .exchanging => false
  | .resynchronizing => false
  | .failed => false

/-- The states in which `RESET` and `TRANSCEIVE` run (R243). -/
def LState.session : LState → Bool
  | .closed => false
  | .awaitingAtr => true
  | .idle => true
  | .exchanging => false
  | .resynchronizing => false
  | .failed => false

/-- The number of a phase (R25). -/
def Phase.code : Phase → BitVec 2
  | .sendChain => 0#2
  | .sendLast => 1#2
  | .recvChain => 2#2

/-- The send phases, the ones in which `Halve` may run (R165, R220). -/
def Phase.sending : Phase → Bool
  | .sendChain => true
  | .sendLast => true
  | .recvChain => false

/-- The number of a status (R271). -/
def Status.code : Status → BitVec 4
  | .ok => 0#4
  | .invalidArgument => 1#4
  | .checksumMismatch => 2#4
  | .malformedLength => 3#4
  | .sequenceError => 4#4
  | .timeout => 5#4
  | .shortResponse => 6#4
  | .channelError => 7#4
  | .payloadTooLong => 8#4

/-- The status of a `DECODE` failure (R140, R274, R275). -/
def decodeStatus : DecodeError → Status
  | .checksumMismatch => .checksumMismatch
  | .malformedLength => .malformedLength

/-- A positive R-block is the valid acknowledgement of a chained I-block when it names the next bit the engine will send:
`nr = ~SSB` (R160). -/
def State.ackedBy (s : State) (nr : Bool) : Bool := nr == !s.ssb

/-- An inbound I-block is the expected one when it carries the bit the engine expects next: `ns = RSB` (R160). -/
def State.expects (s : State) (ns : Bool) : Bool := ns == s.rsb

/-- `SSB` after an inbound I-block is accepted: it toggles in `SendLast` only, where the I-block acknowledges the engine's last
one (R164). -/
def State.ssbAfterAccept (s : State) : Bool :=
  match s.phase with
  | .sendChain => s.ssb
  | .sendLast => !s.ssb
  | .recvChain => s.ssb

/-- `SIZE_NAK`: does this negative acknowledgement cite size. The decided value is constant false (R221, D27), log entry 13. -/
def sizeNak : Control → Bool
  | .i _ _ => false
  | .rPos _ => false
  | .rNegSeq _ => false
  | .rNegOther _ => false
  | .sReq _ => false
  | .sResp _ => false
  | .unknown _ => false

end Sys2Proof.Machine
end

