-- ==== Sys2Proof/Machine/Operands.lean ====
section
/-! DEFINITION. Operand computations: the cells of a buffer, the node addresses of a session, the cut of the request into chunks,
the sizes a supervisory request may carry, and what a well-formed answer-to-reset is.
Spec: 20_memory.md rules R62, R63; 30_encoding.md rules R83, R95; 42_chaining.md rule R211; 43_session_commands.md rule R247. -/

namespace Sys2Proof.Machine

/-! ### Cells of one buffer -/

/-- The byte a cell holds; `none` where it holds no value (R41). -/
def Memory.read : Memory → Nat → Option Byte
  | [], _ => none
  | (a, b) :: m, i => if a = i then some b else Memory.read m i

/-- Write one cell, keeping the indices strictly rising. -/
def Memory.write : Memory → Nat → Byte → Memory
  | [], i, v => [(i, v)]
  | (a, b) :: m, i, v =>
    if i < a then (i, v) :: (a, b) :: m
    else if i = a then (i, v) :: m
    else (a, b) :: Memory.write m i v

/-- Write consecutive cells from index `i` on. -/
def Memory.writeFrom : Memory → Nat → List Byte → Memory
  | m, _, [] => m
  | m, i, v :: vs => Memory.writeFrom (Memory.write m i v) (i + 1) vs

/-- The bytes of `n` consecutive cells from index `i` on; `none` if one of them holds no value. -/
def Memory.readFrom (m : Memory) : Nat → Nat → Option (List Byte)
  | _, 0 => some []
  | i, n + 1 =>
    match Memory.read m i, Memory.readFrom m (i + 1) n with
    | some b, some bs => some (b :: bs)
    | _, _ => none

/-- The canonical form: indices strictly rising. -/
def Memory.wf : Memory → Bool
  | [] => true
  | [_] => true
  | (a, _) :: (b, v) :: m => decide (a < b) && Memory.wf ((b, v) :: m)

/-- Every listed cell lies below the capacity. -/
def Memory.below (cap : Nat) (m : Memory) : Bool := m.all fun c => decide (c.1 < cap)

/-- The cells `0 .. n-1` all hold a value. -/
def Memory.filled (m : Memory) (n : Nat) : Bool := (m.readFrom 0 n).isSome

/-- The capacity of a buffer (R40). -/
def Buf.capacity : Buf → Nat
  | .req => Config.reqMax
  | .rsp => Config.rspMax
  | .txb => Config.blockMax
  | .rxb => Config.blockMax
  | .atrb => Config.atrMax

/-- The cells of a buffer. -/
def State.buf (s : State) : Buf → Memory
  | .req => s.req
  | .rsp => s.rsp
  | .txb => s.txb
  | .rxb => s.rxb
  | .atrb => s.atrb

/-- `BufRead(buf, i)` (R62): the byte in the cell, or `none` where it holds no value (R41). -/
def State.bufRead (s : State) (b : Buf) (i : Nat) : Option Byte := (s.buf b).read i

/-! ### Node addresses -/

/-- `(dest << 4) | src`: `NAD_TX` is `nadByte chip host`, `NAD_RX` is `nadByte host chip` (R83). The packing is PRESUMED by the
spec (G3), log entry 14. -/
def nadByte (dest src : Byte) : Byte := (dest <<< 4) ||| src

/-! ### Chunks of the request -/

/-- The bytes of the request from the current chunk on: `REQ_LEN - TX_OFF` (R211). -/
def State.remaining (s : State) : Nat := s.reqLen.toNat - s.txOff.toNat

/-- `SetChunk()`: the chunk length, the chaining bit and the send phase, from `TX_OFF` and `CHUNK_MAX` (R211). -/
def setChunk (s : State) : State :=
  { s with
    txLen := BitVec.ofNat 8 (min s.chunkMax.toNat s.remaining)
    txMore := decide (s.remaining > s.chunkMax.toNat)
    phase := if s.remaining > s.chunkMax.toNat then .sendChain else .sendLast }

/-- The halved chunk size, at least 1 (R220; the floor is the spec's own, D27). -/
def halved (chunkMax : Byte) : Byte := BitVec.ofNat 8 (max 1 (chunkMax.toNat / 2))

/-- The bytes of the current chunk, `REQ[TX_OFF .. TX_OFF + TX_LEN - 1]`; `none` if one of the cells holds no value (R158). -/
def State.chunk (s : State) : Option (List Byte) := s.req.readFrom s.txOff.toNat s.txLen.toNat

/-- The control value and payload of the current block: `R+(RSB)` in `RecvChain`, else the I-block of the current chunk (R158). -/
def State.currentBlock (s : State) : Option (Control × List Byte) :=
  match s.phase with
  | .recvChain => some (.rPos s.rsb, [])
  | .sendChain => s.chunk.map fun p => (.i s.ssb s.txMore, p)
  | .sendLast => s.chunk.map fun p => (.i s.ssb s.txMore, p)

/-! ### Payloads of supervisory requests -/

/-- The multiplier a waiting-time request carries: one byte, not zero (R95, R175). -/
def wtxValue : List Byte → Option Byte
  | [v] => if v = 0#8 then none else some v
  | _ => none

/-- The size an information-field-size request carries: one byte, 1 to `IFS_MAX` (R95, R176). -/
def ifsValue : List Byte → Option Byte
  | [v] => if v = 0#8 ∨ v.toNat > Config.ifsMax then none else some v
  | _ => none

/-! ### Command operands -/

/-- The address operands `OPEN` accepts: each at most 7 (R101, R244 step o2). -/
def addressesLegal (hostAddr chipAddr : Byte) : Bool := decide (hostAddr.toNat ≤ 7 ∧ chipAddr.toNat ≤ 7)

/-- The request lengths and capacities `TRANSCEIVE` accepts (R248 steps x2, x3). -/
def requestLegal (apdu : List Byte) (cap : Half) : Bool :=
  decide ((4 ≤ apdu.length ∧ apdu.length ≤ Config.reqMax) ∧ (2 ≤ cap.toNat ∧ cap.toNat ≤ Config.rspMax))

/-- The default the spec gives for the open parameter `AtrWellFormed`: 2 to `ATR_MAX` bytes, the first 0x3B or 0x3F (R247, D31).
PRESUMED by the spec (G13); `RESET` asks `Config.atrWellFormed`, and the tests put this predicate in its place (log entry 11). -/
def atrDefault (a : List Byte) : Bool :=
  match a with
  | ts :: _ :: _ => decide (a.length ≤ Config.atrMax ∧ (ts = 0x3B#8 ∨ ts = 0x3F#8))
  | _ => false

end Sys2Proof.Machine
end

