-- ==== Sys2Proof/Machine/Ops.lean ====
section
/-! DEFINITION. The shared operations of the engine: completing a command, the Byte Channel calls, sending a block, the failure of an
exchange (the analogue of taking an exception) and its return, retransmission, resynchronization, halving, the start, advance and
completion of an exchange, the frame every received block and every command runs in, and the fetch of the next instruction.
Spec: 20_memory.md rules R66 to R76, 41_link_state_machine.md rules R158 to R196, 42_chaining.md rules R210 to R222. -/

namespace Sys2Proof.Machine

/-- The outcome of one step. -/
abbrev Result := Host.Outcome State Fault Refusal

/-! ### Completion of a command (R42, R242) -/

/-- A command completes with a status and result data of a length. -/
def complete (st : Status) (len : Half) (data : ResultData) (s : State) : State :=
  { s with status := st, resLen := len, result := data }

/-- A command completes without result data: every non-`OK` status, and `OPEN` and `CLOSE` (R42). -/
def completeEmpty (st : Status) (s : State) : State := complete st 0#16 .none s

/-! ### The Byte Channel (R66 to R74). Each call takes the next scripted answer, or a free one, and is recorded. -/

/-- The answer the next `ChanAcquire` gets (R67; log entry 3). -/
def State.acquireAnswer (s : State) : Bool :=
  match s.acquires with
  | a :: _ => a
  | [] => Config.freeAcquire s.events.length

/-- The answer the next `ChanWrite` gets (R68; log entry 3). -/
def State.writeAnswer (s : State) : Bool :=
  match s.writes with
  | a :: _ => a
  | [] => Config.freeWrite s.events.length

/-- At most `maxBytes` bytes are returned (R69; log entry 4). -/
def clip (maxBytes : Nat) : ReadOutcome → ReadOutcome
  | .bytes s => .bytes (s.take maxBytes)
  | .timeout => .timeout
  | .error => .error

/-- The outcome of the next `ChanRead` of at most `maxBytes` bytes; `none` if it never returns (R69, R328; log entries 3 to 5). -/
def State.readOutcome (maxBytes : Nat) (s : State) : Option ReadOutcome :=
  match s.reads with
  | .returns o :: _ => some (clip maxBytes o)
  | .never :: _ => none
  | [] => some (clip maxBytes (Config.freeRead s.events.length))

/-- The state after a `ChanAcquire`: the answer is taken, the call recorded, and the channel held if it said ok (R67). -/
def afterAcquire (cfg : List Byte) (s : State) : State :=
  { s with
    held := s.acquireAnswer
    acquires := s.acquires.tail
    events := .acquire cfg s.acquireAnswer :: s.events }

/-- The state after a `ChanWrite` of one raw block (R68). -/
def afterWrite (raw : List Byte) (s : State) : State :=
  { s with writes := s.writes.tail, events := .write raw s.writeAnswer :: s.events }

/-- The state after a `ChanRead` that returned `o` (R69). -/
def afterRead (maxBytes timeout : Nat) (o : ReadOutcome) (s : State) : State :=
  { s with reads := s.reads.tail, events := .read maxBytes timeout o :: s.events }

/-- The state inside a `ChanRead` that has not returned: the call is recorded, and nothing of an answer is taken (R74, R328). -/
def duringRead (maxBytes timeout : Nat) (s : State) : State := { s with events := .reading maxBytes timeout :: s.events }

/-- `ChanAssertReset()` (R70). -/
def assertReset (s : State) : State := { s with events := .assertReset :: s.events }

/-! ### Failing an exchange, the analogue of taking an exception (R196, R283), and the return from it (R284) -/

/-- Entry, steps f1 to f3: `LSTATE <- Failed`, the four registers rolled back to last-known-good, `WTM` to its default. -/
def enterFailed (s : State) : State :=
  { s with
    lstate := .failed
    ssb := s.lkgSsb
    rsb := s.lkgRsb
    ifsc := s.lkgIfsc
    ifsd := s.lkgIfsd
    wtm := Config.wtmDefault }

/-- Return, steps f4 and f5: `LSTATE <- Idle`, and the command ends with the error and no data. -/
def leaveFailed (e : Status) (s : State) : State := completeEmpty e { s with lstate := .idle }

/-- `Fail(E)`: entered and left in one step (R156, R196). -/
def fail (e : Status) (s : State) : State := leaveFailed e (enterFailed s)

/-! ### Sending a block (R158, R134) -/

/-- The state once a raw block stands in `TXB` and has been handed to the channel. -/
def sent (raw : List Byte) (s : State) : State := afterWrite raw { s with txb := s.txb.writeFrom 0 raw }

/-- Build a block with the session's address and mode, send it, and go on as `andThen` says; a channel error on the write is
`Fail(ChannelError)` (R158, R171). -/
def sendBlock (c : Control) (p : List Byte) (andThen : State → State) (s : State) : Result :=
  match encodeBlock s.edcMode ⟨s.nadTx, c, p⟩ with
  | none => .fault .blockTooLong
  | some raw => .next (if s.writeAnswer then andThen (sent raw s) else fail .channelError (sent raw s))

/-- `TxCurrent()`: build the current block and send it; the step ends waiting for the reply (R158; line t1 of R222). -/
def transmit (s : State) : Result :=
  match s.currentBlock with
  | none => .fault .unwrittenCell
  | some (c, p) => sendBlock c p id s

/-! ### Recovery (R186, R188, R192, R220) -/

/-- Take one unit of the budget for the fault `f`; the exchange fails when none is left, else it goes on (R186, R201). -/
def spend (f : Status) (andThen : State → Result) (s : State) : Result :=
  if s.retry - 1#8 = 0#8 then .next (fail f { s with fault := f, retry := s.retry - 1#8 })
  else andThen { s with fault := f, retry := s.retry - 1#8 }

/-- `Retransmit(f)` (R186). -/
def retransmit (f : Status) (s : State) : Result := spend f transmit s

/-- `Resync(f)`, steps s1 and s2: the step ends waiting for the reply to the resynchronization request (R188). -/
def resync (f : Status) (s : State) : Result :=
  sendBlock (.sReq .resynch) [] id { s with lstate := .resynchronizing, fault := f }

/-- `Resync`, steps s6 to s8, on a matching response: both sequence bits reset, one unit spent, the current block sent again; the
fault that started the resynchronization is in `FAULT` (R188, R192, R35). -/
def resynced (s : State) : Result :=
  spend s.fault (fun t => transmit { t with lstate := .exchanging }) { s with ssb := false, rsb := false }

/-- `Resync`, step s5: no matching response, the exchange fails with the fault that started it (R188, R193). -/
def resyncUnanswered (s : State) : Result := .next (fail s.fault s)

/-- `Halve()` (R220). -/
def halve (s : State) : Result :=
  spend .sequenceError (fun t => transmit (setChunk { t with chunkMax := halved t.chunkMax })) s

/-- A negative R-block: halve if it cites size in a send phase, else retransmit (R165, R166). -/
def negative (citesSize : Bool) (s : State) : Result :=
  if citesSize && s.phase.sending then halve s else retransmit .sequenceError s

/-! ### The exchange (R210, R214, R219, R222) -/

/-- `ExchangeStart` after the request is accepted: the last-known-good copy, the budget, the first chunk (R210). -/
def exchangeStart (s : State) : State :=
  setChunk { s with
    rspLen := 0#16
    lkgSsb := s.ssb
    lkgRsb := s.rsb
    lkgIfsc := s.ifsc
    lkgIfsd := s.ifsd
    retry := Config.retryMax
    fault := .ok
    chunkMax := s.ifsc
    txOff := 0#16
    wtm := Config.wtmDefault
    lstate := .exchanging }

/-- The accept of `TRANSCEIVE`: the request is copied, its length and the capacity kept (R249, R78). -/
def acceptRequest (apdu : List Byte) (cap : Half) (s : State) : State :=
  { s with
    req := s.req.writeFrom 0 apdu
    reqLen := BitVec.ofNat 16 apdu.length
    rspCap := cap }

/-- Advance after a chained chunk is acknowledged: the next chunk (R214). -/
def advance (s : State) : State :=
  setChunk { s with txOff := s.txOff + s.txLen.zeroExtend 16 }

/-- Accept an inbound I-block: toggle `SSB` in `SendLast`, append, toggle `RSB` (R164 step 4). -/
def acceptPayload (inf : List Byte) (s : State) : State :=
  { s with
    ssb := s.ssbAfterAccept
    rsp := s.rsp.writeFrom s.rspLen.toNat inf
    rspLen := s.rspLen + BitVec.ofNat 16 inf.length
    rsb := !s.rsb }

/-- The exchange is complete: `Idle`, and the result of `TRANSCEIVE`, which needs the two bytes of a status word (R219, R251). -/
def finish (s : State) : Result :=
  if s.rspLen.toNat < 2 then .next (completeEmpty .shortResponse { s with lstate := .idle })
  else
    match s.rsp.readFrom 0 s.rspLen.toNat with
    | none => .fault .unwrittenCell
    | some data => .next (complete .ok s.rspLen (.bytes data) { s with lstate := .idle })

/-- An inbound I-block that passed every test: append it, then acknowledge it if it is chained, else complete (R164, R218). -/
def acceptBlock (m : Bool) (inf : List Byte) (s : State) : Result :=
  if s.rspLen.toNat + inf.length > Config.rspMax then .fault .outsideBuffer
  else if m then transmit { acceptPayload inf s with phase := .recvChain }
  else finish (acceptPayload inf s)

/-! ### The frames an instruction runs in -/

/-- A received block. While an exchange waits for a reply, the address is tested first (R168), then the block is judged. While a
resynchronization waits, `whenResync` judges a block with the right address and no other block matches (R189). In every other
state no read is outstanding and a block reaches no register (R21, R288; log entry 17). -/
def onReply (nad : Byte) (judge whenResync : State → Result) (s : State) : Result :=
  match s.lstate with
  | .exchanging => if nad = s.nadRx then judge s else resync .sequenceError s
  | .resynchronizing => if nad = s.nadRx then whenResync s else resyncUnanswered s
  | .closed => .next s
  | .awaitingAtr => .next s
  | .idle => .next s
  | .failed => .next s

/-- A host command. It runs in a resting state; presented while another is executing it is refused with no effect, not even on
`STATUS` (R241, R322, U15; log entry 16). -/
def onCommand (run : State → Result) (s : State) : Result := if s.lstate.resting then run s else .next s

/-- A command that is refused: `STATUS = InvalidArgument`, no channel call, no other register (R243). -/
def refuse (s : State) : Result := .next (completeEmpty .invalidArgument s)

/-! ### Fetching the next instruction -/

/-- What the engine has next: an instruction to run on a state, or an outcome no instruction is behind. -/
inductive Fetch where
  | run (i : Instr) (s : State)
  | done (o : Result)

/-- A reply that is not a Block: channel error, timeout or an invalid block (R161 steps w2 to w5; R188 steps s4, s5). -/
def onTimeout (s : State) : Result :=
  match s.lstate with
  | .exchanging => resync .timeout s
  | .resynchronizing => resyncUnanswered s
  | .closed => .next s
  | .awaitingAtr => .next s
  | .idle => .next s
  | .failed => .next s

/-- An invalid block: retransmit, or an unanswered resynchronization; nothing of the block is used (R169, R189). -/
def onInvalid (e : DecodeError) (s : State) : Result :=
  match s.lstate with
  | .exchanging => retransmit (decodeStatus e) s
  | .resynchronizing => resyncUnanswered s
  | .closed => .next s
  | .awaitingAtr => .next s
  | .idle => .next s
  | .failed => .next s

/-- The raw bytes of a reply go to `RXB` and `RX_LEN` (R69, R159). -/
def storeReply (raw : List Byte) (s : State) : State :=
  { s with rxb := s.rxb.writeFrom 0 raw, rxLen := BitVec.ofNat 16 raw.length }

/-- The multiplier of the read the engine waits in: `WTM` in `WaitReply`, its default after `S(RESYNCH, REQ)` (R161 step w1, R188
step s3). -/
def State.waitMultiplier (s : State) : Byte := if s.lstate = .resynchronizing then Config.wtmDefault else s.wtm

/-- After the read returns in `WaitReply`, `WTM` is its default again (R161 step w1). -/
def endWait (s : State) : State := { s with wtm := if s.lstate = .resynchronizing then s.wtm else Config.wtmDefault }

/-- The timeout of the next block read (R69, R291). -/
def State.replyTimeout (s : State) : Nat := s.waitMultiplier.toNat * Config.bwtBase

/-- `RxBlock` (R159): one read, its bytes stored and decoded. -/
def fetchReply (s : State) : Fetch :=
  match s.readOutcome Config.blockMax with
  | none => .done (.fault (.readNeverReturns (duringRead Config.blockMax s.replyTimeout s)))
  | some .error => .done (.next (fail .channelError (endWait (afterRead Config.blockMax s.replyTimeout .error s))))
  | some .timeout => .done (onTimeout (endWait (afterRead Config.blockMax s.replyTimeout .timeout s)))
  | some (.bytes raw) =>
    match decode s.edcMode (.block raw) with
    | .error e => .done (onInvalid e (storeReply raw (endWait (afterRead Config.blockMax s.replyTimeout (.bytes raw) s))))
    | .ok i => .run i (storeReply raw (endWait (afterRead Config.blockMax s.replyTimeout (.bytes raw) s)))

/-- The next command of the host; with none presented the engine waits and nothing changes (R21, R150). -/
def fetchCommand (s : State) : Fetch :=
  match s.hostIn with
  | [] => .done (.next s)
  | c :: cs => .run (decodeCommand c) { s with hostIn := cs }

/-- The next instruction: a host command in a resting state, a reply inside an exchange. `Failed` is left at once for `Idle`
(R156; log entry 18). -/
def fetch (s : State) : Fetch :=
  match s.lstate with
  | .closed => fetchCommand s
  | .awaitingAtr => fetchCommand s
  | .idle => fetchCommand s
  | .exchanging => fetchReply s
  | .resynchronizing => fetchReply s
  | .failed => .done (.next { s with lstate := .idle })

/-! ### Where the next instruction is put (log entry 20) -/

/-- The state with a command as the next thing the host presents, in a state that takes commands. -/
def State.withCommand (s : State) (c : HostCmd) : State :=
  { s with
    lstate := if s.lstate.resting then s.lstate else .idle
    hostIn := c :: s.hostIn }

/-- The state with a raw block as the next answer of the channel, in a state that waits for a reply. -/
def State.withReply (s : State) (raw : List Byte) : State :=
  { s with
    lstate := if s.lstate = .resynchronizing then .resynchronizing else .exchanging
    reads := .returns (.bytes raw) :: s.reads }

end Sys2Proof.Machine
end

