-- ==== Sys2Proof/Machine/CodecPort.lean ====
section
/-! DEFINITION. `ENCODE` and `DECODE` on the CODEC port: pure, in the mode the host gives, legal in every resting state.
Spec: 43_session_commands.md rule R253, 30_encoding.md rule R103, 40_codec.md rules R134, R140. -/

namespace Sys2Proof.Machine

/-- `ENCODE(mode, node_address, control, payload)` (R253, R134; `RES_LEN` by R42, log entry 15). -/
def execEncodeCmd (mode : EdcMode) (nad : Byte) (control : Control) (payload : List Byte) (s : State) : Result :=
  onCommand
    (fun t =>
      match encodeBlock mode ⟨nad, control, payload⟩ with
      | none => .next (completeEmpty .payloadTooLong t)
      | some raw => .next (complete .ok 0#16 (.rawBlock raw) t))
    s

/-- `DECODE(mode, raw)` (R253, R140; `RES_LEN` by R42, log entry 15). -/
def execDecodeCmd (mode : EdcMode) (raw : List Byte) (s : State) : Result :=
  onCommand
    (fun t =>
      match decodeBlock mode raw with
      | .ok b => .next (complete .ok 0#16 (.block b) t)
      | .error e => .next (completeEmpty (decodeStatus e) t))
    s

end Sys2Proof.Machine
end

