-- ==== Sys2Proof/Machine/Information.lean ====
section
/-! DEFINITION. The received I-block. Spec: 41_link_state_machine.md rule R164. -/

namespace Sys2Proof.Machine

/-- The tests of R164 on an I-block in `SendLast` and `RecvChain`, in order: sequence bit, `IFSD`, capacity; then accept. -/
def judgeInformation (ns m : Bool) (inf : List Byte) (s : State) : Result :=
  if s.expects ns then
    if inf.length > s.ifsd.toNat then resync .sequenceError s
    else if s.rspLen.toNat + inf.length > s.rspCap.toNat then .next (fail .invalidArgument s)
    else acceptBlock m inf s
  else resync .sequenceError s

/-- `I(ns, m)` received: unexpected in `SendChain`, else judged (R164). -/
def execIBlock (nad : Byte) (ns m : Bool) (inf : List Byte) (s : State) : Result :=
  onReply nad
    (fun t =>
      match t.phase with
      | .sendChain => resync .sequenceError t
      | .sendLast => judgeInformation ns m inf t
      | .recvChain => judgeInformation ns m inf t)
    resyncUnanswered s

end Sys2Proof.Machine
end

