-- ==== Sys2Proof/Machine/ReceiveReady.lean ====
section
/-! DEFINITION. The received R-blocks. Their payload, and the `nr` bit of a negative one, are not examined (R96).
Spec: 41_link_state_machine.md rules R162, R165, R166. -/

namespace Sys2Proof.Machine

/-- `RPos(nr)` received: in `SendChain` with `nr = ~SSB` it acknowledges the chunk, `SSB` toggles and the next chunk is sent;
otherwise it is a mismatch or an unexpected block (R162, R214). -/
def execRPos (nad : Byte) (nr : Bool) (_inf : List Byte) (s : State) : Result :=
  onReply nad
    (fun t =>
      match t.phase with
      | .sendChain => if t.ackedBy nr then transmit (advance { t with ssb := !t.ssb }) else resync .sequenceError t
      | .sendLast => resync .sequenceError t
      | .recvChain => resync .sequenceError t)
    resyncUnanswered s

/-- `RNegSeq(nr)` received (R165). -/
def execRNegSeq (nad : Byte) (nr : Bool) (_inf : List Byte) (s : State) : Result :=
  onReply nad (negative (sizeNak (.rNegSeq nr))) resyncUnanswered s

/-- `RNegOther(nr)` received (R166). -/
def execRNegOther (nad : Byte) (nr : Bool) (_inf : List Byte) (s : State) : Result :=
  onReply nad (negative (sizeNak (.rNegOther nr))) resyncUnanswered s

end Sys2Proof.Machine
end

