-- ==== Sys2Proof/Machine/Session.lean ====
section
/-! DEFINITION. The host commands `OPEN`, `RESET`, `TRANSCEIVE`, `CLOSE` and the unassigned command codes.
Spec: 43_session_commands.md rules R243 to R252, 30_encoding.md rule R102. -/

namespace Sys2Proof.Machine

/-- The defaults of the five session registers that `OPEN` and `RESET` write (R244 step o5, R246 step r4). -/
def sessionDefaults (s : State) : State :=
  { s with
    ssb := false
    rsb := false
    ifsc := Config.ifscDefault
    ifsd := Config.ifsdDefault
    wtm := Config.wtmDefault }

/-- `OPEN`, steps o4 to o6: the addresses and the mode are bound, the defaults written, the state is `Idle` (R244, R45). -/
def bindSession (hostAddr chipAddr : Byte) (mode : EdcMode) (s : State) : State :=
  { sessionDefaults s with
    nadTx := nadByte chipAddr hostAddr
    nadRx := nadByte hostAddr chipAddr
    edcMode := mode
    lstate := .idle }

/-- `OPEN` once its state and operands are legal: acquire the channel, and bind the session if it is held (R244). -/
def acquireAndBind (cfg : List Byte) (hostAddr chipAddr : Byte) (mode : EdcMode) (s : State) : State :=
  if s.acquireAnswer then completeEmpty .ok (bindSession hostAddr chipAddr mode (afterAcquire cfg s))
  else completeEmpty .channelError (afterAcquire cfg s)

/-- `OPEN(channel_config, host_addr, chip_addr, edc_mode)` (R244). -/
def execOpenCmd (cfg : List Byte) (hostAddr chipAddr : Byte) (mode : EdcMode) (s : State) : Result :=
  onCommand
    (fun t =>
      if t.lstate = .closed then
        if addressesLegal hostAddr chipAddr then .next (acquireAndBind cfg hostAddr chipAddr mode t) else refuse t
      else refuse t)
    s

/-- `RESET`, steps r2 to r4: the reset pulse, `AwaitingAtr`, the five defaults, the old ATR forgotten (R246). -/
def resetPulse (s : State) : State :=
  { sessionDefaults (assertReset s) with
    lstate := .awaitingAtr
    atrLen := 0#8 }

/-- `RESET`, steps r8 to r10: the bytes read are kept and returned if they are a well-formed ATR, which is the parameter's to say
(R246, R247). -/
def takeAtr (wellFormed : List Byte → Bool) (a : List Byte) (s : State) : State :=
  if wellFormed a then
    complete .ok (BitVec.ofNat 16 a.length) (.bytes a)
      { s with atrb := s.atrb.writeFrom 0 a, atrLen := BitVec.ofNat 8 a.length }
  else completeEmpty .malformedLength s

/-- `RESET`, steps r5 to r10: one read of at most `ATR_MAX` bytes; nothing is retried (R246). -/
def readAtr (s : State) : Result :=
  match s.readOutcome Config.atrMax with
  | none => .fault (.readNeverReturns (duringRead Config.atrMax Config.atrTimeout s))
  | some .error => .next (completeEmpty .channelError (afterRead Config.atrMax Config.atrTimeout .error s))
  | some .timeout => .next (completeEmpty .timeout (afterRead Config.atrMax Config.atrTimeout .timeout s))
  | some (.bytes a) => .next (takeAtr Config.atrWellFormed a (afterRead Config.atrMax Config.atrTimeout (.bytes a) s))

/-- `RESET()` (R246). -/
def execResetCmd (s : State) : Result :=
  onCommand (fun t => if t.lstate.session then readAtr (resetPulse t) else refuse t) s

/-- `TRANSCEIVE(apdu, cap)`: the checks, the accept, the start of the exchange and the first block; the step ends waiting for the
reply (R248, R249, R210, R222). -/
def execTransceiveCmd (apdu : List Byte) (cap : Half) (s : State) : Result :=
  onCommand
    (fun t =>
      if t.lstate.session && requestLegal apdu cap then transmit (exchangeStart (acceptRequest apdu cap t)) else refuse t)
    s

/-- `CLOSE`, steps c2 to c5: the channel is released and all session, exchange and buffer state discarded, so that each register
is again as at power-on (R252, R45). The scripted inputs and the record of channel calls are not the session's. -/
def discardSession (s : State) : State :=
  { State.reset with
    hostIn := s.hostIn
    acquires := s.acquires
    writes := s.writes
    reads := s.reads
    events := .release :: s.events }

/-- `CLOSE()`: a no-op in `Closed` (R252). -/
def execCloseCmd (s : State) : Result :=
  onCommand (fun t => .next (completeEmpty .ok (if t.lstate = .closed then t else discardSession t))) s

/-- A command code other than the six: refused (R102). -/
def execUnassignedCmd (_code : Byte) (s : State) : Result := onCommand refuse s

end Sys2Proof.Machine
end

