-- ==== Sys2Proof/Machine/Supervisory.lean ====
section
/-! DEFINITION. The received S-blocks and the unknown control bytes. Spec: 41_link_state_machine.md rules R173 to R182. -/

namespace Sys2Proof.Machine

/-- An unexpected block: a detected protocol desynchronization (R173). -/
def unexpected (s : State) : Result := resync .sequenceError s

/-- `SReq(RESYNCH)` received: the peer may not ask for it (R174). -/
def execSReqResynch (nad : Byte) (_inf : List Byte) (s : State) : Result := onReply nad unexpected resyncUnanswered s

/-- `SReq(IFS)` received: `IFSC` and `CHUNK_MAX` take the size, the request is echoed and the engine waits again (R176). -/
def execSReqIfs (nad : Byte) (inf : List Byte) (s : State) : Result :=
  onReply nad
    (fun t =>
      match ifsValue inf with
      | some v => sendBlock (.sResp .ifs) inf id { t with ifsc := v, chunkMax := v }
      | none => unexpected t)
    resyncUnanswered s

/-- `SReq(ABORT)` received: answered, then the exchange fails without a read (R177). -/
def execSReqAbort (nad : Byte) (_inf : List Byte) (s : State) : Result :=
  onReply nad (sendBlock (.sResp .abort) [] (fail .sequenceError)) resyncUnanswered s

/-- `SReq(WTX)` received: `WTM` takes the multiplier, the request is echoed and the engine waits again (R175). -/
def execSReqWtx (nad : Byte) (inf : List Byte) (s : State) : Result :=
  onReply nad
    (fun t =>
      match wtxValue inf with
      | some v => sendBlock (.sResp .wtx) inf id { t with wtm := v }
      | none => unexpected t)
    resyncUnanswered s

/-- `SResp(RESYNCH)` received: the matching response while a resynchronization waits, else unexpected (R178, R189). -/
def execSRespResynch (nad : Byte) (_inf : List Byte) (s : State) : Result := onReply nad unexpected resynced s

/-- `SResp(IFS)` received: no such request is ever outstanding (R179). -/
def execSRespIfs (nad : Byte) (_inf : List Byte) (s : State) : Result := onReply nad unexpected resyncUnanswered s

/-- `SResp(ABORT)` received: no such request is ever outstanding (R180). -/
def execSRespAbort (nad : Byte) (_inf : List Byte) (s : State) : Result := onReply nad unexpected resyncUnanswered s

/-- `SResp(WTX)` received: no such request is ever outstanding (R181). -/
def execSRespWtx (nad : Byte) (_inf : List Byte) (s : State) : Result := onReply nad unexpected resyncUnanswered s

/-- `Unknown(raw)` received: one of the 238 unrecognized control bytes (R173, R91). -/
def execUnknown (nad _raw : Byte) (_inf : List Byte) (s : State) : Result := onReply nad unexpected resyncUnanswered s

end Sys2Proof.Machine
end

