-- ==== Sys2Proof/Machine/Dispatch.lean ====
section
/-! DEFINITION. One arm per constructor of `Instr`, each a call of the instruction's meaning. -/

namespace Sys2Proof.Machine

def exec (i : Instr) (s : State) : Host.Outcome State Fault Refusal :=
  match i with
  -- received blocks
  | .iBlock nad ns m inf => Sys2Proof.Machine.execIBlock nad ns m inf s
  | .rPos nad nr inf => Sys2Proof.Machine.execRPos nad nr inf s
  | .rNegSeq nad nr inf => Sys2Proof.Machine.execRNegSeq nad nr inf s
  | .rNegOther nad nr inf => Sys2Proof.Machine.execRNegOther nad nr inf s
  | .sReqResynch nad inf => Sys2Proof.Machine.execSReqResynch nad inf s
  | .sReqIfs nad inf => Sys2Proof.Machine.execSReqIfs nad inf s
  | .sReqAbort nad inf => Sys2Proof.Machine.execSReqAbort nad inf s
  | .sReqWtx nad inf => Sys2Proof.Machine.execSReqWtx nad inf s
  | .sRespResynch nad inf => Sys2Proof.Machine.execSRespResynch nad inf s
  | .sRespIfs nad inf => Sys2Proof.Machine.execSRespIfs nad inf s
  | .sRespAbort nad inf => Sys2Proof.Machine.execSRespAbort nad inf s
  | .sRespWtx nad inf => Sys2Proof.Machine.execSRespWtx nad inf s
  | .unknown nad raw inf => Sys2Proof.Machine.execUnknown nad raw inf s
  -- host commands
  | .openCmd cfg hostAddr chipAddr mode => Sys2Proof.Machine.execOpenCmd cfg hostAddr chipAddr mode s
  | .resetCmd => Sys2Proof.Machine.execResetCmd s
  | .transceiveCmd apdu cap => Sys2Proof.Machine.execTransceiveCmd apdu cap s
  | .closeCmd => Sys2Proof.Machine.execCloseCmd s
  | .encodeCmd mode nad control payload => Sys2Proof.Machine.execEncodeCmd mode nad control payload s
  | .decodeCmd mode raw => Sys2Proof.Machine.execDecodeCmd mode raw s
  | .unassignedCmd code => Sys2Proof.Machine.execUnassignedCmd code s

end Sys2Proof.Machine
end

