-- ==== Sys2Proof/Machine/Step.lean ====
section
/-! DEFINITION. One step of the engine: fetch the next instruction and run it; and how a word of the opcode table is put where the
next step fetches. Spec: 20_memory.md rules R75 to R77 (the channel reads are the suspension points), 42_chaining.md rule R222. -/

namespace Sys2Proof.Machine

/-- One step: run the instruction the engine has next, or take the outcome no instruction is behind. -/
def step (s : State) : Host.Outcome State Fault Refusal :=
  match fetch s with
  | .run i t => exec i t
  | .done o => o

/-- A word of the opcode table put where the next step fetches: a command code at the HOST port, a control byte as the block the
next read returns, built in the session's mode (log entry 20). -/
def State.withFetchWord (s : State) (nbits w : Nat) : State :=
  match tableByte nbits w with
  | none => s
  | some b =>
    match tablePortWord s.edcMode b with
    | .command c => s.withCommand c
    | .block raw => s.withReply raw

end Sys2Proof.Machine
end

