-- ==== Sys2Proof/Safety.lean ====
section
/-! DEFINITION. What counts as a safe run: the invariant every step keeps, and the states the statements name, each written out from
the spec's rule and not from the model's operations. Spec: 10_state.md rules R28 to R46, 41_link_state_machine.md rule R196. -/

namespace Sys2Proof.Machine

/-! ### States the statements name -/

/-- A command ended with status `st` and no data (R42): nothing else differs. -/
def State.endsWith (s : State) (st : Status) : State := { s with status := st, resLen := 0#16, result := .none }

/-- `Fail(E)` as R196 writes it: the four session registers at last-known-good, `WTM` at its default, `Idle`, the error and no
data; nothing else differs, and no block is sent. -/
def State.rolledBack (s : State) (e : Status) : State :=
  { s with
    lstate := .idle
    ssb := s.lkgSsb
    rsb := s.lkgRsb
    ifsc := s.lkgIfsc
    ifsd := s.lkgIfsd
    wtm := 1#8
    status := e
    resLen := 0#16
    result := .none }

/-- The raw bytes of a block of this session: address `NAD_TX`, the session's error-detection mode (R97). -/
def State.raw (s : State) (c : Control) (p : List Byte) : List Byte := Block.wire s.edcMode ⟨s.nadTx, c, p⟩

/-- One block was handed to the channel, which answered `ok`: the bytes stand in `TXB` and one `ChanWrite` is recorded (R158, R68). -/
def State.hands (s : State) (ok : Bool) (c : Control) (p : List Byte) : State :=
  { s with
    txb := s.txb.writeFrom 0 (s.raw c p)
    writes := s.writes.tail
    events := .write (s.raw c p) ok :: s.events }

/-- The resynchronization request went out for the fault `f` (R188 steps s1, s2). -/
def State.asksResync (s : State) (f : Status) : State :=
  { s with lstate := .resynchronizing, fault := f }.hands true (.sReq .resynch) []

/-- One reply was read, before it is judged: the call is recorded with its timeout, `WTM * BWT_BASE` in `WaitReply` and `BWT_BASE`
after a resynchronization request, and `WTM` is at its default when the engine was in `WaitReply` (R69, R161 step w1, R188 step s3). -/
def State.hasRead (s : State) (o : ReadOutcome) : State :=
  { s with
    reads := s.reads.tail
    events := .read 259 ((if s.lstate = .exchanging then s.wtm.toNat else 1) * Config.bwtBase) o :: s.events
    wtm := if s.lstate = .exchanging then 1#8 else s.wtm }

/-- The reply is a byte sequence: it stands in `RXB`, with its length in `RX_LEN` (R69, R159). -/
def State.hasReadBytes (s : State) (raw : List Byte) : State :=
  { s.hasRead (.bytes raw) with rxb := s.rxb.writeFrom 0 raw, rxLen := BitVec.ofNat 16 raw.length }

/-- Inside the read of a reply that never returns: the call is recorded and nothing else differs, `WTM` included, which is written
after the read returns (R74, R328, R161 step w1). -/
def State.stuckInReply (s : State) : State :=
  { s with events := .reading 259 ((if s.lstate = .exchanging then s.wtm.toNat else 1) * Config.bwtBase) :: s.events }

/-- Inside the read of a `RESET` that never returns: the pulse and the read are recorded, and the registers of R246 steps r3 and r4
are written (R74, R328, R246). -/
def State.stuckInReset (s : State) : State :=
  { s with
    lstate := .awaitingAtr, ssb := false, rsb := false, ifsc := 32#8, ifsd := 32#8, wtm := 1#8, atrLen := 0#8
    events := .reading 33 Config.atrTimeout :: .assertReset :: s.events }

/-! ### What two states have in common, for frames -/

/-- The node addresses and the error-detection mode are the same. -/
def State.sameBinding (s t : State) : Prop := t.nadTx = s.nadTx ∧ t.nadRx = s.nadRx ∧ t.edcMode = s.edcMode

/-- The last-known-good copy is the same. -/
def State.sameLkg (s t : State) : Prop :=
  t.lkgSsb = s.lkgSsb ∧ t.lkgRsb = s.lkgRsb ∧ t.lkgIfsc = s.lkgIfsc ∧ t.lkgIfsd = s.lkgIfsd

/-- The exchange registers, the phase and the fault latch are the same. -/
def State.sameExchange (s t : State) : Prop :=
  t.phase = s.phase ∧ t.fault = s.fault ∧ t.retry = s.retry ∧ t.reqLen = s.reqLen ∧ t.rspLen = s.rspLen ∧ t.rspCap = s.rspCap ∧
  t.txOff = s.txOff ∧ t.txLen = s.txLen ∧ t.txMore = s.txMore ∧ t.chunkMax = s.chunkMax

/-- Every byte of a buffer reads the same. -/
def State.sameBytes (s t : State) (b : Buf) : Prop := ∀ a, t.bufRead b a = s.bufRead b a

/-- The inputs the host and the channel have not delivered yet are the same, but for those of one list. -/
def State.sameInputs (s t : State) : Prop :=
  t.hostIn = s.hostIn ∧ t.acquires = s.acquires ∧ t.writes = s.writes ∧ t.reads = s.reads

/-- An exchange is running and a read is outstanding. -/
def State.inExchange (s : State) : Prop := s.lstate = .exchanging ∨ s.lstate = .resynchronizing

/-- The state between commands of an open session. -/
def State.atRest (s : State) : Prop := s.lstate = .idle ∨ s.lstate = .awaitingAtr

/-! ### The invariant -/

/-- A legal information field size, 1 to `IFS_MAX` (R28). -/
abbrev sizeLegal (v : Byte) : Prop := 1 ≤ v.toNat ∧ v.toNat ≤ 254

/-- The session registers between commands and inside an exchange (R46). -/
structure State.SessionLegal (s : State) : Prop where
  ifsc    : sizeLegal s.ifsc
  ifsd    : s.ifsd = 32#8
  nadBits : s.nadTx &&& 0x88#8 = 0#8 ∧ s.nadRx &&& 0x88#8 = 0#8
  nadSwap : s.nadRx >>> 4 = s.nadTx &&& 7#8 ∧ s.nadRx &&& 7#8 = s.nadTx >>> 4

/-- The exchange registers while an exchange runs (R34, R37 to R39, R41). -/
structure State.ExchangeLegal (s : State) : Prop where
  lkgIfsc   : sizeLegal s.lkgIfsc
  lkgIfsd   : s.lkgIfsd = 32#8
  retry     : 1 ≤ s.retry.toNat ∧ s.retry.toNat ≤ 3
  reqLen    : 4 ≤ s.reqLen.toNat ∧ s.reqLen.toNat ≤ 261
  rspCap    : 2 ≤ s.rspCap.toNat ∧ s.rspCap.toNat ≤ 258
  rspLen    : s.rspLen.toNat ≤ s.rspCap.toNat
  chunkMax  : sizeLegal s.chunkMax
  txLen     : sizeLegal s.txLen
  chunk     : s.txOff.toNat + s.txLen.toNat ≤ s.reqLen.toNat
  txMore    : s.txMore = true ↔ s.txOff.toNat + s.txLen.toNat < s.reqLen.toNat
  phase     : s.phase = .sendChain ↔ s.txMore = true
  reqFilled : s.req.filled s.reqLen.toNat = true
  rspFilled : s.rsp.filled s.rspLen.toNat = true

/-- The invariant every step keeps. -/
structure State.Inv (s : State) : Prop where
  notFailed : s.lstate ≠ .failed
  held      : s.held = true ↔ s.lstate ≠ .closed
  buffers   : ∀ b : Buf, (s.buf b).wf = true ∧ (s.buf b).below b.capacity = true
  session   : s.lstate ≠ .closed → s.SessionLegal
  resting   : s.lstate = .idle ∨ s.lstate = .awaitingAtr → s.wtm = 1#8
  waiting   : s.lstate = .exchanging → s.wtm ≠ 0#8
  resync    : s.lstate = .resynchronizing → s.wtm = 1#8 ∧ (s.fault = .timeout ∨ s.fault = .sequenceError)
  exchange  : s.lstate = .exchanging ∨ s.lstate = .resynchronizing → s.ExchangeLegal
  atr       : s.atrLen.toNat ≤ 33 ∧ s.atrb.filled s.atrLen.toNat = true
  reply     : s.rxLen.toNat ≤ 259 ∧ s.rxb.filled s.rxLen.toNat = true
  result    : s.status ≠ .ok → s.resLen = 0#16 ∧ s.result = .none

/-- A safe step: it goes on, or the channel never answers the read it makes, the reply an exchange waits for or the answer-to-reset
of the `RESET` the host presents; the engine is then stuck inside that read (R296, R328). -/
def State.safeStep (s : State) : Prop :=
  (∃ t, step s = .next t) ∨
  (s.reads.head? = some .never ∧
    ((s.inExchange ∧ step s = .fault (.readNeverReturns s.stuckInReply)) ∨
      (s.atRest ∧ ∃ c cs, s.hostIn = c :: cs ∧ c.code = 0x02#8 ∧
        step s = .fault (.readNeverReturns { s with hostIn := cs }.stuckInReset))))

end Sys2Proof.Machine
end

