-- ==== Sys2Proof/Certificates/Slice0/Obligations.lean ====
section
/-! DEFINITION. The statements for the provers. Each says what the spec says of the engine; the docstring names the rules. -/

open Sys2Proof Sys2Proof.Machine

/-- CLASSIFY and PCB_ENCODE are inverse to each other. Spec: R127. -/
def Obligations.ControlByteMapInvertible : Prop :=
  (∀ c : Control, c.wellFormed = true → classify (pcbEncode c) = c) ∧
  (∀ b : Byte, pcbEncode (classify b) = b) ∧
  (∀ b : Byte, (classify b).wellFormed = true)

/-- DECODE and ENCODE are inverse on valid blocks, in both modes. Spec: R143. -/
def Obligations.CodecRoundTrip : Prop :=
  (∀ (mode : EdcMode) (b : Block), b.valid = true →
    ∃ raw, encodeBlock mode b = some raw ∧ decodeBlock mode raw = .ok b) ∧
  (∀ (mode : EdcMode) (raw : List Byte) (b : Block), decodeBlock mode raw = .ok b → encodeBlock mode b = some raw)

/-- Decoding the port word of a well-formed instruction gives the instruction back. Spec: R87, R100, R101, R127, R143. -/
def Obligations.DecodeOfEncodeIsInstruction : Prop :=
  ∀ (mode : EdcMode) (i : Instr), i.wellFormed = true → decode mode (encode mode i) = .ok i

/-- A changed error-detection byte is a ChecksumMismatch, in both modes. Spec: R144. -/
def Obligations.EdcCorruptionDetected : Prop :=
  ∀ (mode : EdcMode) (b : Block) (raw : List Byte) (j : Nat) (v : Byte), b.valid = true → encodeBlock mode b = some raw →
    3 + b.payload.length ≤ j → j < raw.length → raw[j]? ≠ some v →
    decodeBlock mode (raw.set j v) = .error .checksumMismatch

/-- A changed length byte is MalformedLength; in LRC mode any other changed covered byte is ChecksumMismatch. Spec: R145. -/
def Obligations.OtherCorruptionDetected : Prop :=
  ∀ (b : Block) (j : Nat) (v : Byte), b.valid = true →
    (∀ (mode : EdcMode) (raw : List Byte), encodeBlock mode b = some raw → raw[2]? ≠ some v →
      decodeBlock mode (raw.set 2 v) = .error .malformedLength) ∧
    (∀ raw : List Byte, encodeBlock .lrc b = some raw → j < 3 + b.payload.length → j ≠ 2 → raw[j]? ≠ some v →
      decodeBlock .lrc (raw.set j v) = .error .checksumMismatch)

/-- When DECODE reports which error, and what it returns. Spec: R140. -/
def Obligations.DecodeOutcomes : Prop :=
  ∀ (mode : EdcMode) (raw : List Byte),
    (decodeBlock mode raw = .error .malformedLength ↔
      raw.length < 3 + mode.size ∨
      ∃ len, raw[2]? = some len ∧ (len.toNat > 254 ∨ len.toNat ≠ raw.length - 3 - mode.size)) ∧
    (decodeBlock mode raw = .error .checksumMismatch ↔
      3 + mode.size ≤ raw.length ∧
      (∃ len, raw[2]? = some len ∧ len.toNat ≤ 254 ∧ len.toNat = raw.length - 3 - mode.size) ∧
      raw.drop (raw.length - mode.size) ≠ edc mode (raw.take (raw.length - mode.size))) ∧
    (∀ b, decodeBlock mode raw = .ok b →
      raw[0]? = some b.nad ∧ raw[1]?.map classify = some b.control ∧
      b.payload = (raw.drop 3).take (raw.length - 3 - mode.size))

/-- Words written out from the encoding tables decode to their instructions. That 0x03 is a command code and 0x1F a control byte
is the model's choice (log entry 19). Spec: R88, R89, R90, R91, R100, R140. -/
def Obligations.TableWordsDecode : Prop :=
  decodeTableWord 8 0b01100000 = some (.iBlock 0#8 true true []) ∧
  decodeTableWord 8 0b10010000 = some (.rPos 0#8 true []) ∧
  decodeTableWord 8 0b10000001 = some (.rNegSeq 0#8 false []) ∧
  decodeTableWord 8 0b10010010 = some (.rNegOther 0#8 true []) ∧
  decodeTableWord 8 0b11000011 = some (.sReqWtx 0#8 []) ∧
  decodeTableWord 8 0b11100000 = some (.sRespResynch 0#8 []) ∧
  decodeTableWord 8 0b00011111 = some (.unknown 0#8 0x1F#8 []) ∧
  decodeTableWord 8 0b00000011 = some (.transceiveCmd [] 0#16) ∧
  decode .lrc (.block [0x21#8, 0x00#8, 0x02#8, 0x90#8, 0x00#8, 0xB3#8]) = .ok (.iBlock 0x21#8 false false [0x90#8, 0x00#8])

/-- After power-on: Closed, OK, no data, no buffer cell holds a value, the channel is not held. The record of channel calls is
the model's (log entry 21). Spec: R44, R311. -/
def Obligations.PowerOnState : Prop :=
  State.reset.lstate = .closed ∧ State.reset.status = .ok ∧ State.reset.resLen = 0#16 ∧ State.reset.result = .none ∧
  (∀ b a, State.reset.bufRead b a = none) ∧ State.reset.held = false ∧ State.reset.events = []

/-- In a resting state a step runs the command the host presents, and with none presented nothing changes. The queue and the
grain of a step are the model's (log entries 1 and 2). Spec: R21, R100, R150, R241. -/
def Obligations.StepRunsPresentedCommand : Prop :=
  ∀ s : State, s.lstate = .closed ∨ s.atRest →
    (∀ (c : HostCmd) (cs : List HostCmd), s.hostIn = c :: cs → step s = exec (decodeCommand c) { s with hostIn := cs }) ∧
    (s.hostIn = [] → step s = .next s)

/-- Inside an exchange a step runs the block the channel read returns. That a step is one reply is the model's grain (log entry
1). Spec: R69, R159, R161, R188. -/
def Obligations.StepRunsReceivedBlock : Prop :=
  ∀ (s : State) (raw : List Byte) (i : Instr), s.inExchange → s.readOutcome 259 = some (.bytes raw) →
    decode s.edcMode (.block raw) = .ok i →
    step s = exec i (s.hasReadBytes raw)

/-- A timeout of the reply starts a resynchronization. Spec: R170, R188. -/
def Obligations.TimeoutResynchronizes : Prop :=
  ∀ s : State, s.lstate = .exchanging → s.readOutcome 259 = some .timeout → (s.hasRead .timeout).writeAnswer = true →
    step s = .next ((s.hasRead .timeout).asksResync .timeout)

/-- An invalid reply costs one unit of the budget and the same block is sent again. Spec: R169, R186, R158. -/
def Obligations.InvalidReplyRetransmits : Prop :=
  ∀ (s : State) (raw : List Byte) (e : DecodeError), s.lstate = .exchanging → s.readOutcome 259 = some (.bytes raw) →
    decodeBlock s.edcMode raw = .error e →
    (∀ (c : Control) (p : List Byte), s.Inv → 1 < s.retry.toNat → s.currentBlock = some (c, p) →
      (s.hasReadBytes raw).writeAnswer = true →
      step s = .next ({ s.hasReadBytes raw with fault := decodeStatus e, retry := s.retry - 1#8 }.hands true c p)) ∧
    (s.retry = 1#8 →
      step s = .next ({ s.hasReadBytes raw with fault := decodeStatus e, retry := 0#8 }.rolledBack (decodeStatus e)))

/-- A channel error on a read ends the exchange at once, whatever the budget. Spec: R171, R196, R279. -/
def Obligations.ChannelReadErrorFails : Prop :=
  ∀ s : State, s.inExchange → s.readOutcome 259 = some .error →
    step s = .next ((s.hasRead .error).rolledBack .channelError)

/-- A timeout or an invalid reply to the resynchronization request fails the exchange with the fault that caused it. Spec: R188,
R189, R193. -/
def Obligations.UnansweredResyncFails : Prop :=
  ∀ s : State, s.lstate = .resynchronizing →
    (s.readOutcome 259 = some .timeout → step s = .next ((s.hasRead .timeout).rolledBack s.fault)) ∧
    (∀ raw e, s.readOutcome 259 = some (.bytes raw) → decodeBlock s.edcMode raw = .error e →
      step s = .next ((s.hasReadBytes raw).rolledBack s.fault))

/-- If the channel never returns from a read the engine is stuck inside the call. The fault is the model's name for being stuck;
it holds the state inside the call (log entry 5). Spec: R328, R74, R246. -/
def Obligations.ReadThatNeverReturnsIsStuck : Prop :=
  ∀ s : State, s.reads.head? = some .never →
    (s.inExchange → step s = .fault (.readNeverReturns s.stuckInReply)) ∧
    (s.atRest → exec .resetCmd s = .fault (.readNeverReturns s.stuckInReset))

/-- A successful OPEN binds addresses and mode and writes the session defaults. Spec: R244, R45, R83. -/
def Obligations.OpenBindsSession : Prop :=
  ∀ (s : State) (cfg : List Byte) (host chip : Byte) (mode : EdcMode), s.lstate = .closed → host.toNat ≤ 7 → chip.toNat ≤ 7 →
    s.acquireAnswer = true →
    exec (.openCmd cfg host chip mode) s = .next
      { s with
        lstate := .idle, nadTx := (chip <<< 4) ||| host, nadRx := (host <<< 4) ||| chip, edcMode := mode
        ssb := false, rsb := false, ifsc := 32#8, ifsd := 32#8, wtm := 1#8
        status := .ok, resLen := 0#16, result := .none
        held := true, acquires := s.acquires.tail, events := .acquire cfg true :: s.events }

/-- OPEN outside Closed or with an address above 7 is InvalidArgument; without the channel it is ChannelError. Spec: R243, R244,
R273, R279. -/
def Obligations.OpenRefused : Prop :=
  ∀ (s : State) (cfg : List Byte) (host chip : Byte) (mode : EdcMode),
    (s.atRest → exec (.openCmd cfg host chip mode) s = .next (s.endsWith .invalidArgument)) ∧
    (s.lstate = .closed → 7 < host.toNat ∨ 7 < chip.toNat →
      exec (.openCmd cfg host chip mode) s = .next (s.endsWith .invalidArgument)) ∧
    (s.lstate = .closed → host.toNat ≤ 7 → chip.toNat ≤ 7 → s.acquireAnswer = false →
      exec (.openCmd cfg host chip mode) s = .next
        ({ s with held := false, acquires := s.acquires.tail, events := .acquire cfg false :: s.events }.endsWith .channelError))

/-- A RESET that reads bytes returns them if they are a well-formed ATR, and reports MalformedLength if not. The well-formed
test is an open parameter of the model (log entry 11). Spec: R246, R247, R312. -/
def Obligations.ResetReturnsAtr : Prop :=
  ∀ (s : State) (a : List Byte), s.atRest → (assertReset s).readOutcome 33 = some (.bytes a) →
    exec .resetCmd s = .next
      (if Config.atrWellFormed a then
        { s with
          lstate := .awaitingAtr, ssb := false, rsb := false, ifsc := 32#8, ifsd := 32#8, wtm := 1#8
          atrb := s.atrb.writeFrom 0 a, atrLen := BitVec.ofNat 8 a.length
          status := .ok, resLen := BitVec.ofNat 16 a.length, result := .bytes a
          reads := s.reads.tail, events := .read 33 Config.atrTimeout (.bytes a) :: .assertReset :: s.events }
      else
        { s with
          lstate := .awaitingAtr, ssb := false, rsb := false, ifsc := 32#8, ifsd := 32#8, wtm := 1#8, atrLen := 0#8
          reads := s.reads.tail
          events := .read 33 Config.atrTimeout (.bytes a) :: .assertReset :: s.events }.endsWith .malformedLength)

/-- A RESET whose ATR does not come is reported, not retried, and still leaves AwaitingAtr with defaults. Spec: R243, R246,
R312. -/
def Obligations.ResetReportsFailure : Prop :=
  ∀ s : State,
    (s.lstate = .closed → exec .resetCmd s = .next (s.endsWith .invalidArgument)) ∧
    (s.atRest → ∀ (o : ReadOutcome) (st : Status), (assertReset s).readOutcome 33 = some o →
      ((o = .error ∧ st = .channelError) ∨ (o = .timeout ∧ st = .timeout)) →
      exec .resetCmd s = .next
        ({ s with
          lstate := .awaitingAtr, ssb := false, rsb := false, ifsc := 32#8, ifsd := 32#8, wtm := 1#8, atrLen := 0#8
          reads := s.reads.tail, events := .read 33 Config.atrTimeout o :: .assertReset :: s.events }.endsWith st))

/-- An accepted TRANSCEIVE copies the request, takes the last-known-good copy and sends the first chunk. Spec: R248, R249, R210,
R211, R158. -/
def Obligations.TransceiveStartsExchange : Prop :=
  ∀ (s : State) (apdu : List Byte) (cap : Half), s.Inv → s.atRest → 4 ≤ apdu.length → apdu.length ≤ 261 →
    2 ≤ cap.toNat → cap.toNat ≤ 258 → s.writeAnswer = true →
    exec (.transceiveCmd apdu cap) s = .next
      ({ s with
        lstate := .exchanging, wtm := 1#8
        req := s.req.writeFrom 0 apdu, reqLen := BitVec.ofNat 16 apdu.length, rspCap := cap, rspLen := 0#16
        lkgSsb := s.ssb, lkgRsb := s.rsb, lkgIfsc := s.ifsc, lkgIfsd := s.ifsd
        retry := 3#8, fault := .ok, chunkMax := s.ifsc, txOff := 0#16
        txLen := BitVec.ofNat 8 (min s.ifsc.toNat apdu.length), txMore := decide (apdu.length > s.ifsc.toNat)
        phase := if apdu.length > s.ifsc.toNat then .sendChain else .sendLast }.hands true
          (.i s.ssb (decide (apdu.length > s.ifsc.toNat))) (apdu.take s.ifsc.toNat))

/-- TRANSCEIVE in Closed, or with a length or capacity out of range, is refused before any I/O. Spec: R243, R248, R273. -/
def Obligations.TransceiveRefused : Prop :=
  ∀ (s : State) (apdu : List Byte) (cap : Half), s.lstate = .closed ∨ s.atRest →
    (s.lstate = .closed ∨ apdu.length < 4 ∨ 261 < apdu.length ∨ cap.toNat < 2 ∨ 258 < cap.toNat) →
    exec (.transceiveCmd apdu cap) s = .next (s.endsWith .invalidArgument)

/-- CLOSE releases the channel once and leaves the power-on state; in Closed it does nothing. What the registers hold at power-
on, and that the inputs and the record of calls outlive CLOSE, is the model's choice (log entries 6 and 21). Spec: R252, R45. -/
def Obligations.CloseDiscardsSession : Prop :=
  ∀ s : State,
    (s.atRest → exec .closeCmd s = .next
      { State.reset with
        hostIn := s.hostIn, acquires := s.acquires, writes := s.writes, reads := s.reads
        events := .release :: s.events }) ∧
    (s.lstate = .closed → exec .closeCmd s = .next (s.endsWith .ok))

/-- ENCODE on the CODEC port returns the raw block, or PayloadTooLong exactly above 254 bytes. RES_LEN = 0 is the model's
reading (log entry 15). Spec: R134, R103, R253. -/
def Obligations.EncodePortResult : Prop :=
  ∀ (s : State) (mode : EdcMode) (nad : Byte) (c : Control) (p : List Byte), s.lstate = .closed ∨ s.atRest →
    (254 < p.length → exec (.encodeCmd mode nad c p) s = .next (s.endsWith .payloadTooLong)) ∧
    (p.length ≤ 254 → exec (.encodeCmd mode nad c p) s = .next
      { s with
        status := .ok, resLen := 0#16
        result := .rawBlock (([nad, pcbEncode c, BitVec.ofNat 8 p.length] ++ p) ++
          edc mode ([nad, pcbEncode c, BitVec.ofNat 8 p.length] ++ p)) })

/-- DECODE on the CODEC port returns the Block or the codec's error. RES_LEN = 0 is the model's reading (log entry 15). Spec:
R140, R103, R253. -/
def Obligations.DecodePortResult : Prop :=
  ∀ (s : State) (mode : EdcMode) (raw : List Byte), s.lstate = .closed ∨ s.atRest →
    (∀ b, decodeBlock mode raw = .ok b → exec (.decodeCmd mode raw) s = .next
      { s with status := .ok, resLen := 0#16, result := .block b }) ∧
    (decodeBlock mode raw = .error .checksumMismatch →
      exec (.decodeCmd mode raw) s = .next (s.endsWith .checksumMismatch)) ∧
    (decodeBlock mode raw = .error .malformedLength →
      exec (.decodeCmd mode raw) s = .next (s.endsWith .malformedLength))

/-- A command code other than the six is refused with InvalidArgument. Spec: R102. -/
def Obligations.UnassignedCodeRefused : Prop :=
  ∀ (s : State) (c : HostCmd), s.lstate = .closed ∨ s.atRest →
    c.code ∉ [0x01#8, 0x02#8, 0x03#8, 0x04#8, 0x10#8, 0x11#8] →
    decodeCommand c = .unassignedCmd c.code ∧ exec (.unassignedCmd c.code) s = .next (s.endsWith .invalidArgument)

/-- A command presented while another is executing has no effect. That not even STATUS changes is the model's reading (log entry
16). Spec: R241, R322. -/
def Obligations.BusyEngineIgnoresCommands : Prop :=
  ∀ (s : State) (c : HostCmd), s.lstate = .exchanging ∨ s.lstate = .resynchronizing ∨ s.lstate = .failed →
    exec (decodeCommand c) s = .next s

/-- An accepted unchained I-block completes the exchange with the whole response. Spec: R164, R219, R251. -/
def Obligations.LastInformationCompletes : Prop :=
  ∀ (s : State) (nad : Byte) (ns : Bool) (inf : List Byte), s.Inv → s.lstate = .exchanging → s.phase ≠ .sendChain →
    nad = s.nadRx → ns = s.rsb → inf.length ≤ s.ifsd.toNat → s.rspLen.toNat + inf.length ≤ s.rspCap.toNat →
    2 ≤ s.rspLen.toNat + inf.length →
    ∃ before, s.rsp.readFrom 0 s.rspLen.toNat = some before ∧
      exec (.iBlock nad ns false inf) s = .next
        { s with
          ssb := if s.phase = Phase.sendLast then !s.ssb else s.ssb, rsb := !s.rsb
          rsp := s.rsp.writeFrom s.rspLen.toNat inf, rspLen := BitVec.ofNat 16 (s.rspLen.toNat + inf.length)
          lstate := .idle, status := .ok, resLen := BitVec.ofNat 16 (s.rspLen.toNat + inf.length)
          result := .bytes (before ++ inf) }

/-- A completed response of under 2 bytes is ShortResponse, without roll-back. Spec: R251, R278. -/
def Obligations.ShortResponseKeepsBits : Prop :=
  ∀ (s : State) (nad : Byte) (ns : Bool) (inf : List Byte), s.Inv → s.lstate = .exchanging → s.phase ≠ .sendChain →
    nad = s.nadRx → ns = s.rsb → inf.length ≤ s.ifsd.toNat → s.rspLen.toNat + inf.length ≤ s.rspCap.toNat →
    s.rspLen.toNat + inf.length < 2 →
    exec (.iBlock nad ns false inf) s = .next
      ({ s with
        ssb := if s.phase = Phase.sendLast then !s.ssb else s.ssb, rsb := !s.rsb
        rsp := s.rsp.writeFrom s.rspLen.toNat inf, rspLen := BitVec.ofNat 16 (s.rspLen.toNat + inf.length)
        lstate := .idle }.endsWith .shortResponse)

/-- An accepted chained I-block is appended and acknowledged with R+ of the next expected bit. Spec: R164, R218. -/
def Obligations.ChainedInformationAcknowledged : Prop :=
  ∀ (s : State) (nad : Byte) (ns : Bool) (inf : List Byte), s.Inv → s.lstate = .exchanging → s.phase ≠ .sendChain →
    nad = s.nadRx → ns = s.rsb → inf.length ≤ s.ifsd.toNat → s.rspLen.toNat + inf.length ≤ s.rspCap.toNat →
    s.writeAnswer = true →
    exec (.iBlock nad ns true inf) s = .next
      ({ s with
        ssb := if s.phase = Phase.sendLast then !s.ssb else s.ssb, rsb := !s.rsb
        rsp := s.rsp.writeFrom s.rspLen.toNat inf, rspLen := BitVec.ofNat 16 (s.rspLen.toNat + inf.length)
        phase := .recvChain }.hands true (.rPos (!s.rsb)) [])

/-- A response that does not fit the caller's capacity ends the exchange with InvalidArgument. Spec: R164, R196, R273. -/
def Obligations.OversizedResponseFails : Prop :=
  ∀ (s : State) (nad : Byte) (ns m : Bool) (inf : List Byte), s.lstate = .exchanging → s.phase ≠ .sendChain →
    nad = s.nadRx → ns = s.rsb → inf.length ≤ s.ifsd.toNat → s.rspCap.toNat < s.rspLen.toNat + inf.length →
    exec (.iBlock nad ns m inf) s = .next (s.rolledBack .invalidArgument)

/-- An I-block in SendChain, with the wrong bit, or longer than IFSD starts a resynchronization. Spec: R164, R173, R188. -/
def Obligations.UnexpectedInformationResynchronizes : Prop :=
  ∀ (s : State) (nad : Byte) (ns m : Bool) (inf : List Byte), s.lstate = .exchanging → nad = s.nadRx →
    (s.phase = .sendChain ∨ ns ≠ s.rsb ∨ s.ifsd.toNat < inf.length) → s.writeAnswer = true →
    exec (.iBlock nad ns m inf) s = .next (s.asksResync .sequenceError)

/-- RPos naming the next send bit acknowledges a chained chunk and the next chunk is sent. Spec: R162, R214, R211, R213. -/
def Obligations.PositiveAcknowledgeAdvances : Prop :=
  ∀ (s : State) (nad : Byte) (nr : Bool) (inf : List Byte), s.Inv → s.lstate = .exchanging → s.phase = .sendChain →
    nad = s.nadRx → nr = !s.ssb → s.writeAnswer = true →
    ∃ p, s.req.readFrom (s.txOff.toNat + s.txLen.toNat)
        (min s.chunkMax.toNat (s.reqLen.toNat - (s.txOff.toNat + s.txLen.toNat))) = some p ∧
      exec (.rPos nad nr inf) s = .next
        ({ s with
          ssb := !s.ssb
          txOff := BitVec.ofNat 16 (s.txOff.toNat + s.txLen.toNat)
          txLen := BitVec.ofNat 8 (min s.chunkMax.toNat (s.reqLen.toNat - (s.txOff.toNat + s.txLen.toNat)))
          txMore := decide (s.reqLen.toNat - (s.txOff.toNat + s.txLen.toNat) > s.chunkMax.toNat)
          phase := if s.reqLen.toNat - (s.txOff.toNat + s.txLen.toNat) > s.chunkMax.toNat then .sendChain else .sendLast
          }.hands true (.i (!s.ssb) (decide (s.reqLen.toNat - (s.txOff.toNat + s.txLen.toNat) > s.chunkMax.toNat))) p)

/-- RPos outside SendChain, or naming the current bit, starts a resynchronization. Spec: R162, R173. -/
def Obligations.OtherPositiveResynchronizes : Prop :=
  ∀ (s : State) (nad : Byte) (nr : Bool) (inf : List Byte), s.lstate = .exchanging → nad = s.nadRx →
    (s.phase ≠ .sendChain ∨ nr = s.ssb) → s.writeAnswer = true →
    exec (.rPos nad nr inf) s = .next (s.asksResync .sequenceError)

/-- A negative R-block of either kind costs one unit and the same block is sent again. Spec: R165, R166, R186, R158. -/
def Obligations.NegativeAcknowledgeRetransmits : Prop :=
  ∀ (s : State) (nad : Byte) (nr : Bool) (inf : List Byte) (i : Instr), s.lstate = .exchanging → nad = s.nadRx →
    i = .rNegSeq nad nr inf ∨ i = .rNegOther nad nr inf →
    (∀ (c : Control) (p : List Byte), s.Inv → 1 < s.retry.toNat → s.currentBlock = some (c, p) → s.writeAnswer = true →
      exec i s = .next ({ s with fault := .sequenceError, retry := s.retry - 1#8 }.hands true c p)) ∧
    (s.retry = 1#8 →
      exec i s = .next ({ s with fault := .sequenceError, retry := 0#8 }.rolledBack .sequenceError))

/-- SReq(WTX) and SReq(IFS) with a legal byte are served and echoed, at no cost. Spec: R175, R176, R182. -/
def Obligations.SupervisoryRequestsServed : Prop :=
  ∀ (s : State) (nad v : Byte), s.lstate = .exchanging → nad = s.nadRx → s.writeAnswer = true →
    (v ≠ 0#8 → exec (.sReqWtx nad [v]) s = .next ({ s with wtm := v }.hands true (.sResp .wtx) [v])) ∧
    (1 ≤ v.toNat → v.toNat ≤ 254 →
      exec (.sReqIfs nad [v]) s = .next ({ s with ifsc := v, chunkMax := v }.hands true (.sResp .ifs) [v]))

/-- SReq(WTX) and SReq(IFS) with a malformed payload start a resynchronization. Spec: R175, R176, R173. -/
def Obligations.MalformedSupervisoryResynchronizes : Prop :=
  ∀ (s : State) (nad : Byte) (inf : List Byte), s.lstate = .exchanging → nad = s.nadRx → s.writeAnswer = true →
    (inf.length ≠ 1 ∨ inf = [0#8] → exec (.sReqWtx nad inf) s = .next (s.asksResync .sequenceError)) ∧
    (inf.length ≠ 1 ∨ inf = [0#8] ∨ inf = [255#8] → exec (.sReqIfs nad inf) s = .next (s.asksResync .sequenceError))

/-- SReq(ABORT) is answered and then the exchange fails with SequenceError. Spec: R177, R196, R279. -/
def Obligations.AbortRequestFails : Prop :=
  ∀ (s : State) (nad : Byte) (inf : List Byte), s.lstate = .exchanging → nad = s.nadRx →
    (s.writeAnswer = true →
      exec (.sReqAbort nad inf) s = .next ((s.hands true (.sResp .abort) []).rolledBack .sequenceError)) ∧
    (s.writeAnswer = false →
      exec (.sReqAbort nad inf) s = .next ((s.hands false (.sResp .abort) []).rolledBack .channelError))

/-- SReq(RESYNCH), every SResp and every Unknown control byte start a resynchronization. Spec: R173, R174, R178, R179, R180,
R181. -/
def Obligations.UnexpectedKindsResynchronize : Prop :=
  ∀ (s : State) (nad raw : Byte) (inf : List Byte) (i : Instr), s.lstate = .exchanging → nad = s.nadRx → s.writeAnswer = true →
    i ∈ [.sReqResynch nad inf, .sRespResynch nad inf, .sRespIfs nad inf, .sRespAbort nad inf, .sRespWtx nad inf,
      .unknown nad raw inf] →
    exec i s = .next (s.asksResync .sequenceError)

/-- A block with another address than NAD_RX starts a resynchronization, whatever its control byte. Spec: R168, R188, R171. -/
def Obligations.WrongAddressResynchronizes : Prop :=
  ∀ (s : State) (b : Block), s.lstate = .exchanging → b.nad ≠ s.nadRx →
    (s.writeAnswer = true → exec (.ofBlock b) s = .next (s.asksResync .sequenceError)) ∧
    (s.writeAnswer = false → exec (.ofBlock b) s = .next
      (({ s with lstate := .resynchronizing, fault := .sequenceError }.hands false (.sReq .resynch) []).rolledBack .channelError))

/-- A matching resynchronization response resets the two bits, costs one unit and sends the current block again. Spec: R188,
R189, R192. -/
def Obligations.MatchedResyncRetries : Prop :=
  ∀ (s : State) (nad : Byte) (inf : List Byte), s.lstate = .resynchronizing → nad = s.nadRx →
    (∀ (c : Control) (p : List Byte), s.Inv → 1 < s.retry.toNat →
      { s with ssb := false, rsb := false }.currentBlock = some (c, p) → s.writeAnswer = true →
      exec (.sRespResynch nad inf) s = .next
        ({ s with ssb := false, rsb := false, retry := s.retry - 1#8, lstate := .exchanging }.hands true c p)) ∧
    (s.retry = 1#8 →
      exec (.sRespResynch nad inf) s = .next ({ s with retry := 0#8 }.rolledBack s.fault))

/-- Every other block in Resynchronizing fails the exchange with the fault that started it. Spec: R188, R189, R193. -/
def Obligations.UnmatchedResyncFails : Prop :=
  ∀ (s : State) (b : Block), s.lstate = .resynchronizing → (b.nad ≠ s.nadRx ∨ b.control ≠ .sResp .resynch) →
    exec (.ofBlock b) s = .next (s.rolledBack s.fault)

/-- Halving takes one unit, halves the chunk size with a floor of 1 and sends the shorter chunk, or fails on the last unit. No
received block reaches it with the decided SIZE_NAK (log entry 13). Spec: R220, R165. -/
def Obligations.HalvingRecutsTheChunk : Prop :=
  ∀ s : State, s.lstate = .exchanging → s.phase.sending = true →
    (s.retry = 1#8 →
      negative true s = .next ({ s with fault := .sequenceError, retry := 0#8 }.rolledBack .sequenceError)) ∧
    (s.Inv → 1 < s.retry.toNat → s.writeAnswer = true → ∃ p, s.req.readFrom s.txOff.toNat (min (max 1 (s.chunkMax.toNat / 2)) (s.reqLen.toNat - s.txOff.toNat)) = some p ∧
      negative true s = .next
        ({ s with
          fault := .sequenceError, retry := s.retry - 1#8
          chunkMax := BitVec.ofNat 8 (max 1 (s.chunkMax.toNat / 2))
          txLen := BitVec.ofNat 8 (min (max 1 (s.chunkMax.toNat / 2)) (s.reqLen.toNat - s.txOff.toNat))
          txMore := decide (s.reqLen.toNat - s.txOff.toNat > max 1 (s.chunkMax.toNat / 2))
          phase := if s.reqLen.toNat - s.txOff.toNat > max 1 (s.chunkMax.toNat / 2) then .sendChain else .sendLast
          }.hands true (.i s.ssb (decide (s.reqLen.toNat - s.txOff.toNat > max 1 (s.chunkMax.toNat / 2)))) p))

/-- What no received block changes: bindings, shadow, request, answer-to-reset, unread inputs. Spec: R255, R163, R216. -/
def Obligations.BlockRegisterFrame : Prop :=
  ∀ (s t : State) (b : Block), exec (.ofBlock b) s = .next t →
    s.sameBinding t ∧ s.sameLkg t ∧ t.reqLen = s.reqLen ∧ t.rspCap = s.rspCap ∧ t.rxLen = s.rxLen ∧ t.atrLen = s.atrLen ∧
    t.held = s.held ∧ t.hostIn = s.hostIn ∧ t.acquires = s.acquires ∧ t.reads = s.reads ∧
    s.sameBytes t .req ∧ s.sameBytes t .rxb ∧ s.sameBytes t .atrb

/-- Which bytes of RSP and TXB a received block may change. Spec: R63, R134, R164, R255. -/
def Obligations.BlockStoreFrame : Prop :=
  ∀ (s t : State) (b : Block), exec (.ofBlock b) s = .next t →
    (∀ a, a < s.rspLen.toNat ∨ s.rspLen.toNat + b.payload.length ≤ a → t.bufRead .rsp a = s.bufRead .rsp a) ∧
    ((∀ ns m, b.control ≠ .i ns m) → s.sameBytes t .rsp) ∧
    ((t.events = s.events ∧ s.sameBytes t .txb) ∨
      ∃ raw ok, t.events = .write raw ok :: s.events ∧
        ∀ a, t.bufRead .txb a = if a < raw.length then raw[a]? else s.bufRead .txb a)

/-- A write the channel refuses ends the exchange with ChannelError and the last-known-good session registers. Spec: R68, R171,
R196, R279. -/
def Obligations.RefusedWriteFails : Prop :=
  ∀ (i : Instr) (s t : State) (raw : List Byte) (ok : Bool), exec i s = .next t → t.events = .write raw ok :: s.events →
    ok = s.writeAnswer ∧
    (ok = false →
      t.lstate = .idle ∧ t.status = .channelError ∧ t.resLen = 0#16 ∧ t.result = .none ∧ t.ssb = t.lkgSsb ∧ t.rsb = t.lkgRsb ∧
      t.ifsc = t.lkgIfsc ∧ t.ifsd = t.lkgIfsd ∧ t.wtm = 1#8)

/-- SSB and RSB change only on a valid acknowledgement, a matched resynchronization or a roll-back. Spec: R163, R26, R27. -/
def Obligations.SequenceBitsToggleOnlyOnAcknowledgement : Prop :=
  ∀ (s t : State) (b : Block), exec (.ofBlock b) s = .next t →
    (t.ssb ≠ s.ssb →
      (s.lstate = .exchanging ∧ b.nad = s.nadRx ∧
        ((s.phase = .sendChain ∧ b.control = .rPos (!s.ssb)) ∨ (s.phase = .sendLast ∧ ∃ m, b.control = .i s.rsb m))) ∨
      (s.lstate = .resynchronizing ∧ b.nad = s.nadRx ∧ b.control = .sResp .resynch ∧ t.ssb = false) ∨
      (t.lstate = .idle ∧ t.result = .none ∧ t.ssb = s.lkgSsb)) ∧
    (t.rsb ≠ s.rsb →
      (s.lstate = .exchanging ∧ b.nad = s.nadRx ∧ s.phase ≠ .sendChain ∧ ∃ m, b.control = .i s.rsb m) ∨
      (s.lstate = .resynchronizing ∧ b.nad = s.nadRx ∧ b.control = .sResp .resynch ∧ t.rsb = false) ∨
      (t.lstate = .idle ∧ t.result = .none ∧ t.rsb = s.lkgRsb))

/-- No instruction but OPEN and CLOSE changes the node addresses or the error-detection mode. Spec: R255, R245. -/
def Obligations.OnlyOpenAndCloseRebind : Prop :=
  ∀ (i : Instr) (s t : State), (∀ cfg host chip mode, i ≠ .openCmd cfg host chip mode) → i ≠ .closeCmd → exec i s = .next t →
    s.sameBinding t

/-- What OPEN never changes. Spec: R244, R255. -/
def Obligations.OpenFrame : Prop :=
  ∀ (s t : State) (cfg : List Byte) (host chip : Byte) (mode : EdcMode), exec (.openCmd cfg host chip mode) s = .next t →
    s.sameExchange t ∧ s.sameLkg t ∧ t.rxLen = s.rxLen ∧ t.atrLen = s.atrLen ∧ t.hostIn = s.hostIn ∧ t.writes = s.writes ∧
    t.reads = s.reads ∧ ∀ b, s.sameBytes t b

/-- What RESET never changes. Spec: R246, R255, R312. -/
def Obligations.ResetFrame : Prop :=
  ∀ s t : State, exec .resetCmd s = .next t →
    s.sameBinding t ∧ s.sameExchange t ∧ s.sameLkg t ∧ t.rxLen = s.rxLen ∧ t.held = s.held ∧ t.hostIn = s.hostIn ∧
    t.acquires = s.acquires ∧ t.writes = s.writes ∧
    (∀ b, b ≠ .atrb → s.sameBytes t b) ∧ (∀ a, t.atrLen.toNat ≤ a → t.bufRead .atrb a = s.bufRead .atrb a) ∧
    (t.status ≠ .ok → s.sameBytes t .atrb)

/-- What the step that accepts TRANSCEIVE never changes. Spec: R210, R249, R255. -/
def Obligations.TransceiveFrame : Prop :=
  ∀ (s t : State) (apdu : List Byte) (cap : Half), exec (.transceiveCmd apdu cap) s = .next t →
    t.ssb = s.ssb ∧ t.rsb = s.rsb ∧ t.ifsc = s.ifsc ∧ t.ifsd = s.ifsd ∧ s.sameBinding t ∧ t.atrLen = s.atrLen ∧
    t.rxLen = s.rxLen ∧ t.held = s.held ∧ t.hostIn = s.hostIn ∧ t.acquires = s.acquires ∧ t.reads = s.reads ∧
    s.sameBytes t .rsp ∧ s.sameBytes t .rxb ∧ s.sameBytes t .atrb ∧
    (∀ a, apdu.length ≤ a → t.bufRead .req a = s.bufRead .req a) ∧
    ((t.events = s.events ∧ s.sameBytes t .txb) ∨
      ∃ raw ok, t.events = .write raw ok :: s.events ∧
        ∀ a, t.bufRead .txb a = if a < raw.length then raw[a]? else s.bufRead .txb a)

/-- The power-on state meets the invariant. It rests on the register values the model chose (log entry 6). Spec: R44, R46. -/
def Obligations.PowerOnMeetsInvariant : Prop :=
  State.reset.Inv

/-- Every step from a state that meets the invariant gives one that meets it. Spec: R37, R38, R39, R41, R42, R46, R62. -/
def Obligations.EveryStepKeepsInvariant : Prop :=
  ∀ s t : State, s.Inv → step s = .next t → t.Inv

/-- From a state that meets the invariant every step goes on, unless the channel never answers a read. The faults are the
model's names (log entries 5, 7, 8). Spec: R41, R62, R74, R135, R296, R328. -/
def Obligations.InvariantStepsAreSafe : Prop :=
  ∀ s : State, s.Inv → s.safeStep

/-- Inside an exchange each step is one read and then at most one write, and only an ended exchange omits the write. The record
of channel calls is the model's (log entry 21). Spec: R75, R76. -/
def Obligations.OneReadThenAtMostOneWrite : Prop :=
  ∀ s t : State, s.inExchange → step s = .next t →
    ∃ timeout o, (t.lstate = .idle ∧ t.events = .read 259 timeout o :: s.events) ∨
      ∃ raw ok, t.events = .write raw ok :: .read 259 timeout o :: s.events

/-- Every block the engine writes is one of the six forms, with NAD_TX and the session mode. Spec: R97, R158. -/
def Obligations.OnlySixFormsAreSent : Prop :=
  ∀ s t : State, step s = .next t →
    ∃ new, t.events = new ++ s.events ∧ ∀ raw ok, ChanEvent.write raw ok ∈ new →
      ∃ c p, raw = s.raw c p ∧
        ((∃ ns m, c = .i ns m) ∨ (∃ nr, c = .rPos nr ∧ p = []) ∨ (c = .sReq .resynch ∧ p = []) ∨
          (c = .sResp .ifs ∧ p.length = 1) ∨ (c = .sResp .abort ∧ p = []) ∨ (c = .sResp .wtx ∧ p.length = 1))

/-- Inside an exchange the shadow and the request are fixed, the budget never grows and the offset never falls. Spec: R34, R187,
R216. -/
def Obligations.ExchangeKeepsShadowAndBudget : Prop :=
  ∀ s t : State, s.Inv → s.inExchange → step s = .next t →
    s.sameLkg t ∧ s.sameBinding t ∧ t.reqLen = s.reqLen ∧ t.rspCap = s.rspCap ∧ s.sameBytes t .req ∧
    t.retry.toNat ≤ s.retry.toNat ∧ s.txOff.toNat ≤ t.txOff.toNat

/-- WTM is at its default after every step of an exchange, but for one that served SReq(WTX). The record of channel calls is the
model's (log entry 21). Spec: R30, R175, R291, R293. -/
def Obligations.WaitExtensionLastsOneRead : Prop :=
  ∀ s t : State, s.Inv → s.inExchange → step s = .next t →
    (∃ o, s.readOutcome 259 = some o ∧
      (t.events = .read 259 ((if s.lstate = .exchanging then s.wtm.toNat else 1) * Config.bwtBase) o :: s.events ∨
        ∃ raw ok, t.events = .write raw ok ::
          .read 259 ((if s.lstate = .exchanging then s.wtm.toNat else 1) * Config.bwtBase) o :: s.events)) ∧
    (t.wtm = 1#8 ∨
      (s.lstate = .exchanging ∧ ∃ raw, s.readOutcome 259 = some (.bytes raw) ∧
        decodeBlock s.edcMode raw = .ok ⟨s.nadRx, .sReq .wtx, [t.wtm]⟩))

/-- Which command can end with which status. Spec: R295. -/
def Obligations.StatusOfEachCommand : Prop :=
  (∀ s t : State, s.lstate = .closed ∨ s.atRest →
    (∀ cfg host chip mode, exec (.openCmd cfg host chip mode) s = .next t → t.status ∈ [.ok, .invalidArgument, .channelError]) ∧
    (exec .resetCmd s = .next t → t.status ∈ [.ok, .invalidArgument, .malformedLength, .timeout, .channelError]) ∧
    (∀ apdu cap, exec (.transceiveCmd apdu cap) s = .next t → t.inExchange ∨ t.status ∈ [.invalidArgument, .channelError]) ∧
    (exec .closeCmd s = .next t → t.status = .ok) ∧
    (∀ mode nad c p, exec (.encodeCmd mode nad c p) s = .next t → t.status ∈ [.ok, .payloadTooLong]) ∧
    (∀ mode raw, exec (.decodeCmd mode raw) s = .next t → t.status ∈ [.ok, .checksumMismatch, .malformedLength])) ∧
  (∀ s t : State, s.Inv → s.inExchange → step s = .next t → t.lstate = .idle → t.status ≠ .payloadTooLong)

/-- A TRANSCEIVE that ends with an error other than ShortResponse leaves the Link Session State as before the command. Spec:
R285, R196, R34. -/
def Obligations.FailedExchangeRestoresSession : Prop :=
  ∀ (s : State) (apdu : List Byte) (cap : Half) (path : Nat → State) (n : Nat), s.Inv → s.atRest →
    exec (.transceiveCmd apdu cap) s = .next (path 0) →
    (∀ k, k < n → (path k).inExchange ∧ step (path k) = .next (path (k + 1))) →
    (path n).lstate = .idle → (path n).status ≠ .ok → (path n).status ≠ .shortResponse →
    (path n).ssb = s.ssb ∧ (path n).rsb = s.rsb ∧ (path n).ifsc = s.ifsc ∧ (path n).ifsd = s.ifsd ∧ (path n).wtm = s.wtm ∧
    s.sameBinding (path n)

/-- A request that fits one block, answered by one unchained I-block, is one write and one read and returns the payload. Spec:
R212, R250, R251. -/
def Obligations.SimpleExchangeReturnsResponse : Prop :=
  ∀ (s : State) (apdu data : List Byte) (cap : Half) (cmds : List HostCmd) (ws : List Bool) (rs : List ReadAnswer), s.Inv →
    s.lstate = .idle → 4 ≤ apdu.length → apdu.length ≤ s.ifsc.toNat → 2 ≤ data.length → data.length ≤ 32 →
    data.length ≤ cap.toNat → cap.toNat ≤ 258 →
    s.hostIn = { HostCmd.bare 0x03#8 with apdu := apdu, cap := cap } :: cmds → s.writes = true :: ws →
    s.reads = .returns (.bytes (Block.wire s.edcMode ⟨s.nadRx, .i s.rsb false, data⟩)) :: rs →
    ∃ t, core.run 2 s = .next t ∧ t.lstate = .idle ∧ t.status = .ok ∧ t.result = .bytes data ∧
      t.ssb = !s.ssb ∧ t.rsb = !s.rsb ∧ t.ifsc = s.ifsc ∧ t.ifsd = s.ifsd ∧ s.sameBinding t ∧
      ∃ timeout, t.events =
        .read 259 timeout (.bytes (Block.wire s.edcMode ⟨s.nadRx, .i s.rsb false, data⟩)) ::
        .write (s.raw (.i s.ssb false) apdu) true :: s.events
end

