-- ==== Sys2Proof/Laws/Codec.lean ====
section
/-! SUPPORT. Laws of the codec: lengths, the parts of a raw block, and when `ENCODE` and `DECODE` succeed. -/

namespace Sys2Proof

@[simp] theorem halfBytes_length (c : Half) : (halfBytes c).length = 2 := rfl

@[simp] theorem edc_length (mode : EdcMode) (s : List Byte) : (edc mode s).length = mode.size := by
  cases mode <;> rfl

theorem EdcMode.size_pos (mode : EdcMode) : 1 ≤ mode.size := by cases mode <;> decide

theorem EdcMode.size_le (mode : EdcMode) : mode.size ≤ 2 := by cases mode <;> decide

@[simp] theorem EdcMode.ofBit_bit (mode : EdcMode) : EdcMode.ofBit mode.bit = mode := by cases mode <;> rfl

@[simp] theorem Block.body_length (b : Block) : b.body.length = 3 + b.payload.length := by
  simp only [Block.body, List.length_cons]; omega

@[simp] theorem Block.wire_length (mode : EdcMode) (b : Block) :
    (b.wire mode).length = 3 + b.payload.length + mode.size := by
  simp [Block.wire]

theorem payloadFits_iff {inf : List Byte} : payloadFits inf = true ↔ inf.length ≤ 254 := by
  unfold payloadFits
  exact decide_eq_true_iff

theorem Block.valid_iff {b : Block} : b.valid = true ↔ b.control.wellFormed = true ∧ b.payload.length ≤ 254 := by
  unfold Block.valid
  rw [Bool.and_eq_true]
  exact and_congr Iff.rfl decide_eq_true_iff

/-- The length byte of a payload that fits is its length. -/
theorem lengthByte_toNat {inf : List Byte} (h : inf.length ≤ 254) : (BitVec.ofNat 8 inf.length).toNat = inf.length := by
  rw [BitVec.toNat_ofNat]
  omega

theorem Block.wire_take_body (mode : EdcMode) (b : Block) : (b.wire mode).take (3 + b.payload.length) = b.body := by
  rw [← Block.body_length, Block.wire, List.take_left]

theorem Block.wire_drop_body (mode : EdcMode) (b : Block) : (b.wire mode).drop (3 + b.payload.length) = edc mode b.body := by
  rw [← Block.body_length, Block.wire, List.drop_left]

/-- `ENCODE` succeeds exactly on payloads of at most 254 bytes (R134). -/
theorem encodeBlock_of_fits {mode : EdcMode} {b : Block} (h : b.payload.length ≤ 254) :
    encodeBlock mode b = some (b.wire mode) := by
  rw [encodeBlock, if_neg (by simpa [Config.lenMax] using h)]

theorem encodeBlock_of_long {mode : EdcMode} {b : Block} (h : 254 < b.payload.length) : encodeBlock mode b = none := by
  rw [encodeBlock, if_pos (by simpa [Config.lenMax] using h)]

theorem encodeBlock_eq_some {mode : EdcMode} {b : Block} {raw : List Byte} (h : encodeBlock mode b = some raw) :
    b.payload.length ≤ 254 ∧ raw = b.wire mode := by
  by_cases hl : b.payload.length ≤ 254
  · rw [encodeBlock_of_fits hl] at h
    exact ⟨hl, (Option.some.inj h).symm⟩
  · rw [encodeBlock_of_long (by omega)] at h
    cases h

/-- Everything `DECODE` tests before it returns a Block (R140). -/
theorem decodeBlock_eq_ok {mode : EdcMode} {raw : List Byte} {b : Block} (h : decodeBlock mode raw = .ok b) :
    ∃ pcb len rest, raw = b.nad :: pcb :: len :: rest ∧ len.toNat ≤ 254 ∧ len.toNat = raw.length - 3 - mode.size ∧
      3 + mode.size ≤ raw.length ∧ b.control = classify pcb ∧ b.payload = rest.take (raw.length - mode.size - 3) ∧
      raw.drop (raw.length - mode.size) = edc mode (raw.take (raw.length - mode.size)) := by
  unfold decodeBlock at h
  split at h
  · cases h
  · rename_i h0
    split at h
    · rename_i nad pcb len rest
      split at h
      · cases h
      · rename_i h1
        split at h
        · cases h
        · rename_i h2
          simp only [Config.lenMax, Nat.not_lt, ne_eq, Decidable.not_not] at h1 h2
          simp only [decodeChecked] at h
          split at h
          · rename_i h3
            cases h
            exact ⟨pcb, len, rest, rfl, h1, h2, by omega, rfl, rfl, h3⟩
          · cases h
    · cases h

/-- A decoded payload is exactly as long as the length byte says, so it fits a block (R140). -/
theorem decodeBlock_payload_le {mode : EdcMode} {raw : List Byte} {b : Block} (h : decodeBlock mode raw = .ok b) :
    b.payload.length ≤ 254 := by
  obtain ⟨pcb, len, rest, rfl, h1, h2, h3, -, hp, -⟩ := decodeBlock_eq_ok h
  rw [hp, List.length_take]
  simp only [List.length_cons] at h2 h3 ⊢
  omega

/-- What the decoder answers on a byte sequence is the instruction of the Block `DECODE` returns. -/
theorem decode_block_eq_ok {mode : EdcMode} {raw : List Byte} {i : Instr} (h : decode mode (.block raw) = .ok i) :
    ∃ b, decodeBlock mode raw = .ok b ∧ i = .ofBlock b := by
  simp only [decode] at h
  split at h
  · rename_i b hb
    cases h
    exact ⟨b, hb, rfl⟩
  · cases h

theorem decode_block_eq_error {mode : EdcMode} {raw : List Byte} {e : DecodeError} :
    decode mode (.block raw) = .error e ↔ decodeBlock mode raw = .error e := by
  simp only [decode]
  split <;> simp_all

/-- The Block a received instruction arrived in. -/
def Instr.block : Instr → Option Block
  | .iBlock nad ns m inf => some ⟨nad, .i ns m, inf⟩
  | .rPos nad nr inf => some ⟨nad, .rPos nr, inf⟩
  | .rNegSeq nad nr inf => some ⟨nad, .rNegSeq nr, inf⟩
  | .rNegOther nad nr inf => some ⟨nad, .rNegOther nr, inf⟩
  | .sReqResynch nad inf => some ⟨nad, .sReq .resynch, inf⟩
  | .sReqIfs nad inf => some ⟨nad, .sReq .ifs, inf⟩
  | .sReqAbort nad inf => some ⟨nad, .sReq .abort, inf⟩
  | .sReqWtx nad inf => some ⟨nad, .sReq .wtx, inf⟩
  | .sRespResynch nad inf => some ⟨nad, .sResp .resynch, inf⟩
  | .sRespIfs nad inf => some ⟨nad, .sResp .ifs, inf⟩
  | .sRespAbort nad inf => some ⟨nad, .sResp .abort, inf⟩
  | .sRespWtx nad inf => some ⟨nad, .sResp .wtx, inf⟩
  | .unknown nad raw inf => some ⟨nad, .unknown raw, inf⟩
  | .openCmd _ _ _ _ => none
  | .resetCmd => none
  | .transceiveCmd _ _ => none
  | .closeCmd => none
  | .encodeCmd _ _ _ _ => none
  | .decodeCmd _ _ => none
  | .unassignedCmd _ => none

@[simp] theorem Instr.block_ofBlock (b : Block) : (Instr.ofBlock b).block = some b := by
  obtain ⟨n, c, p⟩ := b
  cases c <;> first | rfl | (rename_i k; cases k <;> rfl)

/-- No two Blocks are one instruction. -/
theorem Instr.ofBlock_injective {b c : Block} (h : Instr.ofBlock b = Instr.ofBlock c) : b = c := by
  simpa using congrArg Instr.block h

end Sys2Proof
end

