-- ==== Sys2Proof/Laws/Memory.lean ====
section
/-! SUPPORT. Laws of the buffers: a read after a write, the canonical form, the capacity, and runs of cells. -/

namespace Sys2Proof.Machine

@[simp] theorem Memory.read_nil (i : Nat) : Memory.read [] i = none := rfl

theorem Memory.read_write (m : Memory) (i j : Nat) (v : Byte) :
    (m.write i v).read j = if j = i then some v else m.read j := by
  induction m with
  | nil => by_cases h : i = j <;> simp [Memory.write, Memory.read, h, eq_comm]
  | cons c m ih =>
    obtain ⟨a, b⟩ := c
    simp only [Memory.write]
    split
    · by_cases h : j = i
      · simp [Memory.read, h]
      · simp [Memory.read, h, Ne.symm h]
    · split
      · rename_i h1 h2
        subst h2
        by_cases h : j = i
        · simp [Memory.read, h]
        · simp [Memory.read, h, Ne.symm h]
      · rename_i h1 h2
        by_cases h : a = j
        · subst h; simp [Memory.read, Ne.symm h2]
        · simp [Memory.read, h, ih]

@[simp] theorem Memory.read_write_same (m : Memory) (i : Nat) (v : Byte) : (m.write i v).read i = some v := by
  simp [Memory.read_write]

theorem Memory.read_write_other (m : Memory) {i j : Nat} (v : Byte) (h : j ≠ i) : (m.write i v).read j = m.read j := by
  simp [Memory.read_write, h]

/-- A run of cells, read back: the bytes written inside the run, the old ones outside. -/
theorem Memory.read_writeFrom (m : Memory) (i j : Nat) (vs : List Byte) :
    (m.writeFrom i vs).read j = if i ≤ j ∧ j < i + vs.length then vs[j - i]? else m.read j := by
  induction vs generalizing m i with
  | nil => simp only [Memory.writeFrom, List.length_nil]; split <;> first | omega | rfl
  | cons v vs ih =>
    simp only [Memory.writeFrom, ih, Memory.read_write, List.length_cons]
    by_cases h0 : j = i
    · subst h0; simp
    · by_cases h1 : i + 1 ≤ j ∧ j < i + 1 + vs.length
      · have h2 : i ≤ j ∧ j < i + (vs.length + 1) := by omega
        rw [if_pos h1, if_pos h2, show j - i = (j - (i + 1)) + 1 by omega, List.getElem?_cons_succ]
      · have h2 : ¬ (i ≤ j ∧ j < i + (vs.length + 1)) := by omega
        rw [if_neg h1, if_neg h2, if_neg h0]

theorem Memory.read_writeFrom_outside (m : Memory) {i j : Nat} {vs : List Byte} (h : j < i ∨ i + vs.length ≤ j) :
    (m.writeFrom i vs).read j = m.read j := by
  rw [Memory.read_writeFrom, if_neg (by omega)]

/-! ### The canonical form -/

theorem Memory.wf_cons {a : Nat} {b : Byte} {m : Memory} :
    Memory.wf ((a, b) :: m) = true ↔ (∀ c ∈ m.head?, a < c.1) ∧ m.wf = true := by
  cases m with
  | nil => simp [Memory.wf]
  | cons c m => obtain ⟨x, y⟩ := c; simp [Memory.wf]

theorem Memory.head_write (m : Memory) (i : Nat) (v : Byte) :
    ∀ c ∈ (m.write i v).head?, c.1 = i ∨ ∃ d ∈ m.head?, c.1 = d.1 := by
  cases m with
  | nil => simp [Memory.write]
  | cons c m =>
    obtain ⟨a, b⟩ := c
    simp only [Memory.write]
    split
    · simp
    · split <;> simp

theorem Memory.wf_write {m : Memory} (h : m.wf = true) (i : Nat) (v : Byte) : (m.write i v).wf = true := by
  induction m with
  | nil => simp [Memory.write, Memory.wf]
  | cons c m ih =>
    obtain ⟨a, b⟩ := c
    rw [Memory.wf_cons] at h
    simp only [Memory.write]
    split
    · rename_i hlt
      simp only [Memory.wf_cons]
      exact ⟨by simpa using hlt, h.1, h.2⟩
    · split
      · rename_i h1 h2
        subst h2
        exact Memory.wf_cons.2 h
      · rename_i h1 h2
        refine Memory.wf_cons.2 ⟨?_, ih h.2⟩
        intro c hc
        rcases Memory.head_write m i v c hc with hi | ⟨d, hd, hcd⟩
        · omega
        · rw [hcd]; exact h.1 d hd

theorem Memory.wf_writeFrom {m : Memory} (h : m.wf = true) (i : Nat) (vs : List Byte) : (m.writeFrom i vs).wf = true := by
  induction vs generalizing m i with
  | nil => exact h
  | cons v vs ih => exact ih (Memory.wf_write h i v) (i + 1)

/-! ### The capacity -/

theorem Memory.below_write {cap : Nat} {m : Memory} (h : m.below cap = true) {i : Nat} (hi : i < cap) (v : Byte) :
    (m.write i v).below cap = true := by
  induction m with
  | nil => simpa [Memory.write, Memory.below] using hi
  | cons c m ih =>
    obtain ⟨a, b⟩ := c
    simp only [Memory.below, List.all_cons, Bool.and_eq_true, decide_eq_true_eq] at h ih ⊢
    simp only [Memory.write]
    split
    · simp only [List.all_cons, Bool.and_eq_true, decide_eq_true_eq]; exact ⟨hi, h.1, h.2⟩
    · split
      · simp only [List.all_cons, Bool.and_eq_true, decide_eq_true_eq]; exact ⟨hi, h.2⟩
      · simp only [List.all_cons, Bool.and_eq_true, decide_eq_true_eq]; exact ⟨h.1, ih h.2⟩

theorem Memory.below_writeFrom {cap : Nat} {m : Memory} (h : m.below cap = true) {i : Nat} {vs : List Byte}
    (hi : i + vs.length ≤ cap) : (m.writeFrom i vs).below cap = true := by
  induction vs generalizing m i with
  | nil => exact h
  | cons v vs ih =>
    simp only [List.length_cons] at hi
    exact ih (Memory.below_write h (by omega) v) (by omega)

/-! ### Runs of cells -/

/-- A run is readable exactly when each of its cells holds a value. -/
theorem Memory.readFrom_isSome (m : Memory) (i n : Nat) :
    (m.readFrom i n).isSome = true ↔ ∀ k, k < n → (m.read (i + k)).isSome = true := by
  induction n generalizing i with
  | zero => simp [Memory.readFrom]
  | succ n ih =>
    simp only [Memory.readFrom]
    constructor
    · intro h k hk
      rcases hr : m.read i with _ | b
      · simp [hr] at h
      · rcases hs : m.readFrom (i + 1) n with _ | bs
        · simp [hr, hs] at h
        · cases k with
          | zero => simp [hr]
          | succ k =>
            have := (ih (i + 1)).1 (by simp [hs]) k (by omega)
            rwa [show i + 1 + k = i + (k + 1) by omega] at this
    · intro h
      have h0 := h 0 (by omega)
      have h1 := (ih (i + 1)).2 (fun k hk => by
        have := h (k + 1) (by omega)
        rwa [show i + (k + 1) = i + 1 + k by omega] at this)
      obtain ⟨b, hb⟩ := Option.isSome_iff_exists.1 h0
      obtain ⟨bs, hbs⟩ := Option.isSome_iff_exists.1 h1
      simp only [Nat.add_zero] at hb
      simp [hb, hbs]

theorem Memory.filled_iff (m : Memory) (n : Nat) : m.filled n = true ↔ ∀ k, k < n → (m.read k).isSome = true := by
  simpa [Memory.filled] using Memory.readFrom_isSome m 0 n

/-- A run inside the filled prefix is readable. -/
theorem Memory.readFrom_of_filled {m : Memory} {n i k : Nat} (h : m.filled n = true) (hk : i + k ≤ n) :
    ∃ p, m.readFrom i k = some p :=
  Option.isSome_iff_exists.1 ((Memory.readFrom_isSome m i k).2 fun j hj => (Memory.filled_iff m n).1 h (i + j) (by omega))

theorem Memory.filled_mono {m : Memory} {n k : Nat} (h : m.filled n = true) (hk : k ≤ n) : m.filled k = true :=
  (Memory.filled_iff m k).2 fun j hj => (Memory.filled_iff m n).1 h j (by omega)

/-- A run has as many bytes as it has cells. -/
theorem Memory.readFrom_length {m : Memory} {i n : Nat} {p : List Byte} (h : m.readFrom i n = some p) : p.length = n := by
  induction n generalizing i p with
  | zero => simp only [Memory.readFrom, Option.some.injEq] at h; subst h; rfl
  | succ n ih =>
    simp only [Memory.readFrom] at h
    split at h
    · rename_i hb hbs
      simp only [Option.some.injEq] at h
      subst h
      simp [ih hbs]
    · simp at h

/-- Two buffers that agree on a run give the same bytes. -/
theorem Memory.readFrom_congr {m m' : Memory} {i n : Nat} (h : ∀ k, k < n → m.read (i + k) = m'.read (i + k)) :
    m.readFrom i n = m'.readFrom i n := by
  induction n generalizing i with
  | zero => rfl
  | succ n ih =>
    have h0 := h 0 (by omega)
    have h1 := ih (i := i + 1) (fun k hk => by
      have := h (k + 1) (by omega)
      rwa [show i + (k + 1) = i + 1 + k by omega] at this)
    simp only [Nat.add_zero] at h0
    simp only [Memory.readFrom, h0, h1]

/-- A run that holds the bytes of a list gives the list. -/
theorem Memory.readFrom_eq {m : Memory} {i : Nat} {vs : List Byte} (h : ∀ k, k < vs.length → m.read (i + k) = vs[k]?) :
    m.readFrom i vs.length = some vs := by
  induction vs generalizing i with
  | nil => rfl
  | cons v vs ih =>
    have h0 := h 0 (by simp)
    have h1 := ih (i := i + 1) (fun k hk => by
      have := h (k + 1) (by simpa using hk)
      rwa [show i + (k + 1) = i + 1 + k by omega, List.getElem?_cons_succ] at this)
    simp only [Nat.add_zero, List.getElem?_cons_zero] at h0
    simp only [List.length_cons, Memory.readFrom, h0, h1]

/-- A run cut in two. -/
theorem Memory.readFrom_append {m : Memory} {i n k : Nat} {p q : List Byte} (hp : m.readFrom i n = some p)
    (hq : m.readFrom (i + n) k = some q) : m.readFrom i (n + k) = some (p ++ q) := by
  induction n generalizing i p with
  | zero =>
    simp only [Memory.readFrom, Option.some.injEq] at hp
    subst hp
    simpa using hq
  | succ n ih =>
    simp only [Memory.readFrom] at hp
    split at hp
    · rename_i b bs hb hbs
      simp only [Option.some.injEq] at hp
      subst hp
      have := ih hbs (by rwa [show i + 1 + n = i + (n + 1) by omega])
      rw [show n + 1 + k = (n + k) + 1 by omega]
      simp only [Memory.readFrom, hb, this, List.cons_append]
    · simp at hp

/-- What was just written reads back. -/
theorem Memory.readFrom_writeFrom (m : Memory) (i : Nat) (vs : List Byte) :
    (m.writeFrom i vs).readFrom i vs.length = some vs :=
  Memory.readFrom_eq fun k hk => by
    rw [Memory.read_writeFrom, if_pos (by omega), show i + k - i = k by omega]

/-- A prefix of what was just written reads back. -/
theorem Memory.readFrom_writeFrom_take (m : Memory) (i n : Nat) {vs : List Byte} (h : n ≤ vs.length) :
    (m.writeFrom i vs).readFrom i n = some (vs.take n) := by
  have := Memory.readFrom_eq (m := m.writeFrom i vs) (i := i) (vs := vs.take n) (fun k hk => by
    have hk' : k < n ∧ k < vs.length := by simpa using hk
    rw [Memory.read_writeFrom, if_pos (by omega), show i + k - i = k by omega, List.getElem?_take, if_pos hk'.1])
  rwa [List.length_take, Nat.min_eq_left h] at this

/-- A run written at the end of a filled prefix extends it, and reads as the old bytes followed by the new ones. -/
theorem Memory.readFrom_extend {m : Memory} {n : Nat} {p : List Byte} (hp : m.readFrom 0 n = some p) (vs : List Byte) :
    (m.writeFrom n vs).readFrom 0 (n + vs.length) = some (p ++ vs) := by
  refine Memory.readFrom_append ?_ (by simpa using Memory.readFrom_writeFrom m n vs)
  rw [← hp]
  exact Memory.readFrom_congr fun k hk => Memory.read_writeFrom_outside m (by omega)

theorem Memory.filled_extend {m : Memory} {n : Nat} (h : m.filled n = true) (vs : List Byte) :
    (m.writeFrom n vs).filled (n + vs.length) = true := by
  obtain ⟨p, hp⟩ := Option.isSome_iff_exists.1 h
  simp [Memory.filled, Memory.readFrom_extend hp]

theorem Memory.filled_writeFrom_zero (m : Memory) (vs : List Byte) : (m.writeFrom 0 vs).filled vs.length = true := by
  simp [Memory.filled, Memory.readFrom_writeFrom]

end Sys2Proof.Machine
end

