-- ==== Sys2Proof/Laws/State.lean ====
section
/-! SUPPORT. One lemma per field per update of the state: what each update writes, and that it writes nothing else. -/

namespace Sys2Proof.Machine

variable (s : State)

/-! ### A completed command (R42) -/

@[simp] theorem complete_lstate (st : Status) (len : Half) (data : ResultData) : (complete st len data s).lstate = s.lstate := rfl
@[simp] theorem complete_phase (st : Status) (len : Half) (data : ResultData) : (complete st len data s).phase = s.phase := rfl
@[simp] theorem complete_ssb (st : Status) (len : Half) (data : ResultData) : (complete st len data s).ssb = s.ssb := rfl
@[simp] theorem complete_rsb (st : Status) (len : Half) (data : ResultData) : (complete st len data s).rsb = s.rsb := rfl
@[simp] theorem complete_ifsc (st : Status) (len : Half) (data : ResultData) : (complete st len data s).ifsc = s.ifsc := rfl
@[simp] theorem complete_ifsd (st : Status) (len : Half) (data : ResultData) : (complete st len data s).ifsd = s.ifsd := rfl
@[simp] theorem complete_wtm (st : Status) (len : Half) (data : ResultData) : (complete st len data s).wtm = s.wtm := rfl
@[simp] theorem complete_nadTx (st : Status) (len : Half) (data : ResultData) : (complete st len data s).nadTx = s.nadTx := rfl
@[simp] theorem complete_nadRx (st : Status) (len : Half) (data : ResultData) : (complete st len data s).nadRx = s.nadRx := rfl
@[simp] theorem complete_edcMode (st : Status) (len : Half) (data : ResultData) : (complete st len data s).edcMode = s.edcMode := rfl
@[simp] theorem complete_lkgSsb (st : Status) (len : Half) (data : ResultData) : (complete st len data s).lkgSsb = s.lkgSsb := rfl
@[simp] theorem complete_lkgRsb (st : Status) (len : Half) (data : ResultData) : (complete st len data s).lkgRsb = s.lkgRsb := rfl
@[simp] theorem complete_lkgIfsc (st : Status) (len : Half) (data : ResultData) : (complete st len data s).lkgIfsc = s.lkgIfsc := rfl
@[simp] theorem complete_lkgIfsd (st : Status) (len : Half) (data : ResultData) : (complete st len data s).lkgIfsd = s.lkgIfsd := rfl
@[simp] theorem complete_fault (st : Status) (len : Half) (data : ResultData) : (complete st len data s).fault = s.fault := rfl
@[simp] theorem complete_retry (st : Status) (len : Half) (data : ResultData) : (complete st len data s).retry = s.retry := rfl
@[simp] theorem complete_reqLen (st : Status) (len : Half) (data : ResultData) : (complete st len data s).reqLen = s.reqLen := rfl
@[simp] theorem complete_rspLen (st : Status) (len : Half) (data : ResultData) : (complete st len data s).rspLen = s.rspLen := rfl
@[simp] theorem complete_rspCap (st : Status) (len : Half) (data : ResultData) : (complete st len data s).rspCap = s.rspCap := rfl
@[simp] theorem complete_txOff (st : Status) (len : Half) (data : ResultData) : (complete st len data s).txOff = s.txOff := rfl
@[simp] theorem complete_txLen (st : Status) (len : Half) (data : ResultData) : (complete st len data s).txLen = s.txLen := rfl
@[simp] theorem complete_txMore (st : Status) (len : Half) (data : ResultData) : (complete st len data s).txMore = s.txMore := rfl
@[simp] theorem complete_chunkMax (st : Status) (len : Half) (data : ResultData) : (complete st len data s).chunkMax = s.chunkMax := rfl
@[simp] theorem complete_req (st : Status) (len : Half) (data : ResultData) : (complete st len data s).req = s.req := rfl
@[simp] theorem complete_rsp (st : Status) (len : Half) (data : ResultData) : (complete st len data s).rsp = s.rsp := rfl
@[simp] theorem complete_txb (st : Status) (len : Half) (data : ResultData) : (complete st len data s).txb = s.txb := rfl
@[simp] theorem complete_rxb (st : Status) (len : Half) (data : ResultData) : (complete st len data s).rxb = s.rxb := rfl
@[simp] theorem complete_rxLen (st : Status) (len : Half) (data : ResultData) : (complete st len data s).rxLen = s.rxLen := rfl
@[simp] theorem complete_atrb (st : Status) (len : Half) (data : ResultData) : (complete st len data s).atrb = s.atrb := rfl
@[simp] theorem complete_atrLen (st : Status) (len : Half) (data : ResultData) : (complete st len data s).atrLen = s.atrLen := rfl
@[simp] theorem complete_status (st : Status) (len : Half) (data : ResultData) : (complete st len data s).status = st := rfl
@[simp] theorem complete_resLen (st : Status) (len : Half) (data : ResultData) : (complete st len data s).resLen = len := rfl
@[simp] theorem complete_result (st : Status) (len : Half) (data : ResultData) : (complete st len data s).result = data := rfl
@[simp] theorem complete_held (st : Status) (len : Half) (data : ResultData) : (complete st len data s).held = s.held := rfl
@[simp] theorem complete_hostIn (st : Status) (len : Half) (data : ResultData) : (complete st len data s).hostIn = s.hostIn := rfl
@[simp] theorem complete_acquires (st : Status) (len : Half) (data : ResultData) : (complete st len data s).acquires = s.acquires := rfl
@[simp] theorem complete_writes (st : Status) (len : Half) (data : ResultData) : (complete st len data s).writes = s.writes := rfl
@[simp] theorem complete_reads (st : Status) (len : Half) (data : ResultData) : (complete st len data s).reads = s.reads := rfl
@[simp] theorem complete_events (st : Status) (len : Half) (data : ResultData) : (complete st len data s).events = s.events := rfl

/-! ### A command completed without data (R42) -/

@[simp] theorem completeEmpty_lstate (st : Status) : (completeEmpty st s).lstate = s.lstate := rfl
@[simp] theorem completeEmpty_phase (st : Status) : (completeEmpty st s).phase = s.phase := rfl
@[simp] theorem completeEmpty_ssb (st : Status) : (completeEmpty st s).ssb = s.ssb := rfl
@[simp] theorem completeEmpty_rsb (st : Status) : (completeEmpty st s).rsb = s.rsb := rfl
@[simp] theorem completeEmpty_ifsc (st : Status) : (completeEmpty st s).ifsc = s.ifsc := rfl
@[simp] theorem completeEmpty_ifsd (st : Status) : (completeEmpty st s).ifsd = s.ifsd := rfl
@[simp] theorem completeEmpty_wtm (st : Status) : (completeEmpty st s).wtm = s.wtm := rfl
@[simp] theorem completeEmpty_nadTx (st : Status) : (completeEmpty st s).nadTx = s.nadTx := rfl
@[simp] theorem completeEmpty_nadRx (st : Status) : (completeEmpty st s).nadRx = s.nadRx := rfl
@[simp] theorem completeEmpty_edcMode (st : Status) : (completeEmpty st s).edcMode = s.edcMode := rfl
@[simp] theorem completeEmpty_lkgSsb (st : Status) : (completeEmpty st s).lkgSsb = s.lkgSsb := rfl
@[simp] theorem completeEmpty_lkgRsb (st : Status) : (completeEmpty st s).lkgRsb = s.lkgRsb := rfl
@[simp] theorem completeEmpty_lkgIfsc (st : Status) : (completeEmpty st s).lkgIfsc = s.lkgIfsc := rfl
@[simp] theorem completeEmpty_lkgIfsd (st : Status) : (completeEmpty st s).lkgIfsd = s.lkgIfsd := rfl
@[simp] theorem completeEmpty_fault (st : Status) : (completeEmpty st s).fault = s.fault := rfl
@[simp] theorem completeEmpty_retry (st : Status) : (completeEmpty st s).retry = s.retry := rfl
@[simp] theorem completeEmpty_reqLen (st : Status) : (completeEmpty st s).reqLen = s.reqLen := rfl
@[simp] theorem completeEmpty_rspLen (st : Status) : (completeEmpty st s).rspLen = s.rspLen := rfl
@[simp] theorem completeEmpty_rspCap (st : Status) : (completeEmpty st s).rspCap = s.rspCap := rfl
@[simp] theorem completeEmpty_txOff (st : Status) : (completeEmpty st s).txOff = s.txOff := rfl
@[simp] theorem completeEmpty_txLen (st : Status) : (completeEmpty st s).txLen = s.txLen := rfl
@[simp] theorem completeEmpty_txMore (st : Status) : (completeEmpty st s).txMore = s.txMore := rfl
@[simp] theorem completeEmpty_chunkMax (st : Status) : (completeEmpty st s).chunkMax = s.chunkMax := rfl
@[simp] theorem completeEmpty_req (st : Status) : (completeEmpty st s).req = s.req := rfl
@[simp] theorem completeEmpty_rsp (st : Status) : (completeEmpty st s).rsp = s.rsp := rfl
@[simp] theorem completeEmpty_txb (st : Status) : (completeEmpty st s).txb = s.txb := rfl
@[simp] theorem completeEmpty_rxb (st : Status) : (completeEmpty st s).rxb = s.rxb := rfl
@[simp] theorem completeEmpty_rxLen (st : Status) : (completeEmpty st s).rxLen = s.rxLen := rfl
@[simp] theorem completeEmpty_atrb (st : Status) : (completeEmpty st s).atrb = s.atrb := rfl
@[simp] theorem completeEmpty_atrLen (st : Status) : (completeEmpty st s).atrLen = s.atrLen := rfl
@[simp] theorem completeEmpty_status (st : Status) : (completeEmpty st s).status = st := rfl
@[simp] theorem completeEmpty_resLen (st : Status) : (completeEmpty st s).resLen = 0#16 := rfl
@[simp] theorem completeEmpty_result (st : Status) : (completeEmpty st s).result = ResultData.none := rfl
@[simp] theorem completeEmpty_held (st : Status) : (completeEmpty st s).held = s.held := rfl
@[simp] theorem completeEmpty_hostIn (st : Status) : (completeEmpty st s).hostIn = s.hostIn := rfl
@[simp] theorem completeEmpty_acquires (st : Status) : (completeEmpty st s).acquires = s.acquires := rfl
@[simp] theorem completeEmpty_writes (st : Status) : (completeEmpty st s).writes = s.writes := rfl
@[simp] theorem completeEmpty_reads (st : Status) : (completeEmpty st s).reads = s.reads := rfl
@[simp] theorem completeEmpty_events (st : Status) : (completeEmpty st s).events = s.events := rfl

/-! ### `ChanAcquire` (R67) -/

@[simp] theorem afterAcquire_lstate (cfg : List Byte) : (afterAcquire cfg s).lstate = s.lstate := rfl
@[simp] theorem afterAcquire_phase (cfg : List Byte) : (afterAcquire cfg s).phase = s.phase := rfl
@[simp] theorem afterAcquire_ssb (cfg : List Byte) : (afterAcquire cfg s).ssb = s.ssb := rfl
@[simp] theorem afterAcquire_rsb (cfg : List Byte) : (afterAcquire cfg s).rsb = s.rsb := rfl
@[simp] theorem afterAcquire_ifsc (cfg : List Byte) : (afterAcquire cfg s).ifsc = s.ifsc := rfl
@[simp] theorem afterAcquire_ifsd (cfg : List Byte) : (afterAcquire cfg s).ifsd = s.ifsd := rfl
@[simp] theorem afterAcquire_wtm (cfg : List Byte) : (afterAcquire cfg s).wtm = s.wtm := rfl
@[simp] theorem afterAcquire_nadTx (cfg : List Byte) : (afterAcquire cfg s).nadTx = s.nadTx := rfl
@[simp] theorem afterAcquire_nadRx (cfg : List Byte) : (afterAcquire cfg s).nadRx = s.nadRx := rfl
@[simp] theorem afterAcquire_edcMode (cfg : List Byte) : (afterAcquire cfg s).edcMode = s.edcMode := rfl
@[simp] theorem afterAcquire_lkgSsb (cfg : List Byte) : (afterAcquire cfg s).lkgSsb = s.lkgSsb := rfl
@[simp] theorem afterAcquire_lkgRsb (cfg : List Byte) : (afterAcquire cfg s).lkgRsb = s.lkgRsb := rfl
@[simp] theorem afterAcquire_lkgIfsc (cfg : List Byte) : (afterAcquire cfg s).lkgIfsc = s.lkgIfsc := rfl
@[simp] theorem afterAcquire_lkgIfsd (cfg : List Byte) : (afterAcquire cfg s).lkgIfsd = s.lkgIfsd := rfl
@[simp] theorem afterAcquire_fault (cfg : List Byte) : (afterAcquire cfg s).fault = s.fault := rfl
@[simp] theorem afterAcquire_retry (cfg : List Byte) : (afterAcquire cfg s).retry = s.retry := rfl
@[simp] theorem afterAcquire_reqLen (cfg : List Byte) : (afterAcquire cfg s).reqLen = s.reqLen := rfl
@[simp] theorem afterAcquire_rspLen (cfg : List Byte) : (afterAcquire cfg s).rspLen = s.rspLen := rfl
@[simp] theorem afterAcquire_rspCap (cfg : List Byte) : (afterAcquire cfg s).rspCap = s.rspCap := rfl
@[simp] theorem afterAcquire_txOff (cfg : List Byte) : (afterAcquire cfg s).txOff = s.txOff := rfl
@[simp] theorem afterAcquire_txLen (cfg : List Byte) : (afterAcquire cfg s).txLen = s.txLen := rfl
@[simp] theorem afterAcquire_txMore (cfg : List Byte) : (afterAcquire cfg s).txMore = s.txMore := rfl
@[simp] theorem afterAcquire_chunkMax (cfg : List Byte) : (afterAcquire cfg s).chunkMax = s.chunkMax := rfl
@[simp] theorem afterAcquire_req (cfg : List Byte) : (afterAcquire cfg s).req = s.req := rfl
@[simp] theorem afterAcquire_rsp (cfg : List Byte) : (afterAcquire cfg s).rsp = s.rsp := rfl
@[simp] theorem afterAcquire_txb (cfg : List Byte) : (afterAcquire cfg s).txb = s.txb := rfl
@[simp] theorem afterAcquire_rxb (cfg : List Byte) : (afterAcquire cfg s).rxb = s.rxb := rfl
@[simp] theorem afterAcquire_rxLen (cfg : List Byte) : (afterAcquire cfg s).rxLen = s.rxLen := rfl
@[simp] theorem afterAcquire_atrb (cfg : List Byte) : (afterAcquire cfg s).atrb = s.atrb := rfl
@[simp] theorem afterAcquire_atrLen (cfg : List Byte) : (afterAcquire cfg s).atrLen = s.atrLen := rfl
@[simp] theorem afterAcquire_status (cfg : List Byte) : (afterAcquire cfg s).status = s.status := rfl
@[simp] theorem afterAcquire_resLen (cfg : List Byte) : (afterAcquire cfg s).resLen = s.resLen := rfl
@[simp] theorem afterAcquire_result (cfg : List Byte) : (afterAcquire cfg s).result = s.result := rfl
@[simp] theorem afterAcquire_held (cfg : List Byte) : (afterAcquire cfg s).held = s.acquireAnswer := rfl
@[simp] theorem afterAcquire_hostIn (cfg : List Byte) : (afterAcquire cfg s).hostIn = s.hostIn := rfl
@[simp] theorem afterAcquire_acquires (cfg : List Byte) : (afterAcquire cfg s).acquires = s.acquires.tail := rfl
@[simp] theorem afterAcquire_writes (cfg : List Byte) : (afterAcquire cfg s).writes = s.writes := rfl
@[simp] theorem afterAcquire_reads (cfg : List Byte) : (afterAcquire cfg s).reads = s.reads := rfl
@[simp] theorem afterAcquire_events (cfg : List Byte) : (afterAcquire cfg s).events = .acquire cfg s.acquireAnswer :: s.events := rfl

/-! ### `ChanWrite` (R68) -/

@[simp] theorem afterWrite_lstate (raw : List Byte) : (afterWrite raw s).lstate = s.lstate := rfl
@[simp] theorem afterWrite_phase (raw : List Byte) : (afterWrite raw s).phase = s.phase := rfl
@[simp] theorem afterWrite_ssb (raw : List Byte) : (afterWrite raw s).ssb = s.ssb := rfl
@[simp] theorem afterWrite_rsb (raw : List Byte) : (afterWrite raw s).rsb = s.rsb := rfl
@[simp] theorem afterWrite_ifsc (raw : List Byte) : (afterWrite raw s).ifsc = s.ifsc := rfl
@[simp] theorem afterWrite_ifsd (raw : List Byte) : (afterWrite raw s).ifsd = s.ifsd := rfl
@[simp] theorem afterWrite_wtm (raw : List Byte) : (afterWrite raw s).wtm = s.wtm := rfl
@[simp] theorem afterWrite_nadTx (raw : List Byte) : (afterWrite raw s).nadTx = s.nadTx := rfl
@[simp] theorem afterWrite_nadRx (raw : List Byte) : (afterWrite raw s).nadRx = s.nadRx := rfl
@[simp] theorem afterWrite_edcMode (raw : List Byte) : (afterWrite raw s).edcMode = s.edcMode := rfl
@[simp] theorem afterWrite_lkgSsb (raw : List Byte) : (afterWrite raw s).lkgSsb = s.lkgSsb := rfl
@[simp] theorem afterWrite_lkgRsb (raw : List Byte) : (afterWrite raw s).lkgRsb = s.lkgRsb := rfl
@[simp] theorem afterWrite_lkgIfsc (raw : List Byte) : (afterWrite raw s).lkgIfsc = s.lkgIfsc := rfl
@[simp] theorem afterWrite_lkgIfsd (raw : List Byte) : (afterWrite raw s).lkgIfsd = s.lkgIfsd := rfl
@[simp] theorem afterWrite_fault (raw : List Byte) : (afterWrite raw s).fault = s.fault := rfl
@[simp] theorem afterWrite_retry (raw : List Byte) : (afterWrite raw s).retry = s.retry := rfl
@[simp] theorem afterWrite_reqLen (raw : List Byte) : (afterWrite raw s).reqLen = s.reqLen := rfl
@[simp] theorem afterWrite_rspLen (raw : List Byte) : (afterWrite raw s).rspLen = s.rspLen := rfl
@[simp] theorem afterWrite_rspCap (raw : List Byte) : (afterWrite raw s).rspCap = s.rspCap := rfl
@[simp] theorem afterWrite_txOff (raw : List Byte) : (afterWrite raw s).txOff = s.txOff := rfl
@[simp] theorem afterWrite_txLen (raw : List Byte) : (afterWrite raw s).txLen = s.txLen := rfl
@[simp] theorem afterWrite_txMore (raw : List Byte) : (afterWrite raw s).txMore = s.txMore := rfl
@[simp] theorem afterWrite_chunkMax (raw : List Byte) : (afterWrite raw s).chunkMax = s.chunkMax := rfl
@[simp] theorem afterWrite_req (raw : List Byte) : (afterWrite raw s).req = s.req := rfl
@[simp] theorem afterWrite_rsp (raw : List Byte) : (afterWrite raw s).rsp = s.rsp := rfl
@[simp] theorem afterWrite_txb (raw : List Byte) : (afterWrite raw s).txb = s.txb := rfl
@[simp] theorem afterWrite_rxb (raw : List Byte) : (afterWrite raw s).rxb = s.rxb := rfl
@[simp] theorem afterWrite_rxLen (raw : List Byte) : (afterWrite raw s).rxLen = s.rxLen := rfl
@[simp] theorem afterWrite_atrb (raw : List Byte) : (afterWrite raw s).atrb = s.atrb := rfl
@[simp] theorem afterWrite_atrLen (raw : List Byte) : (afterWrite raw s).atrLen = s.atrLen := rfl
@[simp] theorem afterWrite_status (raw : List Byte) : (afterWrite raw s).status = s.status := rfl
@[simp] theorem afterWrite_resLen (raw : List Byte) : (afterWrite raw s).resLen = s.resLen := rfl
@[simp] theorem afterWrite_result (raw : List Byte) : (afterWrite raw s).result = s.result := rfl
@[simp] theorem afterWrite_held (raw : List Byte) : (afterWrite raw s).held = s.held := rfl
@[simp] theorem afterWrite_hostIn (raw : List Byte) : (afterWrite raw s).hostIn = s.hostIn := rfl
@[simp] theorem afterWrite_acquires (raw : List Byte) : (afterWrite raw s).acquires = s.acquires := rfl
@[simp] theorem afterWrite_writes (raw : List Byte) : (afterWrite raw s).writes = s.writes.tail := rfl
@[simp] theorem afterWrite_reads (raw : List Byte) : (afterWrite raw s).reads = s.reads := rfl
@[simp] theorem afterWrite_events (raw : List Byte) : (afterWrite raw s).events = .write raw s.writeAnswer :: s.events := rfl

/-! ### `ChanRead` (R69) -/

@[simp] theorem afterRead_lstate (n timeout : Nat) (o : ReadOutcome) : (afterRead n timeout o s).lstate = s.lstate := rfl
@[simp] theorem afterRead_phase (n timeout : Nat) (o : ReadOutcome) : (afterRead n timeout o s).phase = s.phase := rfl
@[simp] theorem afterRead_ssb (n timeout : Nat) (o : ReadOutcome) : (afterRead n timeout o s).ssb = s.ssb := rfl
@[simp] theorem afterRead_rsb (n timeout : Nat) (o : ReadOutcome) : (afterRead n timeout o s).rsb = s.rsb := rfl
@[simp] theorem afterRead_ifsc (n timeout : Nat) (o : ReadOutcome) : (afterRead n timeout o s).ifsc = s.ifsc := rfl
@[simp] theorem afterRead_ifsd (n timeout : Nat) (o : ReadOutcome) : (afterRead n timeout o s).ifsd = s.ifsd := rfl
@[simp] theorem afterRead_wtm (n timeout : Nat) (o : ReadOutcome) : (afterRead n timeout o s).wtm = s.wtm := rfl
@[simp] theorem afterRead_nadTx (n timeout : Nat) (o : ReadOutcome) : (afterRead n timeout o s).nadTx = s.nadTx := rfl
@[simp] theorem afterRead_nadRx (n timeout : Nat) (o : ReadOutcome) : (afterRead n timeout o s).nadRx = s.nadRx := rfl
@[simp] theorem afterRead_edcMode (n timeout : Nat) (o : ReadOutcome) : (afterRead n timeout o s).edcMode = s.edcMode := rfl
@[simp] theorem afterRead_lkgSsb (n timeout : Nat) (o : ReadOutcome) : (afterRead n timeout o s).lkgSsb = s.lkgSsb := rfl
@[simp] theorem afterRead_lkgRsb (n timeout : Nat) (o : ReadOutcome) : (afterRead n timeout o s).lkgRsb = s.lkgRsb := rfl
@[simp] theorem afterRead_lkgIfsc (n timeout : Nat) (o : ReadOutcome) : (afterRead n timeout o s).lkgIfsc = s.lkgIfsc := rfl
@[simp] theorem afterRead_lkgIfsd (n timeout : Nat) (o : ReadOutcome) : (afterRead n timeout o s).lkgIfsd = s.lkgIfsd := rfl
@[simp] theorem afterRead_fault (n timeout : Nat) (o : ReadOutcome) : (afterRead n timeout o s).fault = s.fault := rfl
@[simp] theorem afterRead_retry (n timeout : Nat) (o : ReadOutcome) : (afterRead n timeout o s).retry = s.retry := rfl
@[simp] theorem afterRead_reqLen (n timeout : Nat) (o : ReadOutcome) : (afterRead n timeout o s).reqLen = s.reqLen := rfl
@[simp] theorem afterRead_rspLen (n timeout : Nat) (o : ReadOutcome) : (afterRead n timeout o s).rspLen = s.rspLen := rfl
@[simp] theorem afterRead_rspCap (n timeout : Nat) (o : ReadOutcome) : (afterRead n timeout o s).rspCap = s.rspCap := rfl
@[simp] theorem afterRead_txOff (n timeout : Nat) (o : ReadOutcome) : (afterRead n timeout o s).txOff = s.txOff := rfl
@[simp] theorem afterRead_txLen (n timeout : Nat) (o : ReadOutcome) : (afterRead n timeout o s).txLen = s.txLen := rfl
@[simp] theorem afterRead_txMore (n timeout : Nat) (o : ReadOutcome) : (afterRead n timeout o s).txMore = s.txMore := rfl
@[simp] theorem afterRead_chunkMax (n timeout : Nat) (o : ReadOutcome) : (afterRead n timeout o s).chunkMax = s.chunkMax := rfl
@[simp] theorem afterRead_req (n timeout : Nat) (o : ReadOutcome) : (afterRead n timeout o s).req = s.req := rfl
@[simp] theorem afterRead_rsp (n timeout : Nat) (o : ReadOutcome) : (afterRead n timeout o s).rsp = s.rsp := rfl
@[simp] theorem afterRead_txb (n timeout : Nat) (o : ReadOutcome) : (afterRead n timeout o s).txb = s.txb := rfl
@[simp] theorem afterRead_rxb (n timeout : Nat) (o : ReadOutcome) : (afterRead n timeout o s).rxb = s.rxb := rfl
@[simp] theorem afterRead_rxLen (n timeout : Nat) (o : ReadOutcome) : (afterRead n timeout o s).rxLen = s.rxLen := rfl
@[simp] theorem afterRead_atrb (n timeout : Nat) (o : ReadOutcome) : (afterRead n timeout o s).atrb = s.atrb := rfl
@[simp] theorem afterRead_atrLen (n timeout : Nat) (o : ReadOutcome) : (afterRead n timeout o s).atrLen = s.atrLen := rfl
@[simp] theorem afterRead_status (n timeout : Nat) (o : ReadOutcome) : (afterRead n timeout o s).status = s.status := rfl
@[simp] theorem afterRead_resLen (n timeout : Nat) (o : ReadOutcome) : (afterRead n timeout o s).resLen = s.resLen := rfl
@[simp] theorem afterRead_result (n timeout : Nat) (o : ReadOutcome) : (afterRead n timeout o s).result = s.result := rfl
@[simp] theorem afterRead_held (n timeout : Nat) (o : ReadOutcome) : (afterRead n timeout o s).held = s.held := rfl
@[simp] theorem afterRead_hostIn (n timeout : Nat) (o : ReadOutcome) : (afterRead n timeout o s).hostIn = s.hostIn := rfl
@[simp] theorem afterRead_acquires (n timeout : Nat) (o : ReadOutcome) : (afterRead n timeout o s).acquires = s.acquires := rfl
@[simp] theorem afterRead_writes (n timeout : Nat) (o : ReadOutcome) : (afterRead n timeout o s).writes = s.writes := rfl
@[simp] theorem afterRead_reads (n timeout : Nat) (o : ReadOutcome) : (afterRead n timeout o s).reads = s.reads.tail := rfl
@[simp] theorem afterRead_events (n timeout : Nat) (o : ReadOutcome) : (afterRead n timeout o s).events = .read n timeout o :: s.events := rfl

/-! ### Inside a `ChanRead` that has not returned (R328) -/

@[simp] theorem duringRead_lstate (n timeout : Nat) : (duringRead n timeout s).lstate = s.lstate := rfl
@[simp] theorem duringRead_phase (n timeout : Nat) : (duringRead n timeout s).phase = s.phase := rfl
@[simp] theorem duringRead_ssb (n timeout : Nat) : (duringRead n timeout s).ssb = s.ssb := rfl
@[simp] theorem duringRead_rsb (n timeout : Nat) : (duringRead n timeout s).rsb = s.rsb := rfl
@[simp] theorem duringRead_ifsc (n timeout : Nat) : (duringRead n timeout s).ifsc = s.ifsc := rfl
@[simp] theorem duringRead_ifsd (n timeout : Nat) : (duringRead n timeout s).ifsd = s.ifsd := rfl
@[simp] theorem duringRead_wtm (n timeout : Nat) : (duringRead n timeout s).wtm = s.wtm := rfl
@[simp] theorem duringRead_nadTx (n timeout : Nat) : (duringRead n timeout s).nadTx = s.nadTx := rfl
@[simp] theorem duringRead_nadRx (n timeout : Nat) : (duringRead n timeout s).nadRx = s.nadRx := rfl
@[simp] theorem duringRead_edcMode (n timeout : Nat) : (duringRead n timeout s).edcMode = s.edcMode := rfl
@[simp] theorem duringRead_lkgSsb (n timeout : Nat) : (duringRead n timeout s).lkgSsb = s.lkgSsb := rfl
@[simp] theorem duringRead_lkgRsb (n timeout : Nat) : (duringRead n timeout s).lkgRsb = s.lkgRsb := rfl
@[simp] theorem duringRead_lkgIfsc (n timeout : Nat) : (duringRead n timeout s).lkgIfsc = s.lkgIfsc := rfl
@[simp] theorem duringRead_lkgIfsd (n timeout : Nat) : (duringRead n timeout s).lkgIfsd = s.lkgIfsd := rfl
@[simp] theorem duringRead_fault (n timeout : Nat) : (duringRead n timeout s).fault = s.fault := rfl
@[simp] theorem duringRead_retry (n timeout : Nat) : (duringRead n timeout s).retry = s.retry := rfl
@[simp] theorem duringRead_reqLen (n timeout : Nat) : (duringRead n timeout s).reqLen = s.reqLen := rfl
@[simp] theorem duringRead_rspLen (n timeout : Nat) : (duringRead n timeout s).rspLen = s.rspLen := rfl
@[simp] theorem duringRead_rspCap (n timeout : Nat) : (duringRead n timeout s).rspCap = s.rspCap := rfl
@[simp] theorem duringRead_txOff (n timeout : Nat) : (duringRead n timeout s).txOff = s.txOff := rfl
@[simp] theorem duringRead_txLen (n timeout : Nat) : (duringRead n timeout s).txLen = s.txLen := rfl
@[simp] theorem duringRead_txMore (n timeout : Nat) : (duringRead n timeout s).txMore = s.txMore := rfl
@[simp] theorem duringRead_chunkMax (n timeout : Nat) : (duringRead n timeout s).chunkMax = s.chunkMax := rfl
@[simp] theorem duringRead_req (n timeout : Nat) : (duringRead n timeout s).req = s.req := rfl
@[simp] theorem duringRead_rsp (n timeout : Nat) : (duringRead n timeout s).rsp = s.rsp := rfl
@[simp] theorem duringRead_txb (n timeout : Nat) : (duringRead n timeout s).txb = s.txb := rfl
@[simp] theorem duringRead_rxb (n timeout : Nat) : (duringRead n timeout s).rxb = s.rxb := rfl
@[simp] theorem duringRead_rxLen (n timeout : Nat) : (duringRead n timeout s).rxLen = s.rxLen := rfl
@[simp] theorem duringRead_atrb (n timeout : Nat) : (duringRead n timeout s).atrb = s.atrb := rfl
@[simp] theorem duringRead_atrLen (n timeout : Nat) : (duringRead n timeout s).atrLen = s.atrLen := rfl
@[simp] theorem duringRead_status (n timeout : Nat) : (duringRead n timeout s).status = s.status := rfl
@[simp] theorem duringRead_resLen (n timeout : Nat) : (duringRead n timeout s).resLen = s.resLen := rfl
@[simp] theorem duringRead_result (n timeout : Nat) : (duringRead n timeout s).result = s.result := rfl
@[simp] theorem duringRead_held (n timeout : Nat) : (duringRead n timeout s).held = s.held := rfl
@[simp] theorem duringRead_hostIn (n timeout : Nat) : (duringRead n timeout s).hostIn = s.hostIn := rfl
@[simp] theorem duringRead_acquires (n timeout : Nat) : (duringRead n timeout s).acquires = s.acquires := rfl
@[simp] theorem duringRead_writes (n timeout : Nat) : (duringRead n timeout s).writes = s.writes := rfl
@[simp] theorem duringRead_reads (n timeout : Nat) : (duringRead n timeout s).reads = s.reads := rfl
@[simp] theorem duringRead_events (n timeout : Nat) : (duringRead n timeout s).events = .reading n timeout :: s.events := rfl

/-! ### `ChanAssertReset` (R70) -/

@[simp] theorem assertReset_lstate : (assertReset s).lstate = s.lstate := rfl
@[simp] theorem assertReset_phase : (assertReset s).phase = s.phase := rfl
@[simp] theorem assertReset_ssb : (assertReset s).ssb = s.ssb := rfl
@[simp] theorem assertReset_rsb : (assertReset s).rsb = s.rsb := rfl
@[simp] theorem assertReset_ifsc : (assertReset s).ifsc = s.ifsc := rfl
@[simp] theorem assertReset_ifsd : (assertReset s).ifsd = s.ifsd := rfl
@[simp] theorem assertReset_wtm : (assertReset s).wtm = s.wtm := rfl
@[simp] theorem assertReset_nadTx : (assertReset s).nadTx = s.nadTx := rfl
@[simp] theorem assertReset_nadRx : (assertReset s).nadRx = s.nadRx := rfl
@[simp] theorem assertReset_edcMode : (assertReset s).edcMode = s.edcMode := rfl
@[simp] theorem assertReset_lkgSsb : (assertReset s).lkgSsb = s.lkgSsb := rfl
@[simp] theorem assertReset_lkgRsb : (assertReset s).lkgRsb = s.lkgRsb := rfl
@[simp] theorem assertReset_lkgIfsc : (assertReset s).lkgIfsc = s.lkgIfsc := rfl
@[simp] theorem assertReset_lkgIfsd : (assertReset s).lkgIfsd = s.lkgIfsd := rfl
@[simp] theorem assertReset_fault : (assertReset s).fault = s.fault := rfl
@[simp] theorem assertReset_retry : (assertReset s).retry = s.retry := rfl
@[simp] theorem assertReset_reqLen : (assertReset s).reqLen = s.reqLen := rfl
@[simp] theorem assertReset_rspLen : (assertReset s).rspLen = s.rspLen := rfl
@[simp] theorem assertReset_rspCap : (assertReset s).rspCap = s.rspCap := rfl
@[simp] theorem assertReset_txOff : (assertReset s).txOff = s.txOff := rfl
@[simp] theorem assertReset_txLen : (assertReset s).txLen = s.txLen := rfl
@[simp] theorem assertReset_txMore : (assertReset s).txMore = s.txMore := rfl
@[simp] theorem assertReset_chunkMax : (assertReset s).chunkMax = s.chunkMax := rfl
@[simp] theorem assertReset_req : (assertReset s).req = s.req := rfl
@[simp] theorem assertReset_rsp : (assertReset s).rsp = s.rsp := rfl
@[simp] theorem assertReset_txb : (assertReset s).txb = s.txb := rfl
@[simp] theorem assertReset_rxb : (assertReset s).rxb = s.rxb := rfl
@[simp] theorem assertReset_rxLen : (assertReset s).rxLen = s.rxLen := rfl
@[simp] theorem assertReset_atrb : (assertReset s).atrb = s.atrb := rfl
@[simp] theorem assertReset_atrLen : (assertReset s).atrLen = s.atrLen := rfl
@[simp] theorem assertReset_status : (assertReset s).status = s.status := rfl
@[simp] theorem assertReset_resLen : (assertReset s).resLen = s.resLen := rfl
@[simp] theorem assertReset_result : (assertReset s).result = s.result := rfl
@[simp] theorem assertReset_held : (assertReset s).held = s.held := rfl
@[simp] theorem assertReset_hostIn : (assertReset s).hostIn = s.hostIn := rfl
@[simp] theorem assertReset_acquires : (assertReset s).acquires = s.acquires := rfl
@[simp] theorem assertReset_writes : (assertReset s).writes = s.writes := rfl
@[simp] theorem assertReset_reads : (assertReset s).reads = s.reads := rfl
@[simp] theorem assertReset_events : (assertReset s).events = .assertReset :: s.events := rfl

/-! ### Entry of a failure (R196) -/

@[simp] theorem enterFailed_lstate : (enterFailed s).lstate = .failed := rfl
@[simp] theorem enterFailed_phase : (enterFailed s).phase = s.phase := rfl
@[simp] theorem enterFailed_ssb : (enterFailed s).ssb = s.lkgSsb := rfl
@[simp] theorem enterFailed_rsb : (enterFailed s).rsb = s.lkgRsb := rfl
@[simp] theorem enterFailed_ifsc : (enterFailed s).ifsc = s.lkgIfsc := rfl
@[simp] theorem enterFailed_ifsd : (enterFailed s).ifsd = s.lkgIfsd := rfl
@[simp] theorem enterFailed_wtm : (enterFailed s).wtm = Config.wtmDefault := rfl
@[simp] theorem enterFailed_nadTx : (enterFailed s).nadTx = s.nadTx := rfl
@[simp] theorem enterFailed_nadRx : (enterFailed s).nadRx = s.nadRx := rfl
@[simp] theorem enterFailed_edcMode : (enterFailed s).edcMode = s.edcMode := rfl
@[simp] theorem enterFailed_lkgSsb : (enterFailed s).lkgSsb = s.lkgSsb := rfl
@[simp] theorem enterFailed_lkgRsb : (enterFailed s).lkgRsb = s.lkgRsb := rfl
@[simp] theorem enterFailed_lkgIfsc : (enterFailed s).lkgIfsc = s.lkgIfsc := rfl
@[simp] theorem enterFailed_lkgIfsd : (enterFailed s).lkgIfsd = s.lkgIfsd := rfl
@[simp] theorem enterFailed_fault : (enterFailed s).fault = s.fault := rfl
@[simp] theorem enterFailed_retry : (enterFailed s).retry = s.retry := rfl
@[simp] theorem enterFailed_reqLen : (enterFailed s).reqLen = s.reqLen := rfl
@[simp] theorem enterFailed_rspLen : (enterFailed s).rspLen = s.rspLen := rfl
@[simp] theorem enterFailed_rspCap : (enterFailed s).rspCap = s.rspCap := rfl
@[simp] theorem enterFailed_txOff : (enterFailed s).txOff = s.txOff := rfl
@[simp] theorem enterFailed_txLen : (enterFailed s).txLen = s.txLen := rfl
@[simp] theorem enterFailed_txMore : (enterFailed s).txMore = s.txMore := rfl
@[simp] theorem enterFailed_chunkMax : (enterFailed s).chunkMax = s.chunkMax := rfl
@[simp] theorem enterFailed_req : (enterFailed s).req = s.req := rfl
@[simp] theorem enterFailed_rsp : (enterFailed s).rsp = s.rsp := rfl
@[simp] theorem enterFailed_txb : (enterFailed s).txb = s.txb := rfl
@[simp] theorem enterFailed_rxb : (enterFailed s).rxb = s.rxb := rfl
@[simp] theorem enterFailed_rxLen : (enterFailed s).rxLen = s.rxLen := rfl
@[simp] theorem enterFailed_atrb : (enterFailed s).atrb = s.atrb := rfl
@[simp] theorem enterFailed_atrLen : (enterFailed s).atrLen = s.atrLen := rfl
@[simp] theorem enterFailed_status : (enterFailed s).status = s.status := rfl
@[simp] theorem enterFailed_resLen : (enterFailed s).resLen = s.resLen := rfl
@[simp] theorem enterFailed_result : (enterFailed s).result = s.result := rfl
@[simp] theorem enterFailed_held : (enterFailed s).held = s.held := rfl
@[simp] theorem enterFailed_hostIn : (enterFailed s).hostIn = s.hostIn := rfl
@[simp] theorem enterFailed_acquires : (enterFailed s).acquires = s.acquires := rfl
@[simp] theorem enterFailed_writes : (enterFailed s).writes = s.writes := rfl
@[simp] theorem enterFailed_reads : (enterFailed s).reads = s.reads := rfl
@[simp] theorem enterFailed_events : (enterFailed s).events = s.events := rfl

/-! ### Return from a failure (R284) -/

@[simp] theorem leaveFailed_lstate (e : Status) : (leaveFailed e s).lstate = .idle := rfl
@[simp] theorem leaveFailed_phase (e : Status) : (leaveFailed e s).phase = s.phase := rfl
@[simp] theorem leaveFailed_ssb (e : Status) : (leaveFailed e s).ssb = s.ssb := rfl
@[simp] theorem leaveFailed_rsb (e : Status) : (leaveFailed e s).rsb = s.rsb := rfl
@[simp] theorem leaveFailed_ifsc (e : Status) : (leaveFailed e s).ifsc = s.ifsc := rfl
@[simp] theorem leaveFailed_ifsd (e : Status) : (leaveFailed e s).ifsd = s.ifsd := rfl
@[simp] theorem leaveFailed_wtm (e : Status) : (leaveFailed e s).wtm = s.wtm := rfl
@[simp] theorem leaveFailed_nadTx (e : Status) : (leaveFailed e s).nadTx = s.nadTx := rfl
@[simp] theorem leaveFailed_nadRx (e : Status) : (leaveFailed e s).nadRx = s.nadRx := rfl
@[simp] theorem leaveFailed_edcMode (e : Status) : (leaveFailed e s).edcMode = s.edcMode := rfl
@[simp] theorem leaveFailed_lkgSsb (e : Status) : (leaveFailed e s).lkgSsb = s.lkgSsb := rfl
@[simp] theorem leaveFailed_lkgRsb (e : Status) : (leaveFailed e s).lkgRsb = s.lkgRsb := rfl
@[simp] theorem leaveFailed_lkgIfsc (e : Status) : (leaveFailed e s).lkgIfsc = s.lkgIfsc := rfl
@[simp] theorem leaveFailed_lkgIfsd (e : Status) : (leaveFailed e s).lkgIfsd = s.lkgIfsd := rfl
@[simp] theorem leaveFailed_fault (e : Status) : (leaveFailed e s).fault = s.fault := rfl
@[simp] theorem leaveFailed_retry (e : Status) : (leaveFailed e s).retry = s.retry := rfl
@[simp] theorem leaveFailed_reqLen (e : Status) : (leaveFailed e s).reqLen = s.reqLen := rfl
@[simp] theorem leaveFailed_rspLen (e : Status) : (leaveFailed e s).rspLen = s.rspLen := rfl
@[simp] theorem leaveFailed_rspCap (e : Status) : (leaveFailed e s).rspCap = s.rspCap := rfl
@[simp] theorem leaveFailed_txOff (e : Status) : (leaveFailed e s).txOff = s.txOff := rfl
@[simp] theorem leaveFailed_txLen (e : Status) : (leaveFailed e s).txLen = s.txLen := rfl
@[simp] theorem leaveFailed_txMore (e : Status) : (leaveFailed e s).txMore = s.txMore := rfl
@[simp] theorem leaveFailed_chunkMax (e : Status) : (leaveFailed e s).chunkMax = s.chunkMax := rfl
@[simp] theorem leaveFailed_req (e : Status) : (leaveFailed e s).req = s.req := rfl
@[simp] theorem leaveFailed_rsp (e : Status) : (leaveFailed e s).rsp = s.rsp := rfl
@[simp] theorem leaveFailed_txb (e : Status) : (leaveFailed e s).txb = s.txb := rfl
@[simp] theorem leaveFailed_rxb (e : Status) : (leaveFailed e s).rxb = s.rxb := rfl
@[simp] theorem leaveFailed_rxLen (e : Status) : (leaveFailed e s).rxLen = s.rxLen := rfl
@[simp] theorem leaveFailed_atrb (e : Status) : (leaveFailed e s).atrb = s.atrb := rfl
@[simp] theorem leaveFailed_atrLen (e : Status) : (leaveFailed e s).atrLen = s.atrLen := rfl
@[simp] theorem leaveFailed_status (e : Status) : (leaveFailed e s).status = e := rfl
@[simp] theorem leaveFailed_resLen (e : Status) : (leaveFailed e s).resLen = 0#16 := rfl
@[simp] theorem leaveFailed_result (e : Status) : (leaveFailed e s).result = ResultData.none := rfl
@[simp] theorem leaveFailed_held (e : Status) : (leaveFailed e s).held = s.held := rfl
@[simp] theorem leaveFailed_hostIn (e : Status) : (leaveFailed e s).hostIn = s.hostIn := rfl
@[simp] theorem leaveFailed_acquires (e : Status) : (leaveFailed e s).acquires = s.acquires := rfl
@[simp] theorem leaveFailed_writes (e : Status) : (leaveFailed e s).writes = s.writes := rfl
@[simp] theorem leaveFailed_reads (e : Status) : (leaveFailed e s).reads = s.reads := rfl
@[simp] theorem leaveFailed_events (e : Status) : (leaveFailed e s).events = s.events := rfl

/-! ### `Fail(E)` (R196) -/

@[simp] theorem fail_lstate (e : Status) : (fail e s).lstate = .idle := rfl
@[simp] theorem fail_phase (e : Status) : (fail e s).phase = s.phase := rfl
@[simp] theorem fail_ssb (e : Status) : (fail e s).ssb = s.lkgSsb := rfl
@[simp] theorem fail_rsb (e : Status) : (fail e s).rsb = s.lkgRsb := rfl
@[simp] theorem fail_ifsc (e : Status) : (fail e s).ifsc = s.lkgIfsc := rfl
@[simp] theorem fail_ifsd (e : Status) : (fail e s).ifsd = s.lkgIfsd := rfl
@[simp] theorem fail_wtm (e : Status) : (fail e s).wtm = Config.wtmDefault := rfl
@[simp] theorem fail_nadTx (e : Status) : (fail e s).nadTx = s.nadTx := rfl
@[simp] theorem fail_nadRx (e : Status) : (fail e s).nadRx = s.nadRx := rfl
@[simp] theorem fail_edcMode (e : Status) : (fail e s).edcMode = s.edcMode := rfl
@[simp] theorem fail_lkgSsb (e : Status) : (fail e s).lkgSsb = s.lkgSsb := rfl
@[simp] theorem fail_lkgRsb (e : Status) : (fail e s).lkgRsb = s.lkgRsb := rfl
@[simp] theorem fail_lkgIfsc (e : Status) : (fail e s).lkgIfsc = s.lkgIfsc := rfl
@[simp] theorem fail_lkgIfsd (e : Status) : (fail e s).lkgIfsd = s.lkgIfsd := rfl
@[simp] theorem fail_fault (e : Status) : (fail e s).fault = s.fault := rfl
@[simp] theorem fail_retry (e : Status) : (fail e s).retry = s.retry := rfl
@[simp] theorem fail_reqLen (e : Status) : (fail e s).reqLen = s.reqLen := rfl
@[simp] theorem fail_rspLen (e : Status) : (fail e s).rspLen = s.rspLen := rfl
@[simp] theorem fail_rspCap (e : Status) : (fail e s).rspCap = s.rspCap := rfl
@[simp] theorem fail_txOff (e : Status) : (fail e s).txOff = s.txOff := rfl
@[simp] theorem fail_txLen (e : Status) : (fail e s).txLen = s.txLen := rfl
@[simp] theorem fail_txMore (e : Status) : (fail e s).txMore = s.txMore := rfl
@[simp] theorem fail_chunkMax (e : Status) : (fail e s).chunkMax = s.chunkMax := rfl
@[simp] theorem fail_req (e : Status) : (fail e s).req = s.req := rfl
@[simp] theorem fail_rsp (e : Status) : (fail e s).rsp = s.rsp := rfl
@[simp] theorem fail_txb (e : Status) : (fail e s).txb = s.txb := rfl
@[simp] theorem fail_rxb (e : Status) : (fail e s).rxb = s.rxb := rfl
@[simp] theorem fail_rxLen (e : Status) : (fail e s).rxLen = s.rxLen := rfl
@[simp] theorem fail_atrb (e : Status) : (fail e s).atrb = s.atrb := rfl
@[simp] theorem fail_atrLen (e : Status) : (fail e s).atrLen = s.atrLen := rfl
@[simp] theorem fail_status (e : Status) : (fail e s).status = e := rfl
@[simp] theorem fail_resLen (e : Status) : (fail e s).resLen = 0#16 := rfl
@[simp] theorem fail_result (e : Status) : (fail e s).result = ResultData.none := rfl
@[simp] theorem fail_held (e : Status) : (fail e s).held = s.held := rfl
@[simp] theorem fail_hostIn (e : Status) : (fail e s).hostIn = s.hostIn := rfl
@[simp] theorem fail_acquires (e : Status) : (fail e s).acquires = s.acquires := rfl
@[simp] theorem fail_writes (e : Status) : (fail e s).writes = s.writes := rfl
@[simp] theorem fail_reads (e : Status) : (fail e s).reads = s.reads := rfl
@[simp] theorem fail_events (e : Status) : (fail e s).events = s.events := rfl

/-! ### A block handed to the channel (R158) -/

@[simp] theorem sent_lstate (raw : List Byte) : (sent raw s).lstate = s.lstate := rfl
@[simp] theorem sent_phase (raw : List Byte) : (sent raw s).phase = s.phase := rfl
@[simp] theorem sent_ssb (raw : List Byte) : (sent raw s).ssb = s.ssb := rfl
@[simp] theorem sent_rsb (raw : List Byte) : (sent raw s).rsb = s.rsb := rfl
@[simp] theorem sent_ifsc (raw : List Byte) : (sent raw s).ifsc = s.ifsc := rfl
@[simp] theorem sent_ifsd (raw : List Byte) : (sent raw s).ifsd = s.ifsd := rfl
@[simp] theorem sent_wtm (raw : List Byte) : (sent raw s).wtm = s.wtm := rfl
@[simp] theorem sent_nadTx (raw : List Byte) : (sent raw s).nadTx = s.nadTx := rfl
@[simp] theorem sent_nadRx (raw : List Byte) : (sent raw s).nadRx = s.nadRx := rfl
@[simp] theorem sent_edcMode (raw : List Byte) : (sent raw s).edcMode = s.edcMode := rfl
@[simp] theorem sent_lkgSsb (raw : List Byte) : (sent raw s).lkgSsb = s.lkgSsb := rfl
@[simp] theorem sent_lkgRsb (raw : List Byte) : (sent raw s).lkgRsb = s.lkgRsb := rfl
@[simp] theorem sent_lkgIfsc (raw : List Byte) : (sent raw s).lkgIfsc = s.lkgIfsc := rfl
@[simp] theorem sent_lkgIfsd (raw : List Byte) : (sent raw s).lkgIfsd = s.lkgIfsd := rfl
@[simp] theorem sent_fault (raw : List Byte) : (sent raw s).fault = s.fault := rfl
@[simp] theorem sent_retry (raw : List Byte) : (sent raw s).retry = s.retry := rfl
@[simp] theorem sent_reqLen (raw : List Byte) : (sent raw s).reqLen = s.reqLen := rfl
@[simp] theorem sent_rspLen (raw : List Byte) : (sent raw s).rspLen = s.rspLen := rfl
@[simp] theorem sent_rspCap (raw : List Byte) : (sent raw s).rspCap = s.rspCap := rfl
@[simp] theorem sent_txOff (raw : List Byte) : (sent raw s).txOff = s.txOff := rfl
@[simp] theorem sent_txLen (raw : List Byte) : (sent raw s).txLen = s.txLen := rfl
@[simp] theorem sent_txMore (raw : List Byte) : (sent raw s).txMore = s.txMore := rfl
@[simp] theorem sent_chunkMax (raw : List Byte) : (sent raw s).chunkMax = s.chunkMax := rfl
@[simp] theorem sent_req (raw : List Byte) : (sent raw s).req = s.req := rfl
@[simp] theorem sent_rsp (raw : List Byte) : (sent raw s).rsp = s.rsp := rfl
@[simp] theorem sent_txb (raw : List Byte) : (sent raw s).txb = s.txb.writeFrom 0 raw := rfl
@[simp] theorem sent_rxb (raw : List Byte) : (sent raw s).rxb = s.rxb := rfl
@[simp] theorem sent_rxLen (raw : List Byte) : (sent raw s).rxLen = s.rxLen := rfl
@[simp] theorem sent_atrb (raw : List Byte) : (sent raw s).atrb = s.atrb := rfl
@[simp] theorem sent_atrLen (raw : List Byte) : (sent raw s).atrLen = s.atrLen := rfl
@[simp] theorem sent_status (raw : List Byte) : (sent raw s).status = s.status := rfl
@[simp] theorem sent_resLen (raw : List Byte) : (sent raw s).resLen = s.resLen := rfl
@[simp] theorem sent_result (raw : List Byte) : (sent raw s).result = s.result := rfl
@[simp] theorem sent_held (raw : List Byte) : (sent raw s).held = s.held := rfl
@[simp] theorem sent_hostIn (raw : List Byte) : (sent raw s).hostIn = s.hostIn := rfl
@[simp] theorem sent_acquires (raw : List Byte) : (sent raw s).acquires = s.acquires := rfl
@[simp] theorem sent_writes (raw : List Byte) : (sent raw s).writes = s.writes.tail := rfl
@[simp] theorem sent_reads (raw : List Byte) : (sent raw s).reads = s.reads := rfl
@[simp] theorem sent_events (raw : List Byte) : (sent raw s).events = .write raw s.writeAnswer :: s.events := rfl

/-! ### `SetChunk()` (R211) -/

@[simp] theorem setChunk_lstate : (setChunk s).lstate = s.lstate := rfl
@[simp] theorem setChunk_phase : (setChunk s).phase = if s.remaining > s.chunkMax.toNat then Phase.sendChain else Phase.sendLast := rfl
@[simp] theorem setChunk_ssb : (setChunk s).ssb = s.ssb := rfl
@[simp] theorem setChunk_rsb : (setChunk s).rsb = s.rsb := rfl
@[simp] theorem setChunk_ifsc : (setChunk s).ifsc = s.ifsc := rfl
@[simp] theorem setChunk_ifsd : (setChunk s).ifsd = s.ifsd := rfl
@[simp] theorem setChunk_wtm : (setChunk s).wtm = s.wtm := rfl
@[simp] theorem setChunk_nadTx : (setChunk s).nadTx = s.nadTx := rfl
@[simp] theorem setChunk_nadRx : (setChunk s).nadRx = s.nadRx := rfl
@[simp] theorem setChunk_edcMode : (setChunk s).edcMode = s.edcMode := rfl
@[simp] theorem setChunk_lkgSsb : (setChunk s).lkgSsb = s.lkgSsb := rfl
@[simp] theorem setChunk_lkgRsb : (setChunk s).lkgRsb = s.lkgRsb := rfl
@[simp] theorem setChunk_lkgIfsc : (setChunk s).lkgIfsc = s.lkgIfsc := rfl
@[simp] theorem setChunk_lkgIfsd : (setChunk s).lkgIfsd = s.lkgIfsd := rfl
@[simp] theorem setChunk_fault : (setChunk s).fault = s.fault := rfl
@[simp] theorem setChunk_retry : (setChunk s).retry = s.retry := rfl
@[simp] theorem setChunk_reqLen : (setChunk s).reqLen = s.reqLen := rfl
@[simp] theorem setChunk_rspLen : (setChunk s).rspLen = s.rspLen := rfl
@[simp] theorem setChunk_rspCap : (setChunk s).rspCap = s.rspCap := rfl
@[simp] theorem setChunk_txOff : (setChunk s).txOff = s.txOff := rfl
@[simp] theorem setChunk_txLen : (setChunk s).txLen = BitVec.ofNat 8 (min s.chunkMax.toNat s.remaining) := rfl
@[simp] theorem setChunk_txMore : (setChunk s).txMore = decide (s.remaining > s.chunkMax.toNat) := rfl
@[simp] theorem setChunk_chunkMax : (setChunk s).chunkMax = s.chunkMax := rfl
@[simp] theorem setChunk_req : (setChunk s).req = s.req := rfl
@[simp] theorem setChunk_rsp : (setChunk s).rsp = s.rsp := rfl
@[simp] theorem setChunk_txb : (setChunk s).txb = s.txb := rfl
@[simp] theorem setChunk_rxb : (setChunk s).rxb = s.rxb := rfl
@[simp] theorem setChunk_rxLen : (setChunk s).rxLen = s.rxLen := rfl
@[simp] theorem setChunk_atrb : (setChunk s).atrb = s.atrb := rfl
@[simp] theorem setChunk_atrLen : (setChunk s).atrLen = s.atrLen := rfl
@[simp] theorem setChunk_status : (setChunk s).status = s.status := rfl
@[simp] theorem setChunk_resLen : (setChunk s).resLen = s.resLen := rfl
@[simp] theorem setChunk_result : (setChunk s).result = s.result := rfl
@[simp] theorem setChunk_held : (setChunk s).held = s.held := rfl
@[simp] theorem setChunk_hostIn : (setChunk s).hostIn = s.hostIn := rfl
@[simp] theorem setChunk_acquires : (setChunk s).acquires = s.acquires := rfl
@[simp] theorem setChunk_writes : (setChunk s).writes = s.writes := rfl
@[simp] theorem setChunk_reads : (setChunk s).reads = s.reads := rfl
@[simp] theorem setChunk_events : (setChunk s).events = s.events := rfl

/-! ### The accept of `TRANSCEIVE` (R249) -/

@[simp] theorem acceptRequest_lstate (apdu : List Byte) (cap : Half) : (acceptRequest apdu cap s).lstate = s.lstate := rfl
@[simp] theorem acceptRequest_phase (apdu : List Byte) (cap : Half) : (acceptRequest apdu cap s).phase = s.phase := rfl
@[simp] theorem acceptRequest_ssb (apdu : List Byte) (cap : Half) : (acceptRequest apdu cap s).ssb = s.ssb := rfl
@[simp] theorem acceptRequest_rsb (apdu : List Byte) (cap : Half) : (acceptRequest apdu cap s).rsb = s.rsb := rfl
@[simp] theorem acceptRequest_ifsc (apdu : List Byte) (cap : Half) : (acceptRequest apdu cap s).ifsc = s.ifsc := rfl
@[simp] theorem acceptRequest_ifsd (apdu : List Byte) (cap : Half) : (acceptRequest apdu cap s).ifsd = s.ifsd := rfl
@[simp] theorem acceptRequest_wtm (apdu : List Byte) (cap : Half) : (acceptRequest apdu cap s).wtm = s.wtm := rfl
@[simp] theorem acceptRequest_nadTx (apdu : List Byte) (cap : Half) : (acceptRequest apdu cap s).nadTx = s.nadTx := rfl
@[simp] theorem acceptRequest_nadRx (apdu : List Byte) (cap : Half) : (acceptRequest apdu cap s).nadRx = s.nadRx := rfl
@[simp] theorem acceptRequest_edcMode (apdu : List Byte) (cap : Half) : (acceptRequest apdu cap s).edcMode = s.edcMode := rfl
@[simp] theorem acceptRequest_lkgSsb (apdu : List Byte) (cap : Half) : (acceptRequest apdu cap s).lkgSsb = s.lkgSsb := rfl
@[simp] theorem acceptRequest_lkgRsb (apdu : List Byte) (cap : Half) : (acceptRequest apdu cap s).lkgRsb = s.lkgRsb := rfl
@[simp] theorem acceptRequest_lkgIfsc (apdu : List Byte) (cap : Half) : (acceptRequest apdu cap s).lkgIfsc = s.lkgIfsc := rfl
@[simp] theorem acceptRequest_lkgIfsd (apdu : List Byte) (cap : Half) : (acceptRequest apdu cap s).lkgIfsd = s.lkgIfsd := rfl
@[simp] theorem acceptRequest_fault (apdu : List Byte) (cap : Half) : (acceptRequest apdu cap s).fault = s.fault := rfl
@[simp] theorem acceptRequest_retry (apdu : List Byte) (cap : Half) : (acceptRequest apdu cap s).retry = s.retry := rfl
@[simp] theorem acceptRequest_reqLen (apdu : List Byte) (cap : Half) : (acceptRequest apdu cap s).reqLen = BitVec.ofNat 16 apdu.length := rfl
@[simp] theorem acceptRequest_rspLen (apdu : List Byte) (cap : Half) : (acceptRequest apdu cap s).rspLen = s.rspLen := rfl
@[simp] theorem acceptRequest_rspCap (apdu : List Byte) (cap : Half) : (acceptRequest apdu cap s).rspCap = cap := rfl
@[simp] theorem acceptRequest_txOff (apdu : List Byte) (cap : Half) : (acceptRequest apdu cap s).txOff = s.txOff := rfl
@[simp] theorem acceptRequest_txLen (apdu : List Byte) (cap : Half) : (acceptRequest apdu cap s).txLen = s.txLen := rfl
@[simp] theorem acceptRequest_txMore (apdu : List Byte) (cap : Half) : (acceptRequest apdu cap s).txMore = s.txMore := rfl
@[simp] theorem acceptRequest_chunkMax (apdu : List Byte) (cap : Half) : (acceptRequest apdu cap s).chunkMax = s.chunkMax := rfl
@[simp] theorem acceptRequest_req (apdu : List Byte) (cap : Half) : (acceptRequest apdu cap s).req = s.req.writeFrom 0 apdu := rfl
@[simp] theorem acceptRequest_rsp (apdu : List Byte) (cap : Half) : (acceptRequest apdu cap s).rsp = s.rsp := rfl
@[simp] theorem acceptRequest_txb (apdu : List Byte) (cap : Half) : (acceptRequest apdu cap s).txb = s.txb := rfl
@[simp] theorem acceptRequest_rxb (apdu : List Byte) (cap : Half) : (acceptRequest apdu cap s).rxb = s.rxb := rfl
@[simp] theorem acceptRequest_rxLen (apdu : List Byte) (cap : Half) : (acceptRequest apdu cap s).rxLen = s.rxLen := rfl
@[simp] theorem acceptRequest_atrb (apdu : List Byte) (cap : Half) : (acceptRequest apdu cap s).atrb = s.atrb := rfl
@[simp] theorem acceptRequest_atrLen (apdu : List Byte) (cap : Half) : (acceptRequest apdu cap s).atrLen = s.atrLen := rfl
@[simp] theorem acceptRequest_status (apdu : List Byte) (cap : Half) : (acceptRequest apdu cap s).status = s.status := rfl
@[simp] theorem acceptRequest_resLen (apdu : List Byte) (cap : Half) : (acceptRequest apdu cap s).resLen = s.resLen := rfl
@[simp] theorem acceptRequest_result (apdu : List Byte) (cap : Half) : (acceptRequest apdu cap s).result = s.result := rfl
@[simp] theorem acceptRequest_held (apdu : List Byte) (cap : Half) : (acceptRequest apdu cap s).held = s.held := rfl
@[simp] theorem acceptRequest_hostIn (apdu : List Byte) (cap : Half) : (acceptRequest apdu cap s).hostIn = s.hostIn := rfl
@[simp] theorem acceptRequest_acquires (apdu : List Byte) (cap : Half) : (acceptRequest apdu cap s).acquires = s.acquires := rfl
@[simp] theorem acceptRequest_writes (apdu : List Byte) (cap : Half) : (acceptRequest apdu cap s).writes = s.writes := rfl
@[simp] theorem acceptRequest_reads (apdu : List Byte) (cap : Half) : (acceptRequest apdu cap s).reads = s.reads := rfl
@[simp] theorem acceptRequest_events (apdu : List Byte) (cap : Half) : (acceptRequest apdu cap s).events = s.events := rfl

/-! ### `ExchangeStart` (R210); the chunk is cut by `SetChunk()` -/

@[simp] theorem exchangeStart_lstate : (exchangeStart s).lstate = .exchanging := rfl
@[simp] theorem exchangeStart_ssb : (exchangeStart s).ssb = s.ssb := rfl
@[simp] theorem exchangeStart_rsb : (exchangeStart s).rsb = s.rsb := rfl
@[simp] theorem exchangeStart_ifsc : (exchangeStart s).ifsc = s.ifsc := rfl
@[simp] theorem exchangeStart_ifsd : (exchangeStart s).ifsd = s.ifsd := rfl
@[simp] theorem exchangeStart_wtm : (exchangeStart s).wtm = Config.wtmDefault := rfl
@[simp] theorem exchangeStart_nadTx : (exchangeStart s).nadTx = s.nadTx := rfl
@[simp] theorem exchangeStart_nadRx : (exchangeStart s).nadRx = s.nadRx := rfl
@[simp] theorem exchangeStart_edcMode : (exchangeStart s).edcMode = s.edcMode := rfl
@[simp] theorem exchangeStart_lkgSsb : (exchangeStart s).lkgSsb = s.ssb := rfl
@[simp] theorem exchangeStart_lkgRsb : (exchangeStart s).lkgRsb = s.rsb := rfl
@[simp] theorem exchangeStart_lkgIfsc : (exchangeStart s).lkgIfsc = s.ifsc := rfl
@[simp] theorem exchangeStart_lkgIfsd : (exchangeStart s).lkgIfsd = s.ifsd := rfl
@[simp] theorem exchangeStart_fault : (exchangeStart s).fault = Status.ok := rfl
@[simp] theorem exchangeStart_retry : (exchangeStart s).retry = Config.retryMax := rfl
@[simp] theorem exchangeStart_reqLen : (exchangeStart s).reqLen = s.reqLen := rfl
@[simp] theorem exchangeStart_rspLen : (exchangeStart s).rspLen = 0#16 := rfl
@[simp] theorem exchangeStart_rspCap : (exchangeStart s).rspCap = s.rspCap := rfl
@[simp] theorem exchangeStart_txOff : (exchangeStart s).txOff = 0#16 := rfl
@[simp] theorem exchangeStart_chunkMax : (exchangeStart s).chunkMax = s.ifsc := rfl
@[simp] theorem exchangeStart_req : (exchangeStart s).req = s.req := rfl
@[simp] theorem exchangeStart_rsp : (exchangeStart s).rsp = s.rsp := rfl
@[simp] theorem exchangeStart_txb : (exchangeStart s).txb = s.txb := rfl
@[simp] theorem exchangeStart_rxb : (exchangeStart s).rxb = s.rxb := rfl
@[simp] theorem exchangeStart_rxLen : (exchangeStart s).rxLen = s.rxLen := rfl
@[simp] theorem exchangeStart_atrb : (exchangeStart s).atrb = s.atrb := rfl
@[simp] theorem exchangeStart_atrLen : (exchangeStart s).atrLen = s.atrLen := rfl
@[simp] theorem exchangeStart_status : (exchangeStart s).status = s.status := rfl
@[simp] theorem exchangeStart_resLen : (exchangeStart s).resLen = s.resLen := rfl
@[simp] theorem exchangeStart_result : (exchangeStart s).result = s.result := rfl
@[simp] theorem exchangeStart_held : (exchangeStart s).held = s.held := rfl
@[simp] theorem exchangeStart_hostIn : (exchangeStart s).hostIn = s.hostIn := rfl
@[simp] theorem exchangeStart_acquires : (exchangeStart s).acquires = s.acquires := rfl
@[simp] theorem exchangeStart_writes : (exchangeStart s).writes = s.writes := rfl
@[simp] theorem exchangeStart_reads : (exchangeStart s).reads = s.reads := rfl
@[simp] theorem exchangeStart_events : (exchangeStart s).events = s.events := rfl

/-! ### The next chunk (R214); cut by `SetChunk()` -/

@[simp] theorem advance_lstate : (advance s).lstate = s.lstate := rfl
@[simp] theorem advance_ssb : (advance s).ssb = s.ssb := rfl
@[simp] theorem advance_rsb : (advance s).rsb = s.rsb := rfl
@[simp] theorem advance_ifsc : (advance s).ifsc = s.ifsc := rfl
@[simp] theorem advance_ifsd : (advance s).ifsd = s.ifsd := rfl
@[simp] theorem advance_wtm : (advance s).wtm = s.wtm := rfl
@[simp] theorem advance_nadTx : (advance s).nadTx = s.nadTx := rfl
@[simp] theorem advance_nadRx : (advance s).nadRx = s.nadRx := rfl
@[simp] theorem advance_edcMode : (advance s).edcMode = s.edcMode := rfl
@[simp] theorem advance_lkgSsb : (advance s).lkgSsb = s.lkgSsb := rfl
@[simp] theorem advance_lkgRsb : (advance s).lkgRsb = s.lkgRsb := rfl
@[simp] theorem advance_lkgIfsc : (advance s).lkgIfsc = s.lkgIfsc := rfl
@[simp] theorem advance_lkgIfsd : (advance s).lkgIfsd = s.lkgIfsd := rfl
@[simp] theorem advance_fault : (advance s).fault = s.fault := rfl
@[simp] theorem advance_retry : (advance s).retry = s.retry := rfl
@[simp] theorem advance_reqLen : (advance s).reqLen = s.reqLen := rfl
@[simp] theorem advance_rspLen : (advance s).rspLen = s.rspLen := rfl
@[simp] theorem advance_rspCap : (advance s).rspCap = s.rspCap := rfl
@[simp] theorem advance_txOff : (advance s).txOff = s.txOff + s.txLen.zeroExtend 16 := rfl
@[simp] theorem advance_chunkMax : (advance s).chunkMax = s.chunkMax := rfl
@[simp] theorem advance_req : (advance s).req = s.req := rfl
@[simp] theorem advance_rsp : (advance s).rsp = s.rsp := rfl
@[simp] theorem advance_txb : (advance s).txb = s.txb := rfl
@[simp] theorem advance_rxb : (advance s).rxb = s.rxb := rfl
@[simp] theorem advance_rxLen : (advance s).rxLen = s.rxLen := rfl
@[simp] theorem advance_atrb : (advance s).atrb = s.atrb := rfl
@[simp] theorem advance_atrLen : (advance s).atrLen = s.atrLen := rfl
@[simp] theorem advance_status : (advance s).status = s.status := rfl
@[simp] theorem advance_resLen : (advance s).resLen = s.resLen := rfl
@[simp] theorem advance_result : (advance s).result = s.result := rfl
@[simp] theorem advance_held : (advance s).held = s.held := rfl
@[simp] theorem advance_hostIn : (advance s).hostIn = s.hostIn := rfl
@[simp] theorem advance_acquires : (advance s).acquires = s.acquires := rfl
@[simp] theorem advance_writes : (advance s).writes = s.writes := rfl
@[simp] theorem advance_reads : (advance s).reads = s.reads := rfl
@[simp] theorem advance_events : (advance s).events = s.events := rfl

/-! ### An accepted inbound payload (R164) -/

@[simp] theorem acceptPayload_lstate (inf : List Byte) : (acceptPayload inf s).lstate = s.lstate := rfl
@[simp] theorem acceptPayload_phase (inf : List Byte) : (acceptPayload inf s).phase = s.phase := rfl
@[simp] theorem acceptPayload_ssb (inf : List Byte) : (acceptPayload inf s).ssb = s.ssbAfterAccept := rfl
@[simp] theorem acceptPayload_rsb (inf : List Byte) : (acceptPayload inf s).rsb = !s.rsb := rfl
@[simp] theorem acceptPayload_ifsc (inf : List Byte) : (acceptPayload inf s).ifsc = s.ifsc := rfl
@[simp] theorem acceptPayload_ifsd (inf : List Byte) : (acceptPayload inf s).ifsd = s.ifsd := rfl
@[simp] theorem acceptPayload_wtm (inf : List Byte) : (acceptPayload inf s).wtm = s.wtm := rfl
@[simp] theorem acceptPayload_nadTx (inf : List Byte) : (acceptPayload inf s).nadTx = s.nadTx := rfl
@[simp] theorem acceptPayload_nadRx (inf : List Byte) : (acceptPayload inf s).nadRx = s.nadRx := rfl
@[simp] theorem acceptPayload_edcMode (inf : List Byte) : (acceptPayload inf s).edcMode = s.edcMode := rfl
@[simp] theorem acceptPayload_lkgSsb (inf : List Byte) : (acceptPayload inf s).lkgSsb = s.lkgSsb := rfl
@[simp] theorem acceptPayload_lkgRsb (inf : List Byte) : (acceptPayload inf s).lkgRsb = s.lkgRsb := rfl
@[simp] theorem acceptPayload_lkgIfsc (inf : List Byte) : (acceptPayload inf s).lkgIfsc = s.lkgIfsc := rfl
@[simp] theorem acceptPayload_lkgIfsd (inf : List Byte) : (acceptPayload inf s).lkgIfsd = s.lkgIfsd := rfl
@[simp] theorem acceptPayload_fault (inf : List Byte) : (acceptPayload inf s).fault = s.fault := rfl
@[simp] theorem acceptPayload_retry (inf : List Byte) : (acceptPayload inf s).retry = s.retry := rfl
@[simp] theorem acceptPayload_reqLen (inf : List Byte) : (acceptPayload inf s).reqLen = s.reqLen := rfl
@[simp] theorem acceptPayload_rspLen (inf : List Byte) : (acceptPayload inf s).rspLen = s.rspLen + BitVec.ofNat 16 inf.length := rfl
@[simp] theorem acceptPayload_rspCap (inf : List Byte) : (acceptPayload inf s).rspCap = s.rspCap := rfl
@[simp] theorem acceptPayload_txOff (inf : List Byte) : (acceptPayload inf s).txOff = s.txOff := rfl
@[simp] theorem acceptPayload_txLen (inf : List Byte) : (acceptPayload inf s).txLen = s.txLen := rfl
@[simp] theorem acceptPayload_txMore (inf : List Byte) : (acceptPayload inf s).txMore = s.txMore := rfl
@[simp] theorem acceptPayload_chunkMax (inf : List Byte) : (acceptPayload inf s).chunkMax = s.chunkMax := rfl
@[simp] theorem acceptPayload_req (inf : List Byte) : (acceptPayload inf s).req = s.req := rfl
@[simp] theorem acceptPayload_rsp (inf : List Byte) : (acceptPayload inf s).rsp = s.rsp.writeFrom s.rspLen.toNat inf := rfl
@[simp] theorem acceptPayload_txb (inf : List Byte) : (acceptPayload inf s).txb = s.txb := rfl
@[simp] theorem acceptPayload_rxb (inf : List Byte) : (acceptPayload inf s).rxb = s.rxb := rfl
@[simp] theorem acceptPayload_rxLen (inf : List Byte) : (acceptPayload inf s).rxLen = s.rxLen := rfl
@[simp] theorem acceptPayload_atrb (inf : List Byte) : (acceptPayload inf s).atrb = s.atrb := rfl
@[simp] theorem acceptPayload_atrLen (inf : List Byte) : (acceptPayload inf s).atrLen = s.atrLen := rfl
@[simp] theorem acceptPayload_status (inf : List Byte) : (acceptPayload inf s).status = s.status := rfl
@[simp] theorem acceptPayload_resLen (inf : List Byte) : (acceptPayload inf s).resLen = s.resLen := rfl
@[simp] theorem acceptPayload_result (inf : List Byte) : (acceptPayload inf s).result = s.result := rfl
@[simp] theorem acceptPayload_held (inf : List Byte) : (acceptPayload inf s).held = s.held := rfl
@[simp] theorem acceptPayload_hostIn (inf : List Byte) : (acceptPayload inf s).hostIn = s.hostIn := rfl
@[simp] theorem acceptPayload_acquires (inf : List Byte) : (acceptPayload inf s).acquires = s.acquires := rfl
@[simp] theorem acceptPayload_writes (inf : List Byte) : (acceptPayload inf s).writes = s.writes := rfl
@[simp] theorem acceptPayload_reads (inf : List Byte) : (acceptPayload inf s).reads = s.reads := rfl
@[simp] theorem acceptPayload_events (inf : List Byte) : (acceptPayload inf s).events = s.events := rfl

/-! ### A reply stored (R69) -/

@[simp] theorem storeReply_lstate (raw : List Byte) : (storeReply raw s).lstate = s.lstate := rfl
@[simp] theorem storeReply_phase (raw : List Byte) : (storeReply raw s).phase = s.phase := rfl
@[simp] theorem storeReply_ssb (raw : List Byte) : (storeReply raw s).ssb = s.ssb := rfl
@[simp] theorem storeReply_rsb (raw : List Byte) : (storeReply raw s).rsb = s.rsb := rfl
@[simp] theorem storeReply_ifsc (raw : List Byte) : (storeReply raw s).ifsc = s.ifsc := rfl
@[simp] theorem storeReply_ifsd (raw : List Byte) : (storeReply raw s).ifsd = s.ifsd := rfl
@[simp] theorem storeReply_wtm (raw : List Byte) : (storeReply raw s).wtm = s.wtm := rfl
@[simp] theorem storeReply_nadTx (raw : List Byte) : (storeReply raw s).nadTx = s.nadTx := rfl
@[simp] theorem storeReply_nadRx (raw : List Byte) : (storeReply raw s).nadRx = s.nadRx := rfl
@[simp] theorem storeReply_edcMode (raw : List Byte) : (storeReply raw s).edcMode = s.edcMode := rfl
@[simp] theorem storeReply_lkgSsb (raw : List Byte) : (storeReply raw s).lkgSsb = s.lkgSsb := rfl
@[simp] theorem storeReply_lkgRsb (raw : List Byte) : (storeReply raw s).lkgRsb = s.lkgRsb := rfl
@[simp] theorem storeReply_lkgIfsc (raw : List Byte) : (storeReply raw s).lkgIfsc = s.lkgIfsc := rfl
@[simp] theorem storeReply_lkgIfsd (raw : List Byte) : (storeReply raw s).lkgIfsd = s.lkgIfsd := rfl
@[simp] theorem storeReply_fault (raw : List Byte) : (storeReply raw s).fault = s.fault := rfl
@[simp] theorem storeReply_retry (raw : List Byte) : (storeReply raw s).retry = s.retry := rfl
@[simp] theorem storeReply_reqLen (raw : List Byte) : (storeReply raw s).reqLen = s.reqLen := rfl
@[simp] theorem storeReply_rspLen (raw : List Byte) : (storeReply raw s).rspLen = s.rspLen := rfl
@[simp] theorem storeReply_rspCap (raw : List Byte) : (storeReply raw s).rspCap = s.rspCap := rfl
@[simp] theorem storeReply_txOff (raw : List Byte) : (storeReply raw s).txOff = s.txOff := rfl
@[simp] theorem storeReply_txLen (raw : List Byte) : (storeReply raw s).txLen = s.txLen := rfl
@[simp] theorem storeReply_txMore (raw : List Byte) : (storeReply raw s).txMore = s.txMore := rfl
@[simp] theorem storeReply_chunkMax (raw : List Byte) : (storeReply raw s).chunkMax = s.chunkMax := rfl
@[simp] theorem storeReply_req (raw : List Byte) : (storeReply raw s).req = s.req := rfl
@[simp] theorem storeReply_rsp (raw : List Byte) : (storeReply raw s).rsp = s.rsp := rfl
@[simp] theorem storeReply_txb (raw : List Byte) : (storeReply raw s).txb = s.txb := rfl
@[simp] theorem storeReply_rxb (raw : List Byte) : (storeReply raw s).rxb = s.rxb.writeFrom 0 raw := rfl
@[simp] theorem storeReply_rxLen (raw : List Byte) : (storeReply raw s).rxLen = BitVec.ofNat 16 raw.length := rfl
@[simp] theorem storeReply_atrb (raw : List Byte) : (storeReply raw s).atrb = s.atrb := rfl
@[simp] theorem storeReply_atrLen (raw : List Byte) : (storeReply raw s).atrLen = s.atrLen := rfl
@[simp] theorem storeReply_status (raw : List Byte) : (storeReply raw s).status = s.status := rfl
@[simp] theorem storeReply_resLen (raw : List Byte) : (storeReply raw s).resLen = s.resLen := rfl
@[simp] theorem storeReply_result (raw : List Byte) : (storeReply raw s).result = s.result := rfl
@[simp] theorem storeReply_held (raw : List Byte) : (storeReply raw s).held = s.held := rfl
@[simp] theorem storeReply_hostIn (raw : List Byte) : (storeReply raw s).hostIn = s.hostIn := rfl
@[simp] theorem storeReply_acquires (raw : List Byte) : (storeReply raw s).acquires = s.acquires := rfl
@[simp] theorem storeReply_writes (raw : List Byte) : (storeReply raw s).writes = s.writes := rfl
@[simp] theorem storeReply_reads (raw : List Byte) : (storeReply raw s).reads = s.reads := rfl
@[simp] theorem storeReply_events (raw : List Byte) : (storeReply raw s).events = s.events := rfl

/-! ### The end of a wait (R161) -/

@[simp] theorem endWait_lstate : (endWait s).lstate = s.lstate := rfl
@[simp] theorem endWait_phase : (endWait s).phase = s.phase := rfl
@[simp] theorem endWait_ssb : (endWait s).ssb = s.ssb := rfl
@[simp] theorem endWait_rsb : (endWait s).rsb = s.rsb := rfl
@[simp] theorem endWait_ifsc : (endWait s).ifsc = s.ifsc := rfl
@[simp] theorem endWait_ifsd : (endWait s).ifsd = s.ifsd := rfl
@[simp] theorem endWait_wtm : (endWait s).wtm = if s.lstate = .resynchronizing then s.wtm else Config.wtmDefault := rfl
@[simp] theorem endWait_nadTx : (endWait s).nadTx = s.nadTx := rfl
@[simp] theorem endWait_nadRx : (endWait s).nadRx = s.nadRx := rfl
@[simp] theorem endWait_edcMode : (endWait s).edcMode = s.edcMode := rfl
@[simp] theorem endWait_lkgSsb : (endWait s).lkgSsb = s.lkgSsb := rfl
@[simp] theorem endWait_lkgRsb : (endWait s).lkgRsb = s.lkgRsb := rfl
@[simp] theorem endWait_lkgIfsc : (endWait s).lkgIfsc = s.lkgIfsc := rfl
@[simp] theorem endWait_lkgIfsd : (endWait s).lkgIfsd = s.lkgIfsd := rfl
@[simp] theorem endWait_fault : (endWait s).fault = s.fault := rfl
@[simp] theorem endWait_retry : (endWait s).retry = s.retry := rfl
@[simp] theorem endWait_reqLen : (endWait s).reqLen = s.reqLen := rfl
@[simp] theorem endWait_rspLen : (endWait s).rspLen = s.rspLen := rfl
@[simp] theorem endWait_rspCap : (endWait s).rspCap = s.rspCap := rfl
@[simp] theorem endWait_txOff : (endWait s).txOff = s.txOff := rfl
@[simp] theorem endWait_txLen : (endWait s).txLen = s.txLen := rfl
@[simp] theorem endWait_txMore : (endWait s).txMore = s.txMore := rfl
@[simp] theorem endWait_chunkMax : (endWait s).chunkMax = s.chunkMax := rfl
@[simp] theorem endWait_req : (endWait s).req = s.req := rfl
@[simp] theorem endWait_rsp : (endWait s).rsp = s.rsp := rfl
@[simp] theorem endWait_txb : (endWait s).txb = s.txb := rfl
@[simp] theorem endWait_rxb : (endWait s).rxb = s.rxb := rfl
@[simp] theorem endWait_rxLen : (endWait s).rxLen = s.rxLen := rfl
@[simp] theorem endWait_atrb : (endWait s).atrb = s.atrb := rfl
@[simp] theorem endWait_atrLen : (endWait s).atrLen = s.atrLen := rfl
@[simp] theorem endWait_status : (endWait s).status = s.status := rfl
@[simp] theorem endWait_resLen : (endWait s).resLen = s.resLen := rfl
@[simp] theorem endWait_result : (endWait s).result = s.result := rfl
@[simp] theorem endWait_held : (endWait s).held = s.held := rfl
@[simp] theorem endWait_hostIn : (endWait s).hostIn = s.hostIn := rfl
@[simp] theorem endWait_acquires : (endWait s).acquires = s.acquires := rfl
@[simp] theorem endWait_writes : (endWait s).writes = s.writes := rfl
@[simp] theorem endWait_reads : (endWait s).reads = s.reads := rfl
@[simp] theorem endWait_events : (endWait s).events = s.events := rfl

/-! ### The session defaults (R244, R246) -/

@[simp] theorem sessionDefaults_lstate : (sessionDefaults s).lstate = s.lstate := rfl
@[simp] theorem sessionDefaults_phase : (sessionDefaults s).phase = s.phase := rfl
@[simp] theorem sessionDefaults_ssb : (sessionDefaults s).ssb = false := rfl
@[simp] theorem sessionDefaults_rsb : (sessionDefaults s).rsb = false := rfl
@[simp] theorem sessionDefaults_ifsc : (sessionDefaults s).ifsc = Config.ifscDefault := rfl
@[simp] theorem sessionDefaults_ifsd : (sessionDefaults s).ifsd = Config.ifsdDefault := rfl
@[simp] theorem sessionDefaults_wtm : (sessionDefaults s).wtm = Config.wtmDefault := rfl
@[simp] theorem sessionDefaults_nadTx : (sessionDefaults s).nadTx = s.nadTx := rfl
@[simp] theorem sessionDefaults_nadRx : (sessionDefaults s).nadRx = s.nadRx := rfl
@[simp] theorem sessionDefaults_edcMode : (sessionDefaults s).edcMode = s.edcMode := rfl
@[simp] theorem sessionDefaults_lkgSsb : (sessionDefaults s).lkgSsb = s.lkgSsb := rfl
@[simp] theorem sessionDefaults_lkgRsb : (sessionDefaults s).lkgRsb = s.lkgRsb := rfl
@[simp] theorem sessionDefaults_lkgIfsc : (sessionDefaults s).lkgIfsc = s.lkgIfsc := rfl
@[simp] theorem sessionDefaults_lkgIfsd : (sessionDefaults s).lkgIfsd = s.lkgIfsd := rfl
@[simp] theorem sessionDefaults_fault : (sessionDefaults s).fault = s.fault := rfl
@[simp] theorem sessionDefaults_retry : (sessionDefaults s).retry = s.retry := rfl
@[simp] theorem sessionDefaults_reqLen : (sessionDefaults s).reqLen = s.reqLen := rfl
@[simp] theorem sessionDefaults_rspLen : (sessionDefaults s).rspLen = s.rspLen := rfl
@[simp] theorem sessionDefaults_rspCap : (sessionDefaults s).rspCap = s.rspCap := rfl
@[simp] theorem sessionDefaults_txOff : (sessionDefaults s).txOff = s.txOff := rfl
@[simp] theorem sessionDefaults_txLen : (sessionDefaults s).txLen = s.txLen := rfl
@[simp] theorem sessionDefaults_txMore : (sessionDefaults s).txMore = s.txMore := rfl
@[simp] theorem sessionDefaults_chunkMax : (sessionDefaults s).chunkMax = s.chunkMax := rfl
@[simp] theorem sessionDefaults_req : (sessionDefaults s).req = s.req := rfl
@[simp] theorem sessionDefaults_rsp : (sessionDefaults s).rsp = s.rsp := rfl
@[simp] theorem sessionDefaults_txb : (sessionDefaults s).txb = s.txb := rfl
@[simp] theorem sessionDefaults_rxb : (sessionDefaults s).rxb = s.rxb := rfl
@[simp] theorem sessionDefaults_rxLen : (sessionDefaults s).rxLen = s.rxLen := rfl
@[simp] theorem sessionDefaults_atrb : (sessionDefaults s).atrb = s.atrb := rfl
@[simp] theorem sessionDefaults_atrLen : (sessionDefaults s).atrLen = s.atrLen := rfl
@[simp] theorem sessionDefaults_status : (sessionDefaults s).status = s.status := rfl
@[simp] theorem sessionDefaults_resLen : (sessionDefaults s).resLen = s.resLen := rfl
@[simp] theorem sessionDefaults_result : (sessionDefaults s).result = s.result := rfl
@[simp] theorem sessionDefaults_held : (sessionDefaults s).held = s.held := rfl
@[simp] theorem sessionDefaults_hostIn : (sessionDefaults s).hostIn = s.hostIn := rfl
@[simp] theorem sessionDefaults_acquires : (sessionDefaults s).acquires = s.acquires := rfl
@[simp] theorem sessionDefaults_writes : (sessionDefaults s).writes = s.writes := rfl
@[simp] theorem sessionDefaults_reads : (sessionDefaults s).reads = s.reads := rfl
@[simp] theorem sessionDefaults_events : (sessionDefaults s).events = s.events := rfl

/-! ### A bound session (R244) -/

@[simp] theorem bindSession_lstate (host chip : Byte) (mode : EdcMode) : (bindSession host chip mode s).lstate = .idle := rfl
@[simp] theorem bindSession_phase (host chip : Byte) (mode : EdcMode) : (bindSession host chip mode s).phase = s.phase := rfl
@[simp] theorem bindSession_ssb (host chip : Byte) (mode : EdcMode) : (bindSession host chip mode s).ssb = false := rfl
@[simp] theorem bindSession_rsb (host chip : Byte) (mode : EdcMode) : (bindSession host chip mode s).rsb = false := rfl
@[simp] theorem bindSession_ifsc (host chip : Byte) (mode : EdcMode) : (bindSession host chip mode s).ifsc = Config.ifscDefault := rfl
@[simp] theorem bindSession_ifsd (host chip : Byte) (mode : EdcMode) : (bindSession host chip mode s).ifsd = Config.ifsdDefault := rfl
@[simp] theorem bindSession_wtm (host chip : Byte) (mode : EdcMode) : (bindSession host chip mode s).wtm = Config.wtmDefault := rfl
@[simp] theorem bindSession_nadTx (host chip : Byte) (mode : EdcMode) : (bindSession host chip mode s).nadTx = nadByte chip host := rfl
@[simp] theorem bindSession_nadRx (host chip : Byte) (mode : EdcMode) : (bindSession host chip mode s).nadRx = nadByte host chip := rfl
@[simp] theorem bindSession_edcMode (host chip : Byte) (mode : EdcMode) : (bindSession host chip mode s).edcMode = mode := rfl
@[simp] theorem bindSession_lkgSsb (host chip : Byte) (mode : EdcMode) : (bindSession host chip mode s).lkgSsb = s.lkgSsb := rfl
@[simp] theorem bindSession_lkgRsb (host chip : Byte) (mode : EdcMode) : (bindSession host chip mode s).lkgRsb = s.lkgRsb := rfl
@[simp] theorem bindSession_lkgIfsc (host chip : Byte) (mode : EdcMode) : (bindSession host chip mode s).lkgIfsc = s.lkgIfsc := rfl
@[simp] theorem bindSession_lkgIfsd (host chip : Byte) (mode : EdcMode) : (bindSession host chip mode s).lkgIfsd = s.lkgIfsd := rfl
@[simp] theorem bindSession_fault (host chip : Byte) (mode : EdcMode) : (bindSession host chip mode s).fault = s.fault := rfl
@[simp] theorem bindSession_retry (host chip : Byte) (mode : EdcMode) : (bindSession host chip mode s).retry = s.retry := rfl
@[simp] theorem bindSession_reqLen (host chip : Byte) (mode : EdcMode) : (bindSession host chip mode s).reqLen = s.reqLen := rfl
@[simp] theorem bindSession_rspLen (host chip : Byte) (mode : EdcMode) : (bindSession host chip mode s).rspLen = s.rspLen := rfl
@[simp] theorem bindSession_rspCap (host chip : Byte) (mode : EdcMode) : (bindSession host chip mode s).rspCap = s.rspCap := rfl
@[simp] theorem bindSession_txOff (host chip : Byte) (mode : EdcMode) : (bindSession host chip mode s).txOff = s.txOff := rfl
@[simp] theorem bindSession_txLen (host chip : Byte) (mode : EdcMode) : (bindSession host chip mode s).txLen = s.txLen := rfl
@[simp] theorem bindSession_txMore (host chip : Byte) (mode : EdcMode) : (bindSession host chip mode s).txMore = s.txMore := rfl
@[simp] theorem bindSession_chunkMax (host chip : Byte) (mode : EdcMode) : (bindSession host chip mode s).chunkMax = s.chunkMax := rfl
@[simp] theorem bindSession_req (host chip : Byte) (mode : EdcMode) : (bindSession host chip mode s).req = s.req := rfl
@[simp] theorem bindSession_rsp (host chip : Byte) (mode : EdcMode) : (bindSession host chip mode s).rsp = s.rsp := rfl
@[simp] theorem bindSession_txb (host chip : Byte) (mode : EdcMode) : (bindSession host chip mode s).txb = s.txb := rfl
@[simp] theorem bindSession_rxb (host chip : Byte) (mode : EdcMode) : (bindSession host chip mode s).rxb = s.rxb := rfl
@[simp] theorem bindSession_rxLen (host chip : Byte) (mode : EdcMode) : (bindSession host chip mode s).rxLen = s.rxLen := rfl
@[simp] theorem bindSession_atrb (host chip : Byte) (mode : EdcMode) : (bindSession host chip mode s).atrb = s.atrb := rfl
@[simp] theorem bindSession_atrLen (host chip : Byte) (mode : EdcMode) : (bindSession host chip mode s).atrLen = s.atrLen := rfl
@[simp] theorem bindSession_status (host chip : Byte) (mode : EdcMode) : (bindSession host chip mode s).status = s.status := rfl
@[simp] theorem bindSession_resLen (host chip : Byte) (mode : EdcMode) : (bindSession host chip mode s).resLen = s.resLen := rfl
@[simp] theorem bindSession_result (host chip : Byte) (mode : EdcMode) : (bindSession host chip mode s).result = s.result := rfl
@[simp] theorem bindSession_held (host chip : Byte) (mode : EdcMode) : (bindSession host chip mode s).held = s.held := rfl
@[simp] theorem bindSession_hostIn (host chip : Byte) (mode : EdcMode) : (bindSession host chip mode s).hostIn = s.hostIn := rfl
@[simp] theorem bindSession_acquires (host chip : Byte) (mode : EdcMode) : (bindSession host chip mode s).acquires = s.acquires := rfl
@[simp] theorem bindSession_writes (host chip : Byte) (mode : EdcMode) : (bindSession host chip mode s).writes = s.writes := rfl
@[simp] theorem bindSession_reads (host chip : Byte) (mode : EdcMode) : (bindSession host chip mode s).reads = s.reads := rfl
@[simp] theorem bindSession_events (host chip : Byte) (mode : EdcMode) : (bindSession host chip mode s).events = s.events := rfl

/-! ### The reset pulse of `RESET` (R246) -/

@[simp] theorem resetPulse_lstate : (resetPulse s).lstate = .awaitingAtr := rfl
@[simp] theorem resetPulse_phase : (resetPulse s).phase = s.phase := rfl
@[simp] theorem resetPulse_ssb : (resetPulse s).ssb = false := rfl
@[simp] theorem resetPulse_rsb : (resetPulse s).rsb = false := rfl
@[simp] theorem resetPulse_ifsc : (resetPulse s).ifsc = Config.ifscDefault := rfl
@[simp] theorem resetPulse_ifsd : (resetPulse s).ifsd = Config.ifsdDefault := rfl
@[simp] theorem resetPulse_wtm : (resetPulse s).wtm = Config.wtmDefault := rfl
@[simp] theorem resetPulse_nadTx : (resetPulse s).nadTx = s.nadTx := rfl
@[simp] theorem resetPulse_nadRx : (resetPulse s).nadRx = s.nadRx := rfl
@[simp] theorem resetPulse_edcMode : (resetPulse s).edcMode = s.edcMode := rfl
@[simp] theorem resetPulse_lkgSsb : (resetPulse s).lkgSsb = s.lkgSsb := rfl
@[simp] theorem resetPulse_lkgRsb : (resetPulse s).lkgRsb = s.lkgRsb := rfl
@[simp] theorem resetPulse_lkgIfsc : (resetPulse s).lkgIfsc = s.lkgIfsc := rfl
@[simp] theorem resetPulse_lkgIfsd : (resetPulse s).lkgIfsd = s.lkgIfsd := rfl
@[simp] theorem resetPulse_fault : (resetPulse s).fault = s.fault := rfl
@[simp] theorem resetPulse_retry : (resetPulse s).retry = s.retry := rfl
@[simp] theorem resetPulse_reqLen : (resetPulse s).reqLen = s.reqLen := rfl
@[simp] theorem resetPulse_rspLen : (resetPulse s).rspLen = s.rspLen := rfl
@[simp] theorem resetPulse_rspCap : (resetPulse s).rspCap = s.rspCap := rfl
@[simp] theorem resetPulse_txOff : (resetPulse s).txOff = s.txOff := rfl
@[simp] theorem resetPulse_txLen : (resetPulse s).txLen = s.txLen := rfl
@[simp] theorem resetPulse_txMore : (resetPulse s).txMore = s.txMore := rfl
@[simp] theorem resetPulse_chunkMax : (resetPulse s).chunkMax = s.chunkMax := rfl
@[simp] theorem resetPulse_req : (resetPulse s).req = s.req := rfl
@[simp] theorem resetPulse_rsp : (resetPulse s).rsp = s.rsp := rfl
@[simp] theorem resetPulse_txb : (resetPulse s).txb = s.txb := rfl
@[simp] theorem resetPulse_rxb : (resetPulse s).rxb = s.rxb := rfl
@[simp] theorem resetPulse_rxLen : (resetPulse s).rxLen = s.rxLen := rfl
@[simp] theorem resetPulse_atrb : (resetPulse s).atrb = s.atrb := rfl
@[simp] theorem resetPulse_atrLen : (resetPulse s).atrLen = 0#8 := rfl
@[simp] theorem resetPulse_status : (resetPulse s).status = s.status := rfl
@[simp] theorem resetPulse_resLen : (resetPulse s).resLen = s.resLen := rfl
@[simp] theorem resetPulse_result : (resetPulse s).result = s.result := rfl
@[simp] theorem resetPulse_held : (resetPulse s).held = s.held := rfl
@[simp] theorem resetPulse_hostIn : (resetPulse s).hostIn = s.hostIn := rfl
@[simp] theorem resetPulse_acquires : (resetPulse s).acquires = s.acquires := rfl
@[simp] theorem resetPulse_writes : (resetPulse s).writes = s.writes := rfl
@[simp] theorem resetPulse_reads : (resetPulse s).reads = s.reads := rfl
@[simp] theorem resetPulse_events : (resetPulse s).events = .assertReset :: s.events := rfl

/-! ### A command ended (the statements' words) -/

@[simp] theorem State.endsWith_lstate (st : Status) : (s.endsWith st).lstate = s.lstate := rfl
@[simp] theorem State.endsWith_phase (st : Status) : (s.endsWith st).phase = s.phase := rfl
@[simp] theorem State.endsWith_ssb (st : Status) : (s.endsWith st).ssb = s.ssb := rfl
@[simp] theorem State.endsWith_rsb (st : Status) : (s.endsWith st).rsb = s.rsb := rfl
@[simp] theorem State.endsWith_ifsc (st : Status) : (s.endsWith st).ifsc = s.ifsc := rfl
@[simp] theorem State.endsWith_ifsd (st : Status) : (s.endsWith st).ifsd = s.ifsd := rfl
@[simp] theorem State.endsWith_wtm (st : Status) : (s.endsWith st).wtm = s.wtm := rfl
@[simp] theorem State.endsWith_nadTx (st : Status) : (s.endsWith st).nadTx = s.nadTx := rfl
@[simp] theorem State.endsWith_nadRx (st : Status) : (s.endsWith st).nadRx = s.nadRx := rfl
@[simp] theorem State.endsWith_edcMode (st : Status) : (s.endsWith st).edcMode = s.edcMode := rfl
@[simp] theorem State.endsWith_lkgSsb (st : Status) : (s.endsWith st).lkgSsb = s.lkgSsb := rfl
@[simp] theorem State.endsWith_lkgRsb (st : Status) : (s.endsWith st).lkgRsb = s.lkgRsb := rfl
@[simp] theorem State.endsWith_lkgIfsc (st : Status) : (s.endsWith st).lkgIfsc = s.lkgIfsc := rfl
@[simp] theorem State.endsWith_lkgIfsd (st : Status) : (s.endsWith st).lkgIfsd = s.lkgIfsd := rfl
@[simp] theorem State.endsWith_fault (st : Status) : (s.endsWith st).fault = s.fault := rfl
@[simp] theorem State.endsWith_retry (st : Status) : (s.endsWith st).retry = s.retry := rfl
@[simp] theorem State.endsWith_reqLen (st : Status) : (s.endsWith st).reqLen = s.reqLen := rfl
@[simp] theorem State.endsWith_rspLen (st : Status) : (s.endsWith st).rspLen = s.rspLen := rfl
@[simp] theorem State.endsWith_rspCap (st : Status) : (s.endsWith st).rspCap = s.rspCap := rfl
@[simp] theorem State.endsWith_txOff (st : Status) : (s.endsWith st).txOff = s.txOff := rfl
@[simp] theorem State.endsWith_txLen (st : Status) : (s.endsWith st).txLen = s.txLen := rfl
@[simp] theorem State.endsWith_txMore (st : Status) : (s.endsWith st).txMore = s.txMore := rfl
@[simp] theorem State.endsWith_chunkMax (st : Status) : (s.endsWith st).chunkMax = s.chunkMax := rfl
@[simp] theorem State.endsWith_req (st : Status) : (s.endsWith st).req = s.req := rfl
@[simp] theorem State.endsWith_rsp (st : Status) : (s.endsWith st).rsp = s.rsp := rfl
@[simp] theorem State.endsWith_txb (st : Status) : (s.endsWith st).txb = s.txb := rfl
@[simp] theorem State.endsWith_rxb (st : Status) : (s.endsWith st).rxb = s.rxb := rfl
@[simp] theorem State.endsWith_rxLen (st : Status) : (s.endsWith st).rxLen = s.rxLen := rfl
@[simp] theorem State.endsWith_atrb (st : Status) : (s.endsWith st).atrb = s.atrb := rfl
@[simp] theorem State.endsWith_atrLen (st : Status) : (s.endsWith st).atrLen = s.atrLen := rfl
@[simp] theorem State.endsWith_status (st : Status) : (s.endsWith st).status = st := rfl
@[simp] theorem State.endsWith_resLen (st : Status) : (s.endsWith st).resLen = 0#16 := rfl
@[simp] theorem State.endsWith_result (st : Status) : (s.endsWith st).result = ResultData.none := rfl
@[simp] theorem State.endsWith_held (st : Status) : (s.endsWith st).held = s.held := rfl
@[simp] theorem State.endsWith_hostIn (st : Status) : (s.endsWith st).hostIn = s.hostIn := rfl
@[simp] theorem State.endsWith_acquires (st : Status) : (s.endsWith st).acquires = s.acquires := rfl
@[simp] theorem State.endsWith_writes (st : Status) : (s.endsWith st).writes = s.writes := rfl
@[simp] theorem State.endsWith_reads (st : Status) : (s.endsWith st).reads = s.reads := rfl
@[simp] theorem State.endsWith_events (st : Status) : (s.endsWith st).events = s.events := rfl

/-! ### A failed exchange (the statements' words) -/

@[simp] theorem State.rolledBack_lstate (e : Status) : (s.rolledBack e).lstate = .idle := rfl
@[simp] theorem State.rolledBack_phase (e : Status) : (s.rolledBack e).phase = s.phase := rfl
@[simp] theorem State.rolledBack_ssb (e : Status) : (s.rolledBack e).ssb = s.lkgSsb := rfl
@[simp] theorem State.rolledBack_rsb (e : Status) : (s.rolledBack e).rsb = s.lkgRsb := rfl
@[simp] theorem State.rolledBack_ifsc (e : Status) : (s.rolledBack e).ifsc = s.lkgIfsc := rfl
@[simp] theorem State.rolledBack_ifsd (e : Status) : (s.rolledBack e).ifsd = s.lkgIfsd := rfl
@[simp] theorem State.rolledBack_wtm (e : Status) : (s.rolledBack e).wtm = 1#8 := rfl
@[simp] theorem State.rolledBack_nadTx (e : Status) : (s.rolledBack e).nadTx = s.nadTx := rfl
@[simp] theorem State.rolledBack_nadRx (e : Status) : (s.rolledBack e).nadRx = s.nadRx := rfl
@[simp] theorem State.rolledBack_edcMode (e : Status) : (s.rolledBack e).edcMode = s.edcMode := rfl
@[simp] theorem State.rolledBack_lkgSsb (e : Status) : (s.rolledBack e).lkgSsb = s.lkgSsb := rfl
@[simp] theorem State.rolledBack_lkgRsb (e : Status) : (s.rolledBack e).lkgRsb = s.lkgRsb := rfl
@[simp] theorem State.rolledBack_lkgIfsc (e : Status) : (s.rolledBack e).lkgIfsc = s.lkgIfsc := rfl
@[simp] theorem State.rolledBack_lkgIfsd (e : Status) : (s.rolledBack e).lkgIfsd = s.lkgIfsd := rfl
@[simp] theorem State.rolledBack_fault (e : Status) : (s.rolledBack e).fault = s.fault := rfl
@[simp] theorem State.rolledBack_retry (e : Status) : (s.rolledBack e).retry = s.retry := rfl
@[simp] theorem State.rolledBack_reqLen (e : Status) : (s.rolledBack e).reqLen = s.reqLen := rfl
@[simp] theorem State.rolledBack_rspLen (e : Status) : (s.rolledBack e).rspLen = s.rspLen := rfl
@[simp] theorem State.rolledBack_rspCap (e : Status) : (s.rolledBack e).rspCap = s.rspCap := rfl
@[simp] theorem State.rolledBack_txOff (e : Status) : (s.rolledBack e).txOff = s.txOff := rfl
@[simp] theorem State.rolledBack_txLen (e : Status) : (s.rolledBack e).txLen = s.txLen := rfl
@[simp] theorem State.rolledBack_txMore (e : Status) : (s.rolledBack e).txMore = s.txMore := rfl
@[simp] theorem State.rolledBack_chunkMax (e : Status) : (s.rolledBack e).chunkMax = s.chunkMax := rfl
@[simp] theorem State.rolledBack_req (e : Status) : (s.rolledBack e).req = s.req := rfl
@[simp] theorem State.rolledBack_rsp (e : Status) : (s.rolledBack e).rsp = s.rsp := rfl
@[simp] theorem State.rolledBack_txb (e : Status) : (s.rolledBack e).txb = s.txb := rfl
@[simp] theorem State.rolledBack_rxb (e : Status) : (s.rolledBack e).rxb = s.rxb := rfl
@[simp] theorem State.rolledBack_rxLen (e : Status) : (s.rolledBack e).rxLen = s.rxLen := rfl
@[simp] theorem State.rolledBack_atrb (e : Status) : (s.rolledBack e).atrb = s.atrb := rfl
@[simp] theorem State.rolledBack_atrLen (e : Status) : (s.rolledBack e).atrLen = s.atrLen := rfl
@[simp] theorem State.rolledBack_status (e : Status) : (s.rolledBack e).status = e := rfl
@[simp] theorem State.rolledBack_resLen (e : Status) : (s.rolledBack e).resLen = 0#16 := rfl
@[simp] theorem State.rolledBack_result (e : Status) : (s.rolledBack e).result = ResultData.none := rfl
@[simp] theorem State.rolledBack_held (e : Status) : (s.rolledBack e).held = s.held := rfl
@[simp] theorem State.rolledBack_hostIn (e : Status) : (s.rolledBack e).hostIn = s.hostIn := rfl
@[simp] theorem State.rolledBack_acquires (e : Status) : (s.rolledBack e).acquires = s.acquires := rfl
@[simp] theorem State.rolledBack_writes (e : Status) : (s.rolledBack e).writes = s.writes := rfl
@[simp] theorem State.rolledBack_reads (e : Status) : (s.rolledBack e).reads = s.reads := rfl
@[simp] theorem State.rolledBack_events (e : Status) : (s.rolledBack e).events = s.events := rfl

/-! ### A block handed over (the statements' words) -/

@[simp] theorem State.hands_lstate (ok : Bool) (c : Control) (p : List Byte) : (s.hands ok c p).lstate = s.lstate := rfl
@[simp] theorem State.hands_phase (ok : Bool) (c : Control) (p : List Byte) : (s.hands ok c p).phase = s.phase := rfl
@[simp] theorem State.hands_ssb (ok : Bool) (c : Control) (p : List Byte) : (s.hands ok c p).ssb = s.ssb := rfl
@[simp] theorem State.hands_rsb (ok : Bool) (c : Control) (p : List Byte) : (s.hands ok c p).rsb = s.rsb := rfl
@[simp] theorem State.hands_ifsc (ok : Bool) (c : Control) (p : List Byte) : (s.hands ok c p).ifsc = s.ifsc := rfl
@[simp] theorem State.hands_ifsd (ok : Bool) (c : Control) (p : List Byte) : (s.hands ok c p).ifsd = s.ifsd := rfl
@[simp] theorem State.hands_wtm (ok : Bool) (c : Control) (p : List Byte) : (s.hands ok c p).wtm = s.wtm := rfl
@[simp] theorem State.hands_nadTx (ok : Bool) (c : Control) (p : List Byte) : (s.hands ok c p).nadTx = s.nadTx := rfl
@[simp] theorem State.hands_nadRx (ok : Bool) (c : Control) (p : List Byte) : (s.hands ok c p).nadRx = s.nadRx := rfl
@[simp] theorem State.hands_edcMode (ok : Bool) (c : Control) (p : List Byte) : (s.hands ok c p).edcMode = s.edcMode := rfl
@[simp] theorem State.hands_lkgSsb (ok : Bool) (c : Control) (p : List Byte) : (s.hands ok c p).lkgSsb = s.lkgSsb := rfl
@[simp] theorem State.hands_lkgRsb (ok : Bool) (c : Control) (p : List Byte) : (s.hands ok c p).lkgRsb = s.lkgRsb := rfl
@[simp] theorem State.hands_lkgIfsc (ok : Bool) (c : Control) (p : List Byte) : (s.hands ok c p).lkgIfsc = s.lkgIfsc := rfl
@[simp] theorem State.hands_lkgIfsd (ok : Bool) (c : Control) (p : List Byte) : (s.hands ok c p).lkgIfsd = s.lkgIfsd := rfl
@[simp] theorem State.hands_fault (ok : Bool) (c : Control) (p : List Byte) : (s.hands ok c p).fault = s.fault := rfl
@[simp] theorem State.hands_retry (ok : Bool) (c : Control) (p : List Byte) : (s.hands ok c p).retry = s.retry := rfl
@[simp] theorem State.hands_reqLen (ok : Bool) (c : Control) (p : List Byte) : (s.hands ok c p).reqLen = s.reqLen := rfl
@[simp] theorem State.hands_rspLen (ok : Bool) (c : Control) (p : List Byte) : (s.hands ok c p).rspLen = s.rspLen := rfl
@[simp] theorem State.hands_rspCap (ok : Bool) (c : Control) (p : List Byte) : (s.hands ok c p).rspCap = s.rspCap := rfl
@[simp] theorem State.hands_txOff (ok : Bool) (c : Control) (p : List Byte) : (s.hands ok c p).txOff = s.txOff := rfl
@[simp] theorem State.hands_txLen (ok : Bool) (c : Control) (p : List Byte) : (s.hands ok c p).txLen = s.txLen := rfl
@[simp] theorem State.hands_txMore (ok : Bool) (c : Control) (p : List Byte) : (s.hands ok c p).txMore = s.txMore := rfl
@[simp] theorem State.hands_chunkMax (ok : Bool) (c : Control) (p : List Byte) : (s.hands ok c p).chunkMax = s.chunkMax := rfl
@[simp] theorem State.hands_req (ok : Bool) (c : Control) (p : List Byte) : (s.hands ok c p).req = s.req := rfl
@[simp] theorem State.hands_rsp (ok : Bool) (c : Control) (p : List Byte) : (s.hands ok c p).rsp = s.rsp := rfl
@[simp] theorem State.hands_txb (ok : Bool) (c : Control) (p : List Byte) : (s.hands ok c p).txb = s.txb.writeFrom 0 (s.raw c p) := rfl
@[simp] theorem State.hands_rxb (ok : Bool) (c : Control) (p : List Byte) : (s.hands ok c p).rxb = s.rxb := rfl
@[simp] theorem State.hands_rxLen (ok : Bool) (c : Control) (p : List Byte) : (s.hands ok c p).rxLen = s.rxLen := rfl
@[simp] theorem State.hands_atrb (ok : Bool) (c : Control) (p : List Byte) : (s.hands ok c p).atrb = s.atrb := rfl
@[simp] theorem State.hands_atrLen (ok : Bool) (c : Control) (p : List Byte) : (s.hands ok c p).atrLen = s.atrLen := rfl
@[simp] theorem State.hands_status (ok : Bool) (c : Control) (p : List Byte) : (s.hands ok c p).status = s.status := rfl
@[simp] theorem State.hands_resLen (ok : Bool) (c : Control) (p : List Byte) : (s.hands ok c p).resLen = s.resLen := rfl
@[simp] theorem State.hands_result (ok : Bool) (c : Control) (p : List Byte) : (s.hands ok c p).result = s.result := rfl
@[simp] theorem State.hands_held (ok : Bool) (c : Control) (p : List Byte) : (s.hands ok c p).held = s.held := rfl
@[simp] theorem State.hands_hostIn (ok : Bool) (c : Control) (p : List Byte) : (s.hands ok c p).hostIn = s.hostIn := rfl
@[simp] theorem State.hands_acquires (ok : Bool) (c : Control) (p : List Byte) : (s.hands ok c p).acquires = s.acquires := rfl
@[simp] theorem State.hands_writes (ok : Bool) (c : Control) (p : List Byte) : (s.hands ok c p).writes = s.writes.tail := rfl
@[simp] theorem State.hands_reads (ok : Bool) (c : Control) (p : List Byte) : (s.hands ok c p).reads = s.reads := rfl
@[simp] theorem State.hands_events (ok : Bool) (c : Control) (p : List Byte) : (s.hands ok c p).events = .write (s.raw c p) ok :: s.events := rfl

/-! ### A resynchronization asked for (the statements' words) -/

@[simp] theorem State.asksResync_lstate (f : Status) : (s.asksResync f).lstate = .resynchronizing := rfl
@[simp] theorem State.asksResync_phase (f : Status) : (s.asksResync f).phase = s.phase := rfl
@[simp] theorem State.asksResync_ssb (f : Status) : (s.asksResync f).ssb = s.ssb := rfl
@[simp] theorem State.asksResync_rsb (f : Status) : (s.asksResync f).rsb = s.rsb := rfl
@[simp] theorem State.asksResync_ifsc (f : Status) : (s.asksResync f).ifsc = s.ifsc := rfl
@[simp] theorem State.asksResync_ifsd (f : Status) : (s.asksResync f).ifsd = s.ifsd := rfl
@[simp] theorem State.asksResync_wtm (f : Status) : (s.asksResync f).wtm = s.wtm := rfl
@[simp] theorem State.asksResync_nadTx (f : Status) : (s.asksResync f).nadTx = s.nadTx := rfl
@[simp] theorem State.asksResync_nadRx (f : Status) : (s.asksResync f).nadRx = s.nadRx := rfl
@[simp] theorem State.asksResync_edcMode (f : Status) : (s.asksResync f).edcMode = s.edcMode := rfl
@[simp] theorem State.asksResync_lkgSsb (f : Status) : (s.asksResync f).lkgSsb = s.lkgSsb := rfl
@[simp] theorem State.asksResync_lkgRsb (f : Status) : (s.asksResync f).lkgRsb = s.lkgRsb := rfl
@[simp] theorem State.asksResync_lkgIfsc (f : Status) : (s.asksResync f).lkgIfsc = s.lkgIfsc := rfl
@[simp] theorem State.asksResync_lkgIfsd (f : Status) : (s.asksResync f).lkgIfsd = s.lkgIfsd := rfl
@[simp] theorem State.asksResync_fault (f : Status) : (s.asksResync f).fault = f := rfl
@[simp] theorem State.asksResync_retry (f : Status) : (s.asksResync f).retry = s.retry := rfl
@[simp] theorem State.asksResync_reqLen (f : Status) : (s.asksResync f).reqLen = s.reqLen := rfl
@[simp] theorem State.asksResync_rspLen (f : Status) : (s.asksResync f).rspLen = s.rspLen := rfl
@[simp] theorem State.asksResync_rspCap (f : Status) : (s.asksResync f).rspCap = s.rspCap := rfl
@[simp] theorem State.asksResync_txOff (f : Status) : (s.asksResync f).txOff = s.txOff := rfl
@[simp] theorem State.asksResync_txLen (f : Status) : (s.asksResync f).txLen = s.txLen := rfl
@[simp] theorem State.asksResync_txMore (f : Status) : (s.asksResync f).txMore = s.txMore := rfl
@[simp] theorem State.asksResync_chunkMax (f : Status) : (s.asksResync f).chunkMax = s.chunkMax := rfl
@[simp] theorem State.asksResync_req (f : Status) : (s.asksResync f).req = s.req := rfl
@[simp] theorem State.asksResync_rsp (f : Status) : (s.asksResync f).rsp = s.rsp := rfl
@[simp] theorem State.asksResync_txb (f : Status) : (s.asksResync f).txb = s.txb.writeFrom 0 (s.raw (.sReq .resynch) []) := rfl
@[simp] theorem State.asksResync_rxb (f : Status) : (s.asksResync f).rxb = s.rxb := rfl
@[simp] theorem State.asksResync_rxLen (f : Status) : (s.asksResync f).rxLen = s.rxLen := rfl
@[simp] theorem State.asksResync_atrb (f : Status) : (s.asksResync f).atrb = s.atrb := rfl
@[simp] theorem State.asksResync_atrLen (f : Status) : (s.asksResync f).atrLen = s.atrLen := rfl
@[simp] theorem State.asksResync_status (f : Status) : (s.asksResync f).status = s.status := rfl
@[simp] theorem State.asksResync_resLen (f : Status) : (s.asksResync f).resLen = s.resLen := rfl
@[simp] theorem State.asksResync_result (f : Status) : (s.asksResync f).result = s.result := rfl
@[simp] theorem State.asksResync_held (f : Status) : (s.asksResync f).held = s.held := rfl
@[simp] theorem State.asksResync_hostIn (f : Status) : (s.asksResync f).hostIn = s.hostIn := rfl
@[simp] theorem State.asksResync_acquires (f : Status) : (s.asksResync f).acquires = s.acquires := rfl
@[simp] theorem State.asksResync_writes (f : Status) : (s.asksResync f).writes = s.writes.tail := rfl
@[simp] theorem State.asksResync_reads (f : Status) : (s.asksResync f).reads = s.reads := rfl
@[simp] theorem State.asksResync_events (f : Status) : (s.asksResync f).events = .write (s.raw (.sReq .resynch) []) true :: s.events := rfl

/-! ### A reply read (the statements' words) -/

@[simp] theorem State.hasRead_lstate (o : ReadOutcome) : (s.hasRead o).lstate = s.lstate := rfl
@[simp] theorem State.hasRead_phase (o : ReadOutcome) : (s.hasRead o).phase = s.phase := rfl
@[simp] theorem State.hasRead_ssb (o : ReadOutcome) : (s.hasRead o).ssb = s.ssb := rfl
@[simp] theorem State.hasRead_rsb (o : ReadOutcome) : (s.hasRead o).rsb = s.rsb := rfl
@[simp] theorem State.hasRead_ifsc (o : ReadOutcome) : (s.hasRead o).ifsc = s.ifsc := rfl
@[simp] theorem State.hasRead_ifsd (o : ReadOutcome) : (s.hasRead o).ifsd = s.ifsd := rfl
@[simp] theorem State.hasRead_wtm (o : ReadOutcome) : (s.hasRead o).wtm = if s.lstate = .exchanging then 1#8 else s.wtm := rfl
@[simp] theorem State.hasRead_nadTx (o : ReadOutcome) : (s.hasRead o).nadTx = s.nadTx := rfl
@[simp] theorem State.hasRead_nadRx (o : ReadOutcome) : (s.hasRead o).nadRx = s.nadRx := rfl
@[simp] theorem State.hasRead_edcMode (o : ReadOutcome) : (s.hasRead o).edcMode = s.edcMode := rfl
@[simp] theorem State.hasRead_lkgSsb (o : ReadOutcome) : (s.hasRead o).lkgSsb = s.lkgSsb := rfl
@[simp] theorem State.hasRead_lkgRsb (o : ReadOutcome) : (s.hasRead o).lkgRsb = s.lkgRsb := rfl
@[simp] theorem State.hasRead_lkgIfsc (o : ReadOutcome) : (s.hasRead o).lkgIfsc = s.lkgIfsc := rfl
@[simp] theorem State.hasRead_lkgIfsd (o : ReadOutcome) : (s.hasRead o).lkgIfsd = s.lkgIfsd := rfl
@[simp] theorem State.hasRead_fault (o : ReadOutcome) : (s.hasRead o).fault = s.fault := rfl
@[simp] theorem State.hasRead_retry (o : ReadOutcome) : (s.hasRead o).retry = s.retry := rfl
@[simp] theorem State.hasRead_reqLen (o : ReadOutcome) : (s.hasRead o).reqLen = s.reqLen := rfl
@[simp] theorem State.hasRead_rspLen (o : ReadOutcome) : (s.hasRead o).rspLen = s.rspLen := rfl
@[simp] theorem State.hasRead_rspCap (o : ReadOutcome) : (s.hasRead o).rspCap = s.rspCap := rfl
@[simp] theorem State.hasRead_txOff (o : ReadOutcome) : (s.hasRead o).txOff = s.txOff := rfl
@[simp] theorem State.hasRead_txLen (o : ReadOutcome) : (s.hasRead o).txLen = s.txLen := rfl
@[simp] theorem State.hasRead_txMore (o : ReadOutcome) : (s.hasRead o).txMore = s.txMore := rfl
@[simp] theorem State.hasRead_chunkMax (o : ReadOutcome) : (s.hasRead o).chunkMax = s.chunkMax := rfl
@[simp] theorem State.hasRead_req (o : ReadOutcome) : (s.hasRead o).req = s.req := rfl
@[simp] theorem State.hasRead_rsp (o : ReadOutcome) : (s.hasRead o).rsp = s.rsp := rfl
@[simp] theorem State.hasRead_txb (o : ReadOutcome) : (s.hasRead o).txb = s.txb := rfl
@[simp] theorem State.hasRead_rxb (o : ReadOutcome) : (s.hasRead o).rxb = s.rxb := rfl
@[simp] theorem State.hasRead_rxLen (o : ReadOutcome) : (s.hasRead o).rxLen = s.rxLen := rfl
@[simp] theorem State.hasRead_atrb (o : ReadOutcome) : (s.hasRead o).atrb = s.atrb := rfl
@[simp] theorem State.hasRead_atrLen (o : ReadOutcome) : (s.hasRead o).atrLen = s.atrLen := rfl
@[simp] theorem State.hasRead_status (o : ReadOutcome) : (s.hasRead o).status = s.status := rfl
@[simp] theorem State.hasRead_resLen (o : ReadOutcome) : (s.hasRead o).resLen = s.resLen := rfl
@[simp] theorem State.hasRead_result (o : ReadOutcome) : (s.hasRead o).result = s.result := rfl
@[simp] theorem State.hasRead_held (o : ReadOutcome) : (s.hasRead o).held = s.held := rfl
@[simp] theorem State.hasRead_hostIn (o : ReadOutcome) : (s.hasRead o).hostIn = s.hostIn := rfl
@[simp] theorem State.hasRead_acquires (o : ReadOutcome) : (s.hasRead o).acquires = s.acquires := rfl
@[simp] theorem State.hasRead_writes (o : ReadOutcome) : (s.hasRead o).writes = s.writes := rfl
@[simp] theorem State.hasRead_reads (o : ReadOutcome) : (s.hasRead o).reads = s.reads.tail := rfl
@[simp] theorem State.hasRead_events (o : ReadOutcome) : (s.hasRead o).events = .read 259 ((if s.lstate = .exchanging then s.wtm.toNat else 1) * Config.bwtBase) o :: s.events := rfl

/-! ### A reply read and stored (the statements' words) -/

@[simp] theorem State.hasReadBytes_lstate (raw : List Byte) : (s.hasReadBytes raw).lstate = s.lstate := rfl
@[simp] theorem State.hasReadBytes_phase (raw : List Byte) : (s.hasReadBytes raw).phase = s.phase := rfl
@[simp] theorem State.hasReadBytes_ssb (raw : List Byte) : (s.hasReadBytes raw).ssb = s.ssb := rfl
@[simp] theorem State.hasReadBytes_rsb (raw : List Byte) : (s.hasReadBytes raw).rsb = s.rsb := rfl
@[simp] theorem State.hasReadBytes_ifsc (raw : List Byte) : (s.hasReadBytes raw).ifsc = s.ifsc := rfl
@[simp] theorem State.hasReadBytes_ifsd (raw : List Byte) : (s.hasReadBytes raw).ifsd = s.ifsd := rfl
@[simp] theorem State.hasReadBytes_wtm (raw : List Byte) : (s.hasReadBytes raw).wtm = if s.lstate = .exchanging then 1#8 else s.wtm := rfl
@[simp] theorem State.hasReadBytes_nadTx (raw : List Byte) : (s.hasReadBytes raw).nadTx = s.nadTx := rfl
@[simp] theorem State.hasReadBytes_nadRx (raw : List Byte) : (s.hasReadBytes raw).nadRx = s.nadRx := rfl
@[simp] theorem State.hasReadBytes_edcMode (raw : List Byte) : (s.hasReadBytes raw).edcMode = s.edcMode := rfl
@[simp] theorem State.hasReadBytes_lkgSsb (raw : List Byte) : (s.hasReadBytes raw).lkgSsb = s.lkgSsb := rfl
@[simp] theorem State.hasReadBytes_lkgRsb (raw : List Byte) : (s.hasReadBytes raw).lkgRsb = s.lkgRsb := rfl
@[simp] theorem State.hasReadBytes_lkgIfsc (raw : List Byte) : (s.hasReadBytes raw).lkgIfsc = s.lkgIfsc := rfl
@[simp] theorem State.hasReadBytes_lkgIfsd (raw : List Byte) : (s.hasReadBytes raw).lkgIfsd = s.lkgIfsd := rfl
@[simp] theorem State.hasReadBytes_fault (raw : List Byte) : (s.hasReadBytes raw).fault = s.fault := rfl
@[simp] theorem State.hasReadBytes_retry (raw : List Byte) : (s.hasReadBytes raw).retry = s.retry := rfl
@[simp] theorem State.hasReadBytes_reqLen (raw : List Byte) : (s.hasReadBytes raw).reqLen = s.reqLen := rfl
@[simp] theorem State.hasReadBytes_rspLen (raw : List Byte) : (s.hasReadBytes raw).rspLen = s.rspLen := rfl
@[simp] theorem State.hasReadBytes_rspCap (raw : List Byte) : (s.hasReadBytes raw).rspCap = s.rspCap := rfl
@[simp] theorem State.hasReadBytes_txOff (raw : List Byte) : (s.hasReadBytes raw).txOff = s.txOff := rfl
@[simp] theorem State.hasReadBytes_txLen (raw : List Byte) : (s.hasReadBytes raw).txLen = s.txLen := rfl
@[simp] theorem State.hasReadBytes_txMore (raw : List Byte) : (s.hasReadBytes raw).txMore = s.txMore := rfl
@[simp] theorem State.hasReadBytes_chunkMax (raw : List Byte) : (s.hasReadBytes raw).chunkMax = s.chunkMax := rfl
@[simp] theorem State.hasReadBytes_req (raw : List Byte) : (s.hasReadBytes raw).req = s.req := rfl
@[simp] theorem State.hasReadBytes_rsp (raw : List Byte) : (s.hasReadBytes raw).rsp = s.rsp := rfl
@[simp] theorem State.hasReadBytes_txb (raw : List Byte) : (s.hasReadBytes raw).txb = s.txb := rfl
@[simp] theorem State.hasReadBytes_rxb (raw : List Byte) : (s.hasReadBytes raw).rxb = s.rxb.writeFrom 0 raw := rfl
@[simp] theorem State.hasReadBytes_rxLen (raw : List Byte) : (s.hasReadBytes raw).rxLen = BitVec.ofNat 16 raw.length := rfl
@[simp] theorem State.hasReadBytes_atrb (raw : List Byte) : (s.hasReadBytes raw).atrb = s.atrb := rfl
@[simp] theorem State.hasReadBytes_atrLen (raw : List Byte) : (s.hasReadBytes raw).atrLen = s.atrLen := rfl
@[simp] theorem State.hasReadBytes_status (raw : List Byte) : (s.hasReadBytes raw).status = s.status := rfl
@[simp] theorem State.hasReadBytes_resLen (raw : List Byte) : (s.hasReadBytes raw).resLen = s.resLen := rfl
@[simp] theorem State.hasReadBytes_result (raw : List Byte) : (s.hasReadBytes raw).result = s.result := rfl
@[simp] theorem State.hasReadBytes_held (raw : List Byte) : (s.hasReadBytes raw).held = s.held := rfl
@[simp] theorem State.hasReadBytes_hostIn (raw : List Byte) : (s.hasReadBytes raw).hostIn = s.hostIn := rfl
@[simp] theorem State.hasReadBytes_acquires (raw : List Byte) : (s.hasReadBytes raw).acquires = s.acquires := rfl
@[simp] theorem State.hasReadBytes_writes (raw : List Byte) : (s.hasReadBytes raw).writes = s.writes := rfl
@[simp] theorem State.hasReadBytes_reads (raw : List Byte) : (s.hasReadBytes raw).reads = s.reads.tail := rfl
@[simp] theorem State.hasReadBytes_events (raw : List Byte) : (s.hasReadBytes raw).events = .read 259 ((if s.lstate = .exchanging then s.wtm.toNat else 1) * Config.bwtBase) (.bytes raw) :: s.events := rfl

/-! ### Inside the read of a reply (the statements' words) -/

@[simp] theorem State.stuckInReply_lstate : (s.stuckInReply).lstate = s.lstate := rfl
@[simp] theorem State.stuckInReply_phase : (s.stuckInReply).phase = s.phase := rfl
@[simp] theorem State.stuckInReply_ssb : (s.stuckInReply).ssb = s.ssb := rfl
@[simp] theorem State.stuckInReply_rsb : (s.stuckInReply).rsb = s.rsb := rfl
@[simp] theorem State.stuckInReply_ifsc : (s.stuckInReply).ifsc = s.ifsc := rfl
@[simp] theorem State.stuckInReply_ifsd : (s.stuckInReply).ifsd = s.ifsd := rfl
@[simp] theorem State.stuckInReply_wtm : (s.stuckInReply).wtm = s.wtm := rfl
@[simp] theorem State.stuckInReply_nadTx : (s.stuckInReply).nadTx = s.nadTx := rfl
@[simp] theorem State.stuckInReply_nadRx : (s.stuckInReply).nadRx = s.nadRx := rfl
@[simp] theorem State.stuckInReply_edcMode : (s.stuckInReply).edcMode = s.edcMode := rfl
@[simp] theorem State.stuckInReply_lkgSsb : (s.stuckInReply).lkgSsb = s.lkgSsb := rfl
@[simp] theorem State.stuckInReply_lkgRsb : (s.stuckInReply).lkgRsb = s.lkgRsb := rfl
@[simp] theorem State.stuckInReply_lkgIfsc : (s.stuckInReply).lkgIfsc = s.lkgIfsc := rfl
@[simp] theorem State.stuckInReply_lkgIfsd : (s.stuckInReply).lkgIfsd = s.lkgIfsd := rfl
@[simp] theorem State.stuckInReply_fault : (s.stuckInReply).fault = s.fault := rfl
@[simp] theorem State.stuckInReply_retry : (s.stuckInReply).retry = s.retry := rfl
@[simp] theorem State.stuckInReply_reqLen : (s.stuckInReply).reqLen = s.reqLen := rfl
@[simp] theorem State.stuckInReply_rspLen : (s.stuckInReply).rspLen = s.rspLen := rfl
@[simp] theorem State.stuckInReply_rspCap : (s.stuckInReply).rspCap = s.rspCap := rfl
@[simp] theorem State.stuckInReply_txOff : (s.stuckInReply).txOff = s.txOff := rfl
@[simp] theorem State.stuckInReply_txLen : (s.stuckInReply).txLen = s.txLen := rfl
@[simp] theorem State.stuckInReply_txMore : (s.stuckInReply).txMore = s.txMore := rfl
@[simp] theorem State.stuckInReply_chunkMax : (s.stuckInReply).chunkMax = s.chunkMax := rfl
@[simp] theorem State.stuckInReply_req : (s.stuckInReply).req = s.req := rfl
@[simp] theorem State.stuckInReply_rsp : (s.stuckInReply).rsp = s.rsp := rfl
@[simp] theorem State.stuckInReply_txb : (s.stuckInReply).txb = s.txb := rfl
@[simp] theorem State.stuckInReply_rxb : (s.stuckInReply).rxb = s.rxb := rfl
@[simp] theorem State.stuckInReply_rxLen : (s.stuckInReply).rxLen = s.rxLen := rfl
@[simp] theorem State.stuckInReply_atrb : (s.stuckInReply).atrb = s.atrb := rfl
@[simp] theorem State.stuckInReply_atrLen : (s.stuckInReply).atrLen = s.atrLen := rfl
@[simp] theorem State.stuckInReply_status : (s.stuckInReply).status = s.status := rfl
@[simp] theorem State.stuckInReply_resLen : (s.stuckInReply).resLen = s.resLen := rfl
@[simp] theorem State.stuckInReply_result : (s.stuckInReply).result = s.result := rfl
@[simp] theorem State.stuckInReply_held : (s.stuckInReply).held = s.held := rfl
@[simp] theorem State.stuckInReply_hostIn : (s.stuckInReply).hostIn = s.hostIn := rfl
@[simp] theorem State.stuckInReply_acquires : (s.stuckInReply).acquires = s.acquires := rfl
@[simp] theorem State.stuckInReply_writes : (s.stuckInReply).writes = s.writes := rfl
@[simp] theorem State.stuckInReply_reads : (s.stuckInReply).reads = s.reads := rfl
@[simp] theorem State.stuckInReply_events : (s.stuckInReply).events = .reading 259 ((if s.lstate = .exchanging then s.wtm.toNat else 1) * Config.bwtBase) :: s.events := rfl

/-! ### Inside the read of a `RESET` (the statements' words) -/

@[simp] theorem State.stuckInReset_lstate : (s.stuckInReset).lstate = .awaitingAtr := rfl
@[simp] theorem State.stuckInReset_phase : (s.stuckInReset).phase = s.phase := rfl
@[simp] theorem State.stuckInReset_ssb : (s.stuckInReset).ssb = false := rfl
@[simp] theorem State.stuckInReset_rsb : (s.stuckInReset).rsb = false := rfl
@[simp] theorem State.stuckInReset_ifsc : (s.stuckInReset).ifsc = 32#8 := rfl
@[simp] theorem State.stuckInReset_ifsd : (s.stuckInReset).ifsd = 32#8 := rfl
@[simp] theorem State.stuckInReset_wtm : (s.stuckInReset).wtm = 1#8 := rfl
@[simp] theorem State.stuckInReset_nadTx : (s.stuckInReset).nadTx = s.nadTx := rfl
@[simp] theorem State.stuckInReset_nadRx : (s.stuckInReset).nadRx = s.nadRx := rfl
@[simp] theorem State.stuckInReset_edcMode : (s.stuckInReset).edcMode = s.edcMode := rfl
@[simp] theorem State.stuckInReset_lkgSsb : (s.stuckInReset).lkgSsb = s.lkgSsb := rfl
@[simp] theorem State.stuckInReset_lkgRsb : (s.stuckInReset).lkgRsb = s.lkgRsb := rfl
@[simp] theorem State.stuckInReset_lkgIfsc : (s.stuckInReset).lkgIfsc = s.lkgIfsc := rfl
@[simp] theorem State.stuckInReset_lkgIfsd : (s.stuckInReset).lkgIfsd = s.lkgIfsd := rfl
@[simp] theorem State.stuckInReset_fault : (s.stuckInReset).fault = s.fault := rfl
@[simp] theorem State.stuckInReset_retry : (s.stuckInReset).retry = s.retry := rfl
@[simp] theorem State.stuckInReset_reqLen : (s.stuckInReset).reqLen = s.reqLen := rfl
@[simp] theorem State.stuckInReset_rspLen : (s.stuckInReset).rspLen = s.rspLen := rfl
@[simp] theorem State.stuckInReset_rspCap : (s.stuckInReset).rspCap = s.rspCap := rfl
@[simp] theorem State.stuckInReset_txOff : (s.stuckInReset).txOff = s.txOff := rfl
@[simp] theorem State.stuckInReset_txLen : (s.stuckInReset).txLen = s.txLen := rfl
@[simp] theorem State.stuckInReset_txMore : (s.stuckInReset).txMore = s.txMore := rfl
@[simp] theorem State.stuckInReset_chunkMax : (s.stuckInReset).chunkMax = s.chunkMax := rfl
@[simp] theorem State.stuckInReset_req : (s.stuckInReset).req = s.req := rfl
@[simp] theorem State.stuckInReset_rsp : (s.stuckInReset).rsp = s.rsp := rfl
@[simp] theorem State.stuckInReset_txb : (s.stuckInReset).txb = s.txb := rfl
@[simp] theorem State.stuckInReset_rxb : (s.stuckInReset).rxb = s.rxb := rfl
@[simp] theorem State.stuckInReset_rxLen : (s.stuckInReset).rxLen = s.rxLen := rfl
@[simp] theorem State.stuckInReset_atrb : (s.stuckInReset).atrb = s.atrb := rfl
@[simp] theorem State.stuckInReset_atrLen : (s.stuckInReset).atrLen = 0#8 := rfl
@[simp] theorem State.stuckInReset_status : (s.stuckInReset).status = s.status := rfl
@[simp] theorem State.stuckInReset_resLen : (s.stuckInReset).resLen = s.resLen := rfl
@[simp] theorem State.stuckInReset_result : (s.stuckInReset).result = s.result := rfl
@[simp] theorem State.stuckInReset_held : (s.stuckInReset).held = s.held := rfl
@[simp] theorem State.stuckInReset_hostIn : (s.stuckInReset).hostIn = s.hostIn := rfl
@[simp] theorem State.stuckInReset_acquires : (s.stuckInReset).acquires = s.acquires := rfl
@[simp] theorem State.stuckInReset_writes : (s.stuckInReset).writes = s.writes := rfl
@[simp] theorem State.stuckInReset_reads : (s.stuckInReset).reads = s.reads := rfl
@[simp] theorem State.stuckInReset_events : (s.stuckInReset).events = .reading 33 Config.atrTimeout :: .assertReset :: s.events := rfl

end Sys2Proof.Machine
end

