-- ==== Sys2Proof/Laws/Ops.lean ====
section
/-! SUPPORT. One lemma per shared operation: everything it can do, in the words the statements use. -/

namespace Sys2Proof.Machine

variable {s t : State} {c : Control} {p raw : List Byte} {f : Status}

/-! ### The states the statements name are the ones the operations build -/

theorem fail_eq (e : Status) (s : State) : fail e s = s.rolledBack e := rfl

theorem completeEmpty_eq (st : Status) (s : State) : completeEmpty st s = s.endsWith st := rfl

theorem refuse_eq (s : State) : refuse s = .next (s.endsWith .invalidArgument) := rfl

theorem sent_of_ok (h : s.writeAnswer = true) : sent (s.raw c p) s = s.hands true c p := by
  simp only [sent, afterWrite, State.hands]
  rw [← h]
  rfl

theorem sent_of_error (h : s.writeAnswer = false) : sent (s.raw c p) s = s.hands false c p := by
  simp only [sent, afterWrite, State.hands]
  rw [← h]
  rfl

/-! ### Operands -/

theorem requestLegal_iff {apdu : List Byte} {cap : Half} :
    requestLegal apdu cap = true ↔ (4 ≤ apdu.length ∧ apdu.length ≤ 261) ∧ (2 ≤ cap.toNat ∧ cap.toNat ≤ 258) := by
  unfold requestLegal
  exact decide_eq_true_iff

theorem addressesLegal_iff {host chip : Byte} : addressesLegal host chip = true ↔ host.toNat ≤ 7 ∧ chip.toNat ≤ 7 := by
  unfold addressesLegal
  exact decide_eq_true_iff

/-- An information-field-size request is served exactly for one byte from 1 to 254 (R176). -/
theorem ifsValue_eq_some {inf : List Byte} {v : Byte} : ifsValue inf = some v ↔ inf = [v] ∧ 1 ≤ v.toNat ∧ v.toNat ≤ 254 := by
  have h0 : ∀ x : Byte, (x = 0#8 ∨ x.toNat > Config.ifsMax) ↔ ¬ (1 ≤ x.toNat ∧ x.toNat ≤ 254) := by decide
  rcases inf with _ | ⟨a, _ | ⟨b, l⟩⟩
  · simp [ifsValue]
  · simp only [ifsValue]
    by_cases h : 1 ≤ a.toNat ∧ a.toNat ≤ 254
    · rw [if_neg (by rw [h0]; exact fun hc => hc h)]
      simp only [Option.some.injEq, List.cons.injEq, and_true]
      exact ⟨fun he => by subst he; exact ⟨rfl, h⟩, fun he => he.1⟩
    · rw [if_pos ((h0 a).2 h)]
      simp only [reduceCtorEq, List.cons.injEq, and_true, false_iff]
      rintro ⟨rfl, hx⟩
      exact h hx
  · simp [ifsValue]

/-- A waiting-time request is served exactly for one byte that is not zero (R175). -/
theorem wtxValue_eq_some {inf : List Byte} {v : Byte} : wtxValue inf = some v ↔ inf = [v] ∧ v ≠ 0#8 := by
  rcases inf with _ | ⟨a, _ | ⟨b, l⟩⟩
  · simp [wtxValue]
  · simp only [wtxValue]
    by_cases h : a = 0#8
    · subst h; simp only [if_true, reduceCtorEq, List.cons.injEq, and_true, false_iff]
      rintro ⟨rfl, hx⟩
      exact hx rfl
    · rw [if_neg h]
      simp only [Option.some.injEq, List.cons.injEq, and_true]
      exact ⟨fun he => by subst he; exact ⟨rfl, h⟩, fun he => he.1⟩
  · simp [wtxValue]

/-! ### Sending -/

/-- A block that fits is sent, and then the operation goes on or fails as the channel answers (R158, R171). -/
theorem sendBlock_of_fits (k : State → State) (hp : p.length ≤ 254) :
    sendBlock c p k s = .next (if s.writeAnswer then k (s.hands true c p) else (s.hands false c p).rolledBack .channelError) := by
  simp only [sendBlock, encodeBlock_of_fits (b := ⟨s.nadTx, c, p⟩) hp]
  cases h : s.writeAnswer
  · simp only [Bool.false_eq_true, if_false, ← sent_of_error h]; rfl
  · simp only [if_true, ← sent_of_ok h]; rfl

theorem sendBlock_of_ok (k : State → State) (hp : p.length ≤ 254) (hw : s.writeAnswer = true) :
    sendBlock c p k s = .next (k (s.hands true c p)) := by
  rw [sendBlock_of_fits k hp, if_pos hw]

theorem sendBlock_of_error (k : State → State) (hp : p.length ≤ 254) (hw : s.writeAnswer = false) :
    sendBlock c p k s = .next ((s.hands false c p).rolledBack .channelError) := by
  rw [sendBlock_of_fits k hp, if_neg (by simp [hw])]

/-- All that sending can answer: the block went out, or the channel refused it and the exchange failed. -/
theorem sendBlock_next {k : State → State} (h : sendBlock c p k s = .next t) :
    p.length ≤ 254 ∧ (t = k (s.hands true c p) ∨ t = (s.hands false c p).rolledBack .channelError) := by
  by_cases hp : p.length ≤ 254
  · rw [sendBlock_of_fits k hp] at h
    split at h <;> cases h <;> simp [hp]
  · simp only [sendBlock, encodeBlock_of_long (b := ⟨s.nadTx, c, p⟩) (by simpa using hp)] at h
    cases h

theorem transmit_of_ok (hc : s.currentBlock = some (c, p)) (hp : p.length ≤ 254) (hw : s.writeAnswer = true) :
    transmit s = .next (s.hands true c p) := by
  simp only [transmit, hc]
  exact sendBlock_of_ok id hp hw

theorem transmit_next (h : transmit s = .next t) :
    ∃ c p, s.currentBlock = some (c, p) ∧ p.length ≤ 254 ∧
      (t = s.hands true c p ∨ t = (s.hands false c p).rolledBack .channelError) := by
  simp only [transmit] at h
  split at h
  · cases h
  · rename_i c p hc
    exact ⟨c, p, hc, sendBlock_next h⟩

/-- A resynchronization request is sent whatever the state holds (R188). -/
theorem resync_of_ok (f : Status) (hw : s.writeAnswer = true) : resync f s = .next (s.asksResync f) :=
  sendBlock_of_ok (s := { s with lstate := .resynchronizing, fault := f }) id (by simp) hw

theorem resync_of_error (f : Status) (hw : s.writeAnswer = false) :
    resync f s = .next
      (({ s with lstate := .resynchronizing, fault := f }.hands false (.sReq .resynch) []).rolledBack .channelError) :=
  sendBlock_of_error (s := { s with lstate := .resynchronizing, fault := f }) id (by simp) hw

theorem resync_next (h : resync f s = .next t) :
    t = s.asksResync f ∨
    t = ({ s with lstate := .resynchronizing, fault := f }.hands false (.sReq .resynch) []).rolledBack .channelError :=
  (sendBlock_next h).2

/-! ### The budget -/

theorem pred_eq_zero_iff (r : Byte) : r - 1#8 = 0#8 ↔ r = 1#8 := by
  constructor
  · intro h
    have := congrArg (· + 1#8) h
    simpa using this
  · rintro rfl; rfl

/-- The last unit ends the exchange (R186). -/
theorem spend_last (k : State → Result) (h : s.retry = 1#8) :
    spend f k s = .next ({ s with fault := f, retry := 0#8 }.rolledBack f) := by
  simp only [spend, h]
  rfl

/-- Any other unit lets it go on (R186). -/
theorem spend_more (k : State → Result) (h : s.retry ≠ 1#8) :
    spend f k s = k { s with fault := f, retry := s.retry - 1#8 } := by
  rw [spend, if_neg (by simpa [pred_eq_zero_iff] using h)]

theorem spend_next {k : State → Result} (h : spend f k s = .next t) :
    (s.retry = 1#8 ∧ t = { s with fault := f, retry := 0#8 }.rolledBack f) ∨
    (s.retry ≠ 1#8 ∧ k { s with fault := f, retry := s.retry - 1#8 } = .next t) := by
  by_cases hr : s.retry = 1#8
  · rw [spend_last k hr] at h
    cases h
    exact .inl ⟨hr, rfl⟩
  · rw [spend_more k hr] at h
    exact .inr ⟨hr, h⟩

/-! ### The frames -/

theorem onReply_exchanging (judge w : State → Result) {nad : Byte} (hl : s.lstate = .exchanging) (hn : nad = s.nadRx) :
    onReply nad judge w s = judge s := by
  simp [onReply, hl, hn]

theorem onReply_exchanging_other (judge w : State → Result) {nad : Byte} (hl : s.lstate = .exchanging) (hn : nad ≠ s.nadRx) :
    onReply nad judge w s = resync .sequenceError s := by
  simp [onReply, hl, hn]

theorem onReply_resynchronizing (judge w : State → Result) {nad : Byte} (hl : s.lstate = .resynchronizing) (hn : nad = s.nadRx) :
    onReply nad judge w s = w s := by
  simp [onReply, hl, hn]

theorem onReply_resynchronizing_other (judge w : State → Result) {nad : Byte} (hl : s.lstate = .resynchronizing)
    (hn : nad ≠ s.nadRx) : onReply nad judge w s = .next (s.rolledBack s.fault) := by
  simp [onReply, hl, hn, resyncUnanswered, fail_eq]

/-- All that a received block can do (R168, R189, R288). -/
theorem onReply_next {judge w : State → Result} {nad : Byte} (h : onReply nad judge w s = .next t) :
    (s.lstate = .exchanging ∧ nad = s.nadRx ∧ judge s = .next t) ∨
    (s.lstate = .exchanging ∧ nad ≠ s.nadRx ∧ resync .sequenceError s = .next t) ∨
    (s.lstate = .resynchronizing ∧ nad = s.nadRx ∧ w s = .next t) ∨
    (s.lstate = .resynchronizing ∧ nad ≠ s.nadRx ∧ t = s.rolledBack s.fault) ∨
    (¬ s.inExchange ∧ t = s) := by
  simp only [onReply, resyncUnanswered, fail_eq] at h
  split at h
  · split at h <;> simp_all
  · split at h
    · simp_all
    · cases h; simp_all
  all_goals (cases h; simp_all [State.inExchange])

theorem onCommand_resting (run : State → Result) (h : s.lstate = .closed ∨ s.atRest) : onCommand run s = run s := by
  rcases h with h | h | h <;> simp [onCommand, h, LState.resting]

theorem onCommand_busy (run : State → Result) (h : s.lstate = .exchanging ∨ s.lstate = .resynchronizing ∨ s.lstate = .failed) :
    onCommand run s = .next s := by
  rcases h with h | h | h <;> simp [onCommand, h, LState.resting]

theorem onCommand_next {run : State → Result} (h : onCommand run s = .next t) :
    ((s.lstate = .closed ∨ s.atRest) ∧ run s = .next t) ∨ t = s := by
  unfold onCommand at h
  split at h
  · rename_i hr
    refine .inl ⟨?_, h⟩
    revert hr
    cases hl : s.lstate <;> simp [LState.resting, State.atRest, hl]
  · cases h; exact .inr rfl

/-! ### The current block -/

theorem State.currentBlock_recv (h : s.phase = .recvChain) : s.currentBlock = some (.rPos s.rsb, []) := by
  simp [State.currentBlock, h]

theorem State.currentBlock_send (h : s.phase ≠ .recvChain) :
    s.currentBlock = s.chunk.map fun q => (.i s.ssb s.txMore, q) := by
  cases hp : s.phase <;> simp_all [State.currentBlock]

/-- In a legal exchange the chunk holds bytes, as many as `TX_LEN` says. -/
theorem State.ExchangeLegal.chunk_some (h : s.ExchangeLegal) : ∃ q, s.chunk = some q ∧ q.length = s.txLen.toNat := by
  obtain ⟨q, hq⟩ := Memory.readFrom_of_filled h.reqFilled h.chunk
  exact ⟨q, hq, Memory.readFrom_length hq⟩

/-- In a legal exchange there is a current block, and it fits the wire. -/
theorem State.ExchangeLegal.currentBlock_some (h : s.ExchangeLegal) :
    ∃ c q, s.currentBlock = some (c, q) ∧ q.length ≤ 254 := by
  obtain ⟨q, hq, hl⟩ := h.chunk_some
  cases hp : s.phase
  · exact ⟨.i s.ssb s.txMore, q, by rw [s.currentBlock_send (by simp [hp]), hq]; rfl, by have := h.txLen.2; omega⟩
  · exact ⟨.i s.ssb s.txMore, q, by rw [s.currentBlock_send (by simp [hp]), hq]; rfl, by have := h.txLen.2; omega⟩
  · exact ⟨.rPos s.rsb, [], s.currentBlock_recv hp, by simp⟩

/-- Whatever the current block of a legal exchange is, it fits the wire. -/
theorem State.ExchangeLegal.currentBlock_fits (h : s.ExchangeLegal) (hc : s.currentBlock = some (c, p)) : p.length ≤ 254 := by
  obtain ⟨c', q, hq, hl⟩ := h.currentBlock_some
  rw [hq] at hc
  cases hc
  exact hl

/-- The current block is an I-block or an `R+` without payload. -/
theorem State.currentBlock_form (h : s.currentBlock = some (c, p)) :
    (∃ ns m, c = .i ns m) ∨ (∃ nr, c = .rPos nr ∧ p = []) := by
  cases hp : s.phase
  · rw [s.currentBlock_send (by simp [hp])] at h
    obtain ⟨q, -, hq⟩ := Option.map_eq_some_iff.1 h
    cases hq
    exact .inl ⟨_, _, rfl⟩
  · rw [s.currentBlock_send (by simp [hp])] at h
    obtain ⟨q, -, hq⟩ := Option.map_eq_some_iff.1 h
    cases hq
    exact .inl ⟨_, _, rfl⟩
  · rw [s.currentBlock_recv hp] at h
    cases h
    exact .inr ⟨_, rfl, rfl⟩

end Sys2Proof.Machine
end

