-- ==== Sys2Proof/Laws/Step.lean ====
section
/-! SUPPORT. What the engine fetches: a host command in a resting state, a reply inside an exchange. -/

namespace Sys2Proof.Machine

variable {s : State}

theorem fetch_resting (h : s.lstate = .closed ∨ s.atRest) : fetch s = fetchCommand s := by
  rcases h with h | h | h <;> simp [fetch, h]

theorem fetch_exchange (h : s.inExchange) : fetch s = fetchReply s := by
  rcases h with h | h <;> simp [fetch, h]

/-- The state after the read of a reply, in the statements' words (R161 step w1, R188 step s3). -/
theorem endWait_afterRead (h : s.inExchange) (o : ReadOutcome) :
    endWait (afterRead Config.blockMax s.replyTimeout o s) = s.hasRead o := by
  rcases h with h | h <;>
    simp [endWait, afterRead, State.hasRead, State.replyTimeout, State.waitMultiplier, h, Config.wtmDefault,
      Config.blockMax, Config.lenMax]

/-- The state inside the read of a reply, in the statements' words (R328). -/
theorem duringRead_reply (h : s.inExchange) : duringRead Config.blockMax s.replyTimeout s = s.stuckInReply := by
  rcases h with h | h <;>
    simp [duringRead, State.stuckInReply, State.replyTimeout, State.waitMultiplier, h, Config.wtmDefault, Config.blockMax,
      Config.lenMax]

theorem storeReply_endWait_afterRead (h : s.inExchange) (raw : List Byte) :
    storeReply raw (endWait (afterRead Config.blockMax s.replyTimeout (.bytes raw) s)) = s.hasReadBytes raw := by
  rw [endWait_afterRead h]
  rfl

/-- The five things one read of a reply leads to (R159, R161, R188). -/
theorem step_exchange (h : s.inExchange) :
    step s =
      match s.readOutcome 259 with
      | none => .fault (.readNeverReturns s.stuckInReply)
      | some .error => .next ((s.hasRead .error).rolledBack .channelError)
      | some .timeout => onTimeout (s.hasRead .timeout)
      | some (.bytes raw) =>
        match decodeBlock s.edcMode raw with
        | .error e => onInvalid e (s.hasReadBytes raw)
        | .ok b => exec (.ofBlock b) (s.hasReadBytes raw) := by
  simp only [step, fetch_exchange h, fetchReply, endWait_afterRead h, duringRead_reply h, fail_eq, decode,
    show s.readOutcome Config.blockMax = s.readOutcome 259 from rfl]
  cases s.readOutcome 259 with
  | none => rfl
  | some o =>
    cases o with
    | error => rfl
    | timeout => rfl
    | bytes raw => cases hd : decodeBlock s.edcMode raw <;> simp only [hd] <;> rfl

theorem onTimeout_exchanging (h : s.lstate = .exchanging) : onTimeout s = resync .timeout s := by simp [onTimeout, h]

theorem onTimeout_resynchronizing (h : s.lstate = .resynchronizing) : onTimeout s = .next (s.rolledBack s.fault) := by
  simp [onTimeout, h, resyncUnanswered, fail_eq]

theorem onInvalid_exchanging (e : DecodeError) (h : s.lstate = .exchanging) :
    onInvalid e s = retransmit (decodeStatus e) s := by simp [onInvalid, h]

theorem onInvalid_resynchronizing (e : DecodeError) (h : s.lstate = .resynchronizing) :
    onInvalid e s = .next (s.rolledBack s.fault) := by
  simp [onInvalid, h, resyncUnanswered, fail_eq]

theorem readOutcome_never (n : Nat) (h : s.reads.head? = some .never) : s.readOutcome n = none := by
  unfold State.readOutcome
  cases hr : s.reads with
  | nil => simp [hr] at h
  | cons a l => simp [hr] at h; simp [h]

theorem readOutcome_eq_none {n : Nat} (h : s.readOutcome n = none) : s.reads.head? = some .never := by
  unfold State.readOutcome at h
  split at h <;> simp_all

/-- A read returns no more bytes than it asked for (R69). -/
theorem readOutcome_length {n : Nat} {raw : List Byte} (h : s.readOutcome n = some (.bytes raw)) : raw.length ≤ n := by
  have key : ∀ o, clip n o = .bytes raw → raw.length ≤ n := by
    intro o ho
    cases o with
    | bytes l => simp only [clip, ReadOutcome.bytes.injEq] at ho; subst ho; simp [List.length_take]
    | timeout => cases ho
    | error => cases ho
  unfold State.readOutcome at h
  split at h <;> first | exact key _ (Option.some.inj h) | cases h

end Sys2Proof.Machine
end

