-- ==== Sys2Proof/Laws/Exec.lean ====
section
/-! SUPPORT. What a received block can do, said once: every instruction of the received kinds is one frame around one judgement,
and the judgement has seven outcomes. Then what `OPEN`, `RESET` and the step that accepts `TRANSCEIVE` can answer. -/

namespace Sys2Proof.Machine

/-- How a block with the right address is judged while an exchange waits (R161 step w7). -/
def judge (b : Block) (s : State) : Result :=
  match b.control with
  | .i ns m =>
    match s.phase with
    | .sendChain => resync .sequenceError s
    | .sendLast => judgeInformation ns m b.payload s
    | .recvChain => judgeInformation ns m b.payload s
  | .rPos nr =>
    match s.phase with
    | .sendChain => if s.ackedBy nr then transmit (advance { s with ssb := !s.ssb }) else resync .sequenceError s
    | .sendLast => resync .sequenceError s
    | .recvChain => resync .sequenceError s
  | .rNegSeq _ => retransmit .sequenceError s
  | .rNegOther _ => retransmit .sequenceError s
  | .sReq .resynch => resync .sequenceError s
  | .sReq .ifs =>
    match ifsValue b.payload with
    | some v => sendBlock (.sResp .ifs) b.payload id { s with ifsc := v, chunkMax := v }
    | none => resync .sequenceError s
  | .sReq .abort => sendBlock (.sResp .abort) [] (fail .sequenceError) s
  | .sReq .wtx =>
    match wtxValue b.payload with
    | some v => sendBlock (.sResp .wtx) b.payload id { s with wtm := v }
    | none => resync .sequenceError s
  | .sResp _ => resync .sequenceError s
  | .unknown _ => resync .sequenceError s

/-- How a block with the right address is judged while a resynchronization waits (R189). -/
def judgeResync (b : Block) (s : State) : Result :=
  if b.control = .sResp .resynch then resynced s else .next (s.rolledBack s.fault)

theorem exec_ofBlock (b : Block) (s : State) : exec (.ofBlock b) s = onReply b.nad (judge b) (judgeResync b) s := by
  obtain ⟨n, c, p⟩ := b
  cases c <;> first | rfl | (rename_i k; cases k <;> rfl)

/-- The seven outcomes of the judgement. -/
theorem judge_next {b : Block} {s t : State} (h : judge b s = .next t) :
    resync .sequenceError s = .next t ∨
    (∃ m, b.control = .i s.rsb m ∧ s.phase ≠ .sendChain ∧ b.payload.length ≤ s.ifsd.toNat ∧
      ((s.rspCap.toNat < s.rspLen.toNat + b.payload.length ∧ t = s.rolledBack .invalidArgument) ∨
        (s.rspLen.toNat + b.payload.length ≤ s.rspCap.toNat ∧ acceptBlock m b.payload s = .next t))) ∨
    (b.control = .rPos (!s.ssb) ∧ s.phase = .sendChain ∧ transmit (advance { s with ssb := !s.ssb }) = .next t) ∨
    ((∃ nr, b.control = .rNegSeq nr ∨ b.control = .rNegOther nr) ∧ retransmit .sequenceError s = .next t) ∨
    (∃ v, b.control = .sReq .wtx ∧ b.payload = [v] ∧ v ≠ 0#8 ∧ sendBlock (.sResp .wtx) [v] id { s with wtm := v } = .next t) ∨
    (∃ v, b.control = .sReq .ifs ∧ b.payload = [v] ∧ (1 ≤ v.toNat ∧ v.toNat ≤ 254) ∧
      sendBlock (.sResp .ifs) [v] id { s with ifsc := v, chunkMax := v } = .next t) ∨
    (b.control = .sReq .abort ∧ sendBlock (.sResp .abort) [] (fail .sequenceError) s = .next t) := by
  have info : ∀ ns m, b.control = .i ns m → s.phase ≠ .sendChain → judgeInformation ns m b.payload s = .next t →
      resync .sequenceError s = .next t ∨
      (∃ m, b.control = .i s.rsb m ∧ s.phase ≠ .sendChain ∧ b.payload.length ≤ s.ifsd.toNat ∧
        ((s.rspCap.toNat < s.rspLen.toNat + b.payload.length ∧ t = s.rolledBack .invalidArgument) ∨
          (s.rspLen.toNat + b.payload.length ≤ s.rspCap.toNat ∧ acceptBlock m b.payload s = .next t))) := by
    intro ns m hc hp h
    unfold judgeInformation at h
    by_cases hx : ns = s.rsb
    · rw [if_pos (by simp [State.expects, hx])] at h
      split at h
      · exact .inl h
      · rename_i hi
        refine .inr ⟨m, by rw [hc, hx], hp, by omega, ?_⟩
        split at h
        · rename_i hl
          cases h
          exact .inl ⟨hl, rfl⟩
        · exact .inr ⟨by omega, h⟩
    · rw [if_neg (by simp [State.expects, hx])] at h
      exact .inl h
  unfold judge at h
  split at h
  · rename_i ns m hc
    split at h
    · exact .inl h
    · rename_i hp
      rcases info ns m hc (by simp [hp]) h with h | h
      · exact .inl h
      · exact .inr (.inl h)
    · rename_i hp
      rcases info ns m hc (by simp [hp]) h with h | h
      · exact .inl h
      · exact .inr (.inl h)
  · rename_i nr hc
    split at h
    · rename_i hp
      split at h
      · rename_i ha
        have ha : nr = !s.ssb := by simpa [State.ackedBy] using ha
        exact .inr (.inr (.inl ⟨by rw [hc, ha], hp, h⟩))
      · exact .inl h
    · exact .inl h
    · exact .inl h
  · rename_i nr hc
    exact .inr (.inr (.inr (.inl ⟨⟨nr, .inl hc⟩, h⟩)))
  · rename_i nr hc
    exact .inr (.inr (.inr (.inl ⟨⟨nr, .inr hc⟩, h⟩)))
  · exact .inl h
  · rename_i hc
    split at h
    · rename_i v hv
      obtain ⟨hp, hr⟩ := ifsValue_eq_some.1 hv
      rw [hp] at h
      exact .inr (.inr (.inr (.inr (.inr (.inl ⟨v, hc, hp, hr, h⟩)))))
    · exact .inl h
  · rename_i hc
    exact .inr (.inr (.inr (.inr (.inr (.inr ⟨hc, h⟩)))))
  · rename_i hc
    split at h
    · rename_i v hv
      obtain ⟨hp, hr⟩ := wtxValue_eq_some.1 hv
      rw [hp] at h
      exact .inr (.inr (.inr (.inr (.inl ⟨v, hc, hp, hr, h⟩))))
    · exact .inl h
  · exact .inl h
  · exact .inl h

/-- What an accepted inbound I-block can answer (R164, R218, R251). -/
theorem acceptBlock_next {m : Bool} {inf : List Byte} {s t : State} (h : acceptBlock m inf s = .next t) :
    (m = true ∧
      (t = ({ acceptPayload inf s with phase := .recvChain } : State).hands true (.rPos (!s.rsb)) [] ∨
        t = (({ acceptPayload inf s with phase := .recvChain } : State).hands false (.rPos (!s.rsb)) []).rolledBack
          .channelError)) ∨
    (m = false ∧
      ((acceptPayload inf s).rspLen.toNat < 2 ∧
          t = ({ acceptPayload inf s with lstate := .idle } : State).endsWith .shortResponse ∨
        2 ≤ (acceptPayload inf s).rspLen.toNat ∧
          ∃ data, (acceptPayload inf s).rsp.readFrom 0 (acceptPayload inf s).rspLen.toNat = some data ∧
            t = complete .ok (acceptPayload inf s).rspLen (.bytes data) { acceptPayload inf s with lstate := .idle })) := by
  unfold acceptBlock at h
  split at h
  · cases h
  · split at h
    · rename_i hm
      obtain ⟨c, p, hc, -, ht⟩ := transmit_next h
      rw [State.currentBlock_recv rfl] at hc
      cases hc
      exact .inl ⟨hm, ht⟩
    · rename_i hm
      refine .inr ⟨by simpa using hm, ?_⟩
      unfold finish at h
      split at h
      · rename_i hl
        cases h
        exact .inl ⟨hl, rfl⟩
      · rename_i hl
        split at h
        · cases h
        · rename_i data hd
          cases h
          exact .inr ⟨by omega, data, hd, rfl⟩

/-- What a matched resynchronization can answer (R188 steps s6 to s8). -/
theorem resynced_next {s t : State} (h : resynced s = .next t) :
    (s.retry = 1#8 ∧ t = ({ s with retry := 0#8 } : State).rolledBack s.fault) ∨
    (s.retry ≠ 1#8 ∧
      transmit { s with ssb := false, rsb := false, retry := s.retry - 1#8, lstate := .exchanging } = .next t) := by
  rcases spend_next h with ⟨hr, rfl⟩ | ⟨hr, ht⟩
  · exact .inl ⟨hr, rfl⟩
  · exact .inr ⟨hr, ht⟩

/-- A relation between the state before and after is kept by every received block if the operations a block is built of keep it:
the way to every frame of the received kinds. -/
theorem exec_ofBlock_frame (P : State → State → Prop)
  (hrefl : ∀ s, P s s)
  (htrans : ∀ s u t, P s u → P u t → P s t)
  (hroll : ∀ s e, P s (s.rolledBack e))
  (hhands : ∀ s ok c p, P s (s.hands ok c p))
  (hls : ∀ (s:State) l f, P s { s with lstate := l, fault := f })
  (hret : ∀ (s:State) f r, P s { s with fault := f, retry := r })
  (hwtm : ∀ (s:State) v, P s { s with wtm := v })
  (hifs : ∀ (s:State) v w, P s { s with ifsc := v, chunkMax := w })
  (hbits : ∀ (s:State) a b, P s { s with ssb := a, rsb := b })
  (hadv : ∀ (s:State), P s (advance s))
  (hacc : ∀ (s:State) inf ph, P s { acceptPayload inf s with phase := ph })
  (hcomp : ∀ (s:State) st l d, P s (complete st l d s)) :
  ∀ (s t : State) (b : Block), exec (.ofBlock b) s = .next t → P s t := by
  have hsend : ∀ (s u t : State) c p (k : State → State), (∀ x, P x (k x)) → P s u → sendBlock c p k u = .next t → P s t := by
    intro s u t c p k hk hs h
    obtain ⟨-, h | h⟩ := sendBlock_next h
    · subst h; exact htrans _ _ _ (htrans _ _ _ hs (hhands _ _ _ _)) (hk _)
    · subst h; exact htrans _ _ _ (htrans _ _ _ hs (hhands _ _ _ _)) (hroll _ _)
  have htx : ∀ (s u t : State), P s u → transmit u = .next t → P s t := by
    intro s u t hs h
    obtain ⟨c, p, -, -, h⟩ := transmit_next h
    rcases h with rfl | rfl
    · exact (htrans _ _ _ hs (hhands _ _ _ _))
    · exact htrans _ _ _ (htrans _ _ _ hs (hhands _ _ _ _)) (hroll _ _)
  have hsp : ∀ (s u t : State) f k, (∀ x t, k x = .next t → P x t) → P s u → spend f k u = .next t → P s t := by
    intro s u t f k hk hs h
    rcases spend_next h with ⟨-, rfl⟩ | ⟨-, h⟩
    · exact htrans _ _ _ (htrans _ _ _ hs (hret _ _ _)) (hroll _ _)
    · exact htrans _ _ _ (htrans _ _ _ hs (hret _ _ _)) (hk _ _ h)
  have hrs : ∀ (s t : State), resync .sequenceError s = .next t → P s t := by
    intro s t h
    exact hsend s _ t _ _ id (fun x => hrefl x) (hls s _ _) h
  intro s t b h
  rw [exec_ofBlock] at h
  rcases onReply_next h with ⟨-, -, h⟩ | ⟨-, -, h⟩ | ⟨-, -, h⟩ | ⟨-, -, h⟩ | ⟨-, h⟩
  · rcases judge_next h with h | ⟨m, -, -, -, h⟩ | ⟨-, -, h⟩ | ⟨-, h⟩ | ⟨v, -, -, -, h⟩ | ⟨v, -, -, -, h⟩ | ⟨-, h⟩
    · exact hrs _ _ h
    · rcases h with ⟨-, rfl⟩ | ⟨-, h⟩
      · exact hroll _ _
      · rcases acceptBlock_next h with ⟨-, h⟩ | ⟨-, h⟩
        · rcases h with rfl | rfl
          · exact htrans _ _ _ (hacc s _ _) (hhands _ _ _ _)
          · exact htrans _ _ _ (htrans _ _ _ (hacc s _ _) (hhands _ _ _ _)) (hroll _ _)
        · have ha : P s (acceptPayload b.payload s) := hacc s b.payload s.phase
          rcases h with ⟨-, rfl⟩ | ⟨-, d, -, rfl⟩
          · exact htrans _ _ _ (htrans _ _ _ ha (hls _ .idle _)) (hcomp _ _ _ _)
          · exact htrans _ _ _ (htrans _ _ _ ha (hls _ .idle _)) (hcomp _ _ _ _)
    · exact htx _ _ _ (htrans _ _ _ (hbits s _ _) (hadv _)) h
    · exact hsp _ _ _ _ _ (fun x t h => htx _ _ _ (hrefl x) h) (hrefl _) h
    · exact hsend _ _ _ _ _ _ (fun x => hrefl x) (hwtm s v) h
    · exact hsend _ _ _ _ _ _ (fun x => hrefl x) (hifs s v v) h
    · exact hsend _ _ _ _ _ _ (fun x => hroll x _) (hrefl s) h
  · exact hrs _ _ h
  · unfold judgeResync at h
    split at h
    · exact hsp _ _ _ _ _ (fun x t h => htx _ _ _ (hls _ _ _) h) (hbits s _ _) h
    · cases h; exact hroll _ _
  · subst h; exact hroll _ _
  · subst h; exact hrefl _

/-! ### The host commands -/

/-- What `OPEN` can answer: refused, without effect while the engine is busy, or the acquire and what follows it (R244). -/
theorem execOpenCmd_next {s t : State} {cfg : List Byte} {host chip : Byte} {mode : EdcMode}
    (h : exec (.openCmd cfg host chip mode) s = .next t) :
    t = s.endsWith .invalidArgument ∨ t = s ∨
    (s.lstate = .closed ∧ addressesLegal host chip = true ∧ t = acquireAndBind cfg host chip mode s) := by
  simp only [exec, execOpenCmd] at h
  rcases onCommand_next h with ⟨-, h⟩ | h
  · split at h
    · rename_i hl
      split at h
      · rename_i ha
        cases h
        exact .inr (.inr ⟨hl, ha, rfl⟩)
      · cases h; exact .inl rfl
    · cases h; exact .inl rfl
  · exact .inr (.inl h)

theorem takeAtr_of_wellFormed {wf : List Byte → Bool} {a : List Byte} (h : wf a = true) (s : State) :
    takeAtr wf a s =
      complete .ok (BitVec.ofNat 16 a.length) (.bytes a)
        { s with atrb := s.atrb.writeFrom 0 a, atrLen := BitVec.ofNat 8 a.length } := if_pos h

theorem takeAtr_of_malformed {wf : List Byte → Bool} {a : List Byte} (h : wf a = false) (s : State) :
    takeAtr wf a s = s.endsWith .malformedLength := if_neg (by simp [h])

@[simp] theorem takeAtr_lstate (wf : List Byte → Bool) (a : List Byte) (s : State) : (takeAtr wf a s).lstate = s.lstate := by
  unfold takeAtr
  split <;> rfl

/-- What `RESET` can answer: refused, without effect while the engine is busy, or the pulse and one read, which fails with a status
and no data or returns an answer-to-reset of at most `ATR_MAX` bytes (R246). -/
theorem execResetCmd_next {s t : State} (h : exec .resetCmd s = .next t) :
    t = s.endsWith .invalidArgument ∨ t = s ∨
    (s.atRest ∧ ∃ o, (resetPulse s).readOutcome 33 = some o ∧
      ((∃ st ∈ [Status.channelError, .timeout, .malformedLength],
          t = (afterRead 33 Config.atrTimeout o (resetPulse s)).endsWith st) ∨
        ∃ a, o = .bytes a ∧ a.length ≤ 33 ∧ Config.atrWellFormed a = true ∧
          t = takeAtr Config.atrWellFormed a (afterRead 33 Config.atrTimeout o (resetPulse s)))) := by
  simp only [exec, execResetCmd] at h
  rcases onCommand_next h with ⟨hr, h⟩ | h
  · split at h
    · rename_i hl
      refine .inr (.inr ⟨hr.resolve_left fun hc => by simp [hc, LState.session] at hl, ?_⟩)
      unfold readAtr at h
      split at h
      · cases h
      · rename_i ho
        cases h
        exact ⟨_, ho, .inl ⟨_, by simp, rfl⟩⟩
      · rename_i ho
        cases h
        exact ⟨_, ho, .inl ⟨_, by simp, rfl⟩⟩
      · rename_i a ho
        cases h
        refine ⟨_, ho, ?_⟩
        cases hw : Config.atrWellFormed a
        · exact .inl ⟨.malformedLength, by simp, takeAtr_of_malformed hw _⟩
        · exact .inr ⟨a, rfl, readOutcome_length ho, hw, rfl⟩
    · cases h; exact .inl rfl
  · exact .inr (.inl h)

/-- What the step that accepts `TRANSCEIVE` can answer: refused, without effect while the engine is busy, or the first block sent
(R248, R249, R210). -/
theorem execTransceiveCmd_next {s t : State} {apdu : List Byte} {cap : Half} (h : exec (.transceiveCmd apdu cap) s = .next t) :
    t = s.endsWith .invalidArgument ∨ t = s ∨
    (s.atRest ∧ requestLegal apdu cap = true ∧ transmit (exchangeStart (acceptRequest apdu cap s)) = .next t) := by
  simp only [exec, execTransceiveCmd] at h
  rcases onCommand_next h with ⟨hr, h⟩ | h
  · split at h
    · rename_i hl
      rw [Bool.and_eq_true] at hl
      exact .inr (.inr ⟨hr.resolve_left fun hc => by simp [hc, LState.session] at hl, hl.2, h⟩)
    · cases h; exact .inl rfl
  · exact .inr (.inl h)

end Sys2Proof.Machine
end

