-- ==== Sys2Proof/Laws/PerInstr.lean ====
section
/-! SUPPORT. Per-instruction families: a statement about each instruction as syntax, one lemma per constructor. -/

/-- Which port an instruction arrives on: a received kind is the Block it arrived in and encodes to that Block's raw bytes, whatever
the mode; a command encodes to a command whose code is its row's (R80, R100). -/
def Sys2Proof.Laws.Port.Statement (i : Sys2Proof.Instr) : Prop :=
  match Sys2Proof.Instr.block i with
  | some b =>
    i = Sys2Proof.Instr.ofBlock b ∧
      ∀ mode : Sys2Proof.EdcMode, Sys2Proof.encode mode i = Sys2Proof.PortWord.block (Sys2Proof.Block.wire mode b)
  | none =>
    ∃ c : Sys2Proof.HostCmd, ∀ mode : Sys2Proof.EdcMode, Sys2Proof.encode mode i = Sys2Proof.PortWord.command c

namespace Sys2Proof.Laws.Port

theorem iBlock (nad : Byte) (ns m : Bool) (inf : List Byte) : Statement (.iBlock nad ns m inf) := ⟨rfl, fun _ => rfl⟩
theorem rPos (nad : Byte) (nr : Bool) (inf : List Byte) : Statement (.rPos nad nr inf) := ⟨rfl, fun _ => rfl⟩
theorem rNegSeq (nad : Byte) (nr : Bool) (inf : List Byte) : Statement (.rNegSeq nad nr inf) := ⟨rfl, fun _ => rfl⟩
theorem rNegOther (nad : Byte) (nr : Bool) (inf : List Byte) : Statement (.rNegOther nad nr inf) := ⟨rfl, fun _ => rfl⟩
theorem sReqResynch (nad : Byte) (inf : List Byte) : Statement (.sReqResynch nad inf) := ⟨rfl, fun _ => rfl⟩
theorem sReqIfs (nad : Byte) (inf : List Byte) : Statement (.sReqIfs nad inf) := ⟨rfl, fun _ => rfl⟩
theorem sReqAbort (nad : Byte) (inf : List Byte) : Statement (.sReqAbort nad inf) := ⟨rfl, fun _ => rfl⟩
theorem sReqWtx (nad : Byte) (inf : List Byte) : Statement (.sReqWtx nad inf) := ⟨rfl, fun _ => rfl⟩
theorem sRespResynch (nad : Byte) (inf : List Byte) : Statement (.sRespResynch nad inf) := ⟨rfl, fun _ => rfl⟩
theorem sRespIfs (nad : Byte) (inf : List Byte) : Statement (.sRespIfs nad inf) := ⟨rfl, fun _ => rfl⟩
theorem sRespAbort (nad : Byte) (inf : List Byte) : Statement (.sRespAbort nad inf) := ⟨rfl, fun _ => rfl⟩
theorem sRespWtx (nad : Byte) (inf : List Byte) : Statement (.sRespWtx nad inf) := ⟨rfl, fun _ => rfl⟩
theorem unknown (nad raw : Byte) (inf : List Byte) : Statement (.unknown nad raw inf) := ⟨rfl, fun _ => rfl⟩
theorem openCmd (cfg : List Byte) (hostAddr chipAddr : Byte) (mode : EdcMode) :
    Statement (.openCmd cfg hostAddr chipAddr mode) := ⟨_, fun _ => rfl⟩
theorem resetCmd : Statement .resetCmd := ⟨_, fun _ => rfl⟩
theorem transceiveCmd (apdu : List Byte) (cap : Half) : Statement (.transceiveCmd apdu cap) := ⟨_, fun _ => rfl⟩
theorem closeCmd : Statement .closeCmd := ⟨_, fun _ => rfl⟩
theorem encodeCmd (mode : EdcMode) (nad : Byte) (control : Control) (payload : List Byte) :
    Statement (.encodeCmd mode nad control payload) := ⟨_, fun _ => rfl⟩
theorem decodeCmd (mode : EdcMode) (raw : List Byte) : Statement (.decodeCmd mode raw) := ⟨_, fun _ => rfl⟩
theorem unassignedCmd (code : Byte) : Statement (.unassignedCmd code) := ⟨_, fun _ => rfl⟩

end Sys2Proof.Laws.Port
end

