-- ==== Sys2Proof/Tests/Slice0.lean ====
section
/-! SUPPORT. The model's own tests: ill-formed terms refused, every row's word decoded, one-step tests whose expected results are
the vectors of 95_test_vectors.md, and a witness for the hypotheses of every statement. -/

namespace Sys2Proof.Tests

open Sys2Proof Sys2Proof.Machine

/-! ### Helpers -/

/-- A field of the next state. -/
def after {α : Type} (r : Result) (f : State → α) : Option α :=
  match r with
  | .next t => some (f t)
  | .fault _ => none
  | .refused _ => none

/-- The next state itself. -/
def State.orSelf (s : State) (r : Result) : State :=
  match r with
  | .next t => t
  | .fault _ => s
  | .refused _ => s

/-- The raw block the last channel call wrote. -/
def lastWrite (t : State) : List Byte :=
  match t.events with
  | .write raw _ :: _ => raw
  | _ => []

/-- The start state of the link vectors: after `OPEN(cfg, 2, 1, LRC)`. -/
def opened : State :=
  { State.reset with lstate := .idle, nadTx := 0x12#8, nadRx := 0x21#8, ifsc := 32#8, ifsd := 32#8, wtm := 1#8, held := true }

/-- The request of most link vectors. -/
def select : List Byte := [0x00#8, 0xA4#8, 0x04#8, 0x00#8]

/-- `TRANSCEIVE(select, 258)` presented, the channel taking the block. -/
def asking : State :=
  { opened with hostIn := [{ HostCmd.bare 0x03#8 with apdu := select, cap := 258#16 }], writes := [true] }

/-- An exchange of `select` waiting for its reply: `SendLast`, one chunk. -/
def waiting : State :=
  { opened with
    lstate := .exchanging, phase := .sendLast, lkgIfsc := 32#8, lkgIfsd := 32#8, retry := 3#8, reqLen := 4#16, rspCap := 258#16
    txLen := 4#8, chunkMax := 32#8, req := [(0, 0x00#8), (1, 0xA4#8), (2, 0x04#8), (3, 0x00#8)], writes := [true] }

/-- Step 4 of program B after its first write: CRC mode, `IFSC = 4`, ten bytes cut in three, both bits 1. -/
def chaining : State :=
  { opened with
    edcMode := .crc, lstate := .exchanging, phase := .sendChain, ssb := true, rsb := true, ifsc := 4#8
    lkgSsb := true, lkgRsb := true, lkgIfsc := 4#8, lkgIfsd := 32#8, retry := 3#8, reqLen := 10#16, rspCap := 258#16
    txLen := 4#8, txMore := true, chunkMax := 4#8
    req := [(0, 0x80#8), (1, 0xE2#8), (2, 0x00#8), (3, 0x00#8), (4, 0x05#8), (5, 0x01#8), (6, 0x02#8), (7, 0x03#8), (8, 0x04#8),
      (9, 0x05#8)]
    writes := [true] }

/-- The same exchange after `I(1,1)[AA BB CC]` was accepted: `RecvChain`. -/
def receiving : State :=
  { chaining with
    phase := .recvChain, ssb := false, rsb := false, txOff := 8#16, txLen := 2#8, txMore := false, rspLen := 3#16
    rsp := [(0, 0xAA#8), (1, 0xBB#8), (2, 0xCC#8)] }

/-- The exchange of `select` after a timeout: the resynchronization request is out. -/
def resyncing : State := { waiting with lstate := .resynchronizing, fault := .timeout }

/-- The channel's next answer is these bytes. -/
def replying (s : State) (raw : List Byte) : State := { s with reads := [.returns (.bytes raw)] }

/-! ### Well-formedness: an ill-formed term for each check -/

/-- A payload one byte longer than a block can carry. -/
def tooLong : List Byte := List.replicate 255 0#8

/-- The longest payload of a block. -/
def longest : List Byte := List.replicate 254 0#8

theorem tooLong_length : tooLong.length = 255 := List.length_replicate
theorem longest_length : longest.length = 254 := List.length_replicate
theorem tooLong_refused : payloadFits tooLong = false := by
  rw [Bool.eq_false_iff, ne_eq, payloadFits_iff, tooLong_length]
  omega
theorem longest_fits : payloadFits longest = true := payloadFits_iff.2 (Nat.le_of_eq longest_length)

theorem test_wf_i_payload : (Instr.iBlock 0x21#8 false false tooLong).wellFormed = false := tooLong_refused
theorem test_wf_i_payload_max : (Instr.iBlock 0x21#8 false false longest).wellFormed = true := longest_fits
theorem test_wf_rpos : (Instr.rPos 0x21#8 false tooLong).wellFormed = false := tooLong_refused
theorem test_wf_rnegseq : (Instr.rNegSeq 0x21#8 false tooLong).wellFormed = false := tooLong_refused
theorem test_wf_rnegother : (Instr.rNegOther 0x21#8 false tooLong).wellFormed = false := tooLong_refused
theorem test_wf_sreq_resynch : (Instr.sReqResynch 0x21#8 tooLong).wellFormed = false := tooLong_refused
theorem test_wf_sreq_ifs : (Instr.sReqIfs 0x21#8 tooLong).wellFormed = false := tooLong_refused
theorem test_wf_sreq_abort : (Instr.sReqAbort 0x21#8 tooLong).wellFormed = false := tooLong_refused
theorem test_wf_sreq_wtx : (Instr.sReqWtx 0x21#8 tooLong).wellFormed = false := tooLong_refused
theorem test_wf_sresp_resynch : (Instr.sRespResynch 0x21#8 tooLong).wellFormed = false := tooLong_refused
theorem test_wf_sresp_ifs : (Instr.sRespIfs 0x21#8 tooLong).wellFormed = false := tooLong_refused
theorem test_wf_sresp_abort : (Instr.sRespAbort 0x21#8 tooLong).wellFormed = false := tooLong_refused
theorem test_wf_sresp_wtx : (Instr.sRespWtx 0x21#8 tooLong).wellFormed = false := tooLong_refused
theorem test_wf_unknown_payload : (Instr.unknown 0x21#8 0x1F#8 tooLong).wellFormed = false := by
  simp [Instr.wellFormed, tooLong_refused]
theorem test_wf_unknown_recognized : (Instr.unknown 0x21#8 0xC1#8 []).wellFormed = false := by decide
theorem test_wf_encode_control : (Instr.encodeCmd .lrc 0#8 (.unknown 0x60#8) []).wellFormed = false := by decide
theorem test_wf_unassigned : (Instr.unassignedCmd 0x11#8).wellFormed = false := by decide
/-- V18: exactly 18 control bytes are recognized. -/
theorem test_recognized_count : recognizedControlBytes.length = 18 ∧ recognizedControlBytes.Nodup := by decide

/-! ### Decoding: every row's word, written out from the encoding tables (R88 to R91, R100) -/

theorem test_decode_i : decodeTableWord 8 0b01000000 = some (.iBlock 0#8 true false []) := by decide
theorem test_decode_rpos : decodeTableWord 8 0b10010000 = some (.rPos 0#8 true []) := by decide
theorem test_decode_rnegseq : decodeTableWord 8 0b10010001 = some (.rNegSeq 0#8 true []) := by decide
theorem test_decode_rnegother : decodeTableWord 8 0b10000010 = some (.rNegOther 0#8 false []) := by decide
theorem test_decode_sreq_resynch : decodeTableWord 8 0b11000000 = some (.sReqResynch 0#8 []) := by decide
theorem test_decode_sreq_ifs : decodeTableWord 8 0b11000001 = some (.sReqIfs 0#8 []) := by decide
theorem test_decode_sreq_abort : decodeTableWord 8 0b11000010 = some (.sReqAbort 0#8 []) := by decide
theorem test_decode_sreq_wtx : decodeTableWord 8 0b11000011 = some (.sReqWtx 0#8 []) := by decide
theorem test_decode_sresp_resynch : decodeTableWord 8 0b11100000 = some (.sRespResynch 0#8 []) := by decide
theorem test_decode_sresp_ifs : decodeTableWord 8 0b11100001 = some (.sRespIfs 0#8 []) := by decide
theorem test_decode_sresp_abort : decodeTableWord 8 0b11100010 = some (.sRespAbort 0#8 []) := by decide
theorem test_decode_sresp_wtx : decodeTableWord 8 0b11100011 = some (.sRespWtx 0#8 []) := by decide
theorem test_decode_unknown : decodeTableWord 8 0b10100000 = some (.unknown 0#8 0xA0#8 []) := by decide
theorem test_decode_open : decodeTableWord 8 0b00000001 = some (.openCmd [] 0#8 0#8 .lrc) := by decide
theorem test_decode_reset : decodeTableWord 8 0b00000010 = some .resetCmd := by decide
theorem test_decode_transceive : decodeTableWord 8 0b00000011 = some (.transceiveCmd [] 0#16) := by decide
theorem test_decode_close : decodeTableWord 8 0b00000100 = some .closeCmd := by decide
theorem test_decode_encode : decodeTableWord 8 0b00010000 = some (.encodeCmd .lrc 0#8 (.i false false) []) := by decide
theorem test_decode_decode : decodeTableWord 8 0b00010001 = some (.decodeCmd .lrc []) := by decide
theorem test_decode_unassigned : decodeCommand (HostCmd.bare 0x05#8) = .unassignedCmd 0x05#8 := by decide
theorem test_decode_table_refuses : decodeTableWord 7 0 = none ∧ decodeTableWord 8 0x100 = none := by decide

/-- V40, V41, V42: a block, a wrong checksum, a wrong length. -/
theorem test_decode_block :
    decodeBlock .lrc [0x21#8, 0x00#8, 0x02#8, 0x90#8, 0x00#8, 0xB3#8] = .ok ⟨0x21#8, .i false false, [0x90#8, 0x00#8]⟩ ∧
    decodeBlock .lrc [0x21#8, 0x00#8, 0x02#8, 0x90#8, 0x00#8, 0xB2#8] = .error .checksumMismatch ∧
    decodeBlock .lrc [0x21#8, 0x00#8, 0x03#8, 0x90#8, 0x00#8, 0xB2#8] = .error .malformedLength := by decide
/-- V46, V50, V52: CRC mode. -/
theorem test_decode_block_crc :
    decodeBlock .crc [0x21#8, 0x80#8, 0x00#8, 0x21#8] = .error .malformedLength ∧
    decodeBlock .crc [0x21#8, 0x00#8, 0x02#8, 0x90#8, 0x00#8, 0x09#8, 0x47#8] = .error .checksumMismatch ∧
    decodeBlock .crc [0x21#8, 0x00#8, 0x02#8, 0x90#8, 0x00#8, 0x08#8, 0x47#8] =
      .ok ⟨0x21#8, .i false false, [0x90#8, 0x00#8]⟩ := by decide +kernel
/-- V4, V5, V6: the check value of the CRC. -/
theorem test_crc :
    crc16 [0x31#8, 0x32#8, 0x33#8, 0x34#8, 0x35#8, 0x36#8, 0x37#8, 0x38#8, 0x39#8] = 0x906E#16 ∧ crc16 [] = 0#16 ∧
    crc16 [0#8] = 0xF078#16 := by decide +kernel
/-- V2, V1: the LRC. -/
theorem test_lrc : edcLrc [0x12#8, 0x00#8, 0x04#8, 0x00#8, 0xA4#8, 0x04#8, 0x00#8] = 0xB6#8 ∧ edcLrc [] = 0#8 := by decide
/-- V20, V21, V33: raw blocks. -/
theorem test_encode_block :
    encodeBlock .lrc ⟨0x12#8, .i false false, select⟩ =
      some [0x12#8, 0x00#8, 0x04#8, 0x00#8, 0xA4#8, 0x04#8, 0x00#8, 0xB6#8] ∧
    encodeBlock .crc ⟨0x12#8, .i true true, [0xDE#8, 0xAD#8]⟩ =
      some [0x12#8, 0x60#8, 0x02#8, 0xDE#8, 0xAD#8, 0xFA#8, 0x27#8] ∧
    encodeBlock .crc ⟨0x21#8, .sReq .wtx, [0x02#8]⟩ = some [0x21#8, 0xC3#8, 0x01#8, 0x02#8, 0xB0#8, 0x02#8] := by decide +kernel

/-! ### One step each: the vectors of 95_test_vectors.md -/

/-- P1, first write: `12 00 04 00 A4 04 00 B6`. -/
theorem test_transceive_p1 :
    after (step asking) (fun t => (lastWrite t, t.lstate, t.phase, t.retry)) =
      some ([0x12#8, 0x00#8, 0x04#8, 0x00#8, 0xA4#8, 0x04#8, 0x00#8, 0xB6#8], .exchanging, .sendLast, 3#8) := by decide
/-- P21: a request of 3 bytes is refused without channel I/O. -/
theorem test_transceive_p21 :
    after (exec (.transceiveCmd [0x00#8, 0xA4#8, 0x04#8] 258#16) opened) (fun t => (t.status, t.lstate, t.events)) =
      some (.invalidArgument, .idle, []) := by decide
/-- P1, the reply `21 00 02 90 00 B3`: OK, data 90 00, both bits toggled. -/
theorem test_i_p1 :
    after (step (replying waiting [0x21#8, 0x00#8, 0x02#8, 0x90#8, 0x00#8, 0xB3#8]))
        (fun t => (t.status, t.resLen, t.result, t.lstate, t.ssb, t.rsb)) =
      some (.ok, 2#16, .bytes [0x90#8, 0x00#8], .idle, true, true) := by decide
/-- Program B step 4: `21 60 03 AA BB CC 5C B1` in `SendLast` is answered `12 80 00 7A 2D`; `SSB` and `RSB` become 0. -/
theorem test_i_program_b :
    after (step (replying { chaining with phase := .sendLast, txOff := 8#16, txLen := 2#8, txMore := false }
          [0x21#8, 0x60#8, 0x03#8, 0xAA#8, 0xBB#8, 0xCC#8, 0x5C#8, 0xB1#8]))
        (fun t => (lastWrite t, t.phase, t.ssb, t.rsb, t.rsp.readFrom 0 3)) =
      some ([0x12#8, 0x80#8, 0x00#8, 0x7A#8, 0x2D#8], .recvChain, false, false,
        some [0xAA#8, 0xBB#8, 0xCC#8]) := by decide +kernel
/-- Program B step 4: `21 80 00 13 E7` acknowledges the first chunk, `12 20 04 05 01 02 03 93 D2` follows. -/
theorem test_rpos_program_b :
    after (step (replying chaining [0x21#8, 0x80#8, 0x00#8, 0x13#8, 0xE7#8])) (fun t => (lastWrite t, t.ssb, t.txOff)) =
      some ([0x12#8, 0x20#8, 0x04#8, 0x05#8, 0x01#8, 0x02#8, 0x03#8, 0x93#8, 0xD2#8], false, 4#16) := by decide +kernel
/-- P17: `21 90 00 B1` in `SendLast` is unexpected, `12 C0 00 D2` follows. -/
theorem test_rpos_p17 :
    after (step (replying waiting [0x21#8, 0x90#8, 0x00#8, 0xB1#8])) (fun t => (lastWrite t, t.lstate, t.fault, t.retry)) =
      some ([0x12#8, 0xC0#8, 0x00#8, 0xD2#8], .resynchronizing, .sequenceError, 3#8) := by decide
/-- R165: `21 81 00 A0` (V25) costs a unit and the same block goes out again. -/
theorem test_rnegseq :
    after (step (replying waiting [0x21#8, 0x81#8, 0x00#8, 0xA0#8])) (fun t => (lastWrite t, t.retry, t.lstate)) =
      some ([0x12#8, 0x00#8, 0x04#8, 0x00#8, 0xA4#8, 0x04#8, 0x00#8, 0xB6#8], 2#8, .exchanging) := by decide
/-- P8: `21 92 00 B3` with `SSB = 1`: `12 40 04 00 A4 04 00 F6` again. -/
theorem test_rnegother_p8 :
    after (step (replying { waiting with ssb := true, rsb := true } [0x21#8, 0x92#8, 0x00#8, 0xB3#8]))
        (fun t => (lastWrite t, t.retry, t.ssb)) =
      some ([0x12#8, 0x40#8, 0x04#8, 0x00#8, 0xA4#8, 0x04#8, 0x00#8, 0xF6#8], 2#8, true) := by decide
/-- R174: the peer may not ask for a resynchronization. -/
theorem test_sreq_resynch :
    after (exec (.sReqResynch 0x21#8 []) waiting) (fun t => (lastWrite t, t.fault)) =
      some ([0x12#8, 0xC0#8, 0x00#8, 0xD2#8], .sequenceError) := by decide
/-- Program B step 3: `21 C1 01 04 60 8C` is echoed `12 E1 01 04 0A 88`, `IFSC` is 4. -/
theorem test_sreq_ifs_program_b :
    after (step (replying { waiting with edcMode := .crc } [0x21#8, 0xC1#8, 0x01#8, 0x04#8, 0x60#8, 0x8C#8]))
        (fun t => (lastWrite t, t.ifsc, t.chunkMax, t.txLen, t.retry)) =
      some ([0x12#8, 0xE1#8, 0x01#8, 0x04#8, 0x0A#8, 0x88#8], 4#8, 4#8, 4#8, 3#8) := by decide +kernel
/-- P10: `21 C2 00 E3` is answered `12 E2 00 F0`, and the exchange ends with `SequenceError`. -/
theorem test_sreq_abort_p10 :
    after (step (replying waiting [0x21#8, 0xC2#8, 0x00#8, 0xE3#8])) (fun t => (lastWrite t, t.status, t.lstate, t.retry)) =
      some ([0x12#8, 0xE2#8, 0x00#8, 0xF0#8], .sequenceError, .idle, 3#8) := by decide
/-- P7: `21 C3 01 03 E0` is echoed `12 E3 01 03 F3`, `WTM` is 3. -/
theorem test_sreq_wtx_p7 :
    after (step (replying waiting [0x21#8, 0xC3#8, 0x01#8, 0x03#8, 0xE0#8])) (fun t => (lastWrite t, t.wtm, t.retry)) =
      some ([0x12#8, 0xE3#8, 0x01#8, 0x03#8, 0xF3#8], 3#8, 3#8) := by decide
/-- P23: a multiplier of 0 is malformed. -/
theorem test_sreq_wtx_p23 :
    after (step (replying waiting [0x21#8, 0xC3#8, 0x01#8, 0x00#8, 0xE3#8])) (fun t => (lastWrite t, t.wtm)) =
      some ([0x12#8, 0xC0#8, 0x00#8, 0xD2#8], 1#8) := by decide
/-- P5: `21 E0 00 C1` after the request: bits 0, budget 3 to 2, the current block again. -/
theorem test_sresp_resynch_p5 :
    after (step (replying resyncing [0x21#8, 0xE0#8, 0x00#8, 0xC1#8])) (fun t => (lastWrite t, t.retry, t.lstate, t.ssb)) =
      some ([0x12#8, 0x00#8, 0x04#8, 0x00#8, 0xA4#8, 0x04#8, 0x00#8, 0xB6#8], 2#8, .exchanging, false) := by decide
/-- P20, end: the last unit goes to a resynchronization, the exchange fails with the fault that started it. -/
theorem test_sresp_resynch_p20 :
    after (step (replying { resyncing with retry := 1#8 } [0x21#8, 0xE0#8, 0x00#8, 0xC1#8]))
        (fun t => (t.status, t.retry, t.lstate)) = some (.timeout, 0#8, .idle) := by decide
/-- R179: never outstanding. -/
theorem test_sresp_ifs :
    after (exec (.sRespIfs 0x21#8 [4#8]) waiting) (fun t => (lastWrite t, t.ifsc)) =
      some ([0x12#8, 0xC0#8, 0x00#8, 0xD2#8], 32#8) := by decide
/-- R180. -/
theorem test_sresp_abort :
    after (exec (.sRespAbort 0x21#8 []) waiting) (fun t => (lastWrite t, t.lstate)) =
      some ([0x12#8, 0xC0#8, 0x00#8, 0xD2#8], .resynchronizing) := by decide
/-- R181. -/
theorem test_sresp_wtx :
    after (exec (.sRespWtx 0x21#8 [3#8]) waiting) (fun t => (lastWrite t, t.wtm)) =
      some ([0x12#8, 0xC0#8, 0x00#8, 0xD2#8], 1#8) := by decide
/-- P20, start: `21 01 00 20` is `Unknown(0x01)`. -/
theorem test_unknown_p20 :
    after (step (replying waiting [0x21#8, 0x01#8, 0x00#8, 0x20#8])) (fun t => (lastWrite t, t.fault)) =
      some ([0x12#8, 0xC0#8, 0x00#8, 0xD2#8], .sequenceError) := by decide
/-- P18: `12 00 02 90 00 80` has the wrong address. -/
theorem test_address_p18 :
    after (step (replying waiting [0x12#8, 0x00#8, 0x02#8, 0x90#8, 0x00#8, 0x80#8])) (fun t => (lastWrite t, t.rspLen)) =
      some ([0x12#8, 0xC0#8, 0x00#8, 0xD2#8], 0#16) := by decide
/-- P6: a timeout of the request fails with the fault that started it. -/
theorem test_timeout_p6 :
    after (step { resyncing with reads := [.returns .timeout] }) (fun t => (t.status, t.lstate, t.retry)) =
      some (.timeout, .idle, 3#8) := by decide
/-- P13: a channel error after an acknowledged chunk, `SSB` rolled back. -/
theorem test_error_p13 :
    after (step { chaining with ssb := false, reads := [.returns .error] }) (fun t => (t.status, t.lstate, t.ssb, t.retry)) =
      some (.channelError, .idle, true, 3#8) := by decide
/-- P12 with `SIZE_NAK` true, scaled to the chunk of program B: 4 bytes become 2, same bit, same offset. -/
theorem test_halve_p12 :
    after (negative true chaining) (fun t => (t.txLen, t.chunkMax, t.txMore, t.retry, t.ssb, t.ifsc)) =
      some (2#8, 2#8, true, 2#8, true, 4#8) := by decide
/-- V60: `OPEN(cfg, 2, 1, LRC)` gives `NAD_TX = 0x12`, `NAD_RX = 0x21`, `Idle`. -/
theorem test_open :
    after (exec (.openCmd [] 2#8 1#8 .lrc) { State.reset with acquires := [true] })
        (fun t => (t.nadTx, t.nadRx, t.lstate, t.ifsc, t.wtm, t.status)) =
      some (0x12#8, 0x21#8, .idle, 32#8, 1#8, .ok) := by decide
/-- V62: a host address of 8. -/
theorem test_open_v62 :
    after (exec (.openCmd [] 8#8 1#8 .lrc) State.reset) (fun t => (t.status, t.lstate, t.events)) =
      some (.invalidArgument, .closed, []) := by decide
/-- V67, V69, V70: the bytes a `RESET` read, judged by the default predicate. -/
theorem test_reset_v67_v69_v70 :
    ((fun t => (t.status, t.result, t.atrLen)) (takeAtr atrDefault [0x3B#8, 0x80#8, 0x01#8] opened) =
      (.ok, .bytes [0x3B#8, 0x80#8, 0x01#8], 3#8)) ∧
    (takeAtr atrDefault [0x00#8, 0x00#8] opened).status = .malformedLength ∧
    (takeAtr atrDefault [0x3B#8] opened).status = .malformedLength := by decide
/-- V68: a timeout, and the registers are at their defaults all the same. -/
theorem test_reset_v68 :
    after (exec .resetCmd { opened with ssb := true, rsb := true, ifsc := 4#8, reads := [.returns .timeout] })
        (fun t => (t.status, t.ssb, t.rsb, t.ifsc, t.atrLen, t.lstate)) =
      some (.timeout, false, false, 32#8, 0#8, .awaitingAtr) := by decide
/-- Program B step 5: one release, `Closed`. -/
theorem test_close :
    after (exec .closeCmd opened) (fun t => (t.status, t.lstate, t.held, t.events)) =
      some (.ok, .closed, false, [.release]) := by decide
/-- V66: `CLOSE` in `Closed`. -/
theorem test_close_v66 :
    after (exec .closeCmd State.reset) (fun t => (t.status, t.lstate, t.events)) = some (.ok, .closed, []) := by decide
/-- V23 through the CODEC port. -/
theorem test_encode_port :
    after (exec (.encodeCmd .crc 0x12#8 (.rPos false) []) State.reset) (fun t => (t.status, t.result)) =
      some (.ok, .rawBlock [0x12#8, 0x80#8, 0x00#8, 0x7A#8, 0x2D#8]) := by decide +kernel
/-- V39 through the CODEC port. -/
theorem test_encode_port_v39 :
    after (exec (.encodeCmd .lrc 0x12#8 (.i false false) tooLong) opened) (fun t => (t.status, t.result, t.txb)) =
      some (.payloadTooLong, .none, []) := by decide +kernel
/-- V54 through the CODEC port. -/
theorem test_decode_port :
    after (exec (.decodeCmd .lrc [0x12#8, 0xE3#8, 0x01#8, 0x03#8, 0xF3#8]) opened) (fun t => (t.status, t.result)) =
      some (.ok, .block ⟨0x12#8, .sResp .wtx, [0x03#8]⟩) := by decide
/-- V74: the code 0x05. -/
theorem test_unassigned_v74 :
    after (exec (.unassignedCmd 0x05#8) opened) (fun t => (t.status, t.lstate, t.events)) =
      some (.invalidArgument, .idle, []) := by decide

/-! ### The invariant holds in the states the witnesses use -/

theorem opened_inv : opened.Inv where
  notFailed := by decide
  held := by decide
  buffers := by intro b; cases b <;> decide
  session := fun _ => ⟨by decide, by decide, by decide, by decide⟩
  resting := by decide
  waiting := by decide
  resync := by decide
  exchange := by intro h; rcases h with h | h <;> cases h
  atr := by decide
  reply := by decide
  result := by decide

theorem waiting_inv : waiting.Inv where
  notFailed := by decide
  held := by decide
  buffers := by intro b; cases b <;> decide
  session := fun _ => ⟨by decide, by decide, by decide, by decide⟩
  resting := by decide
  waiting := by decide
  resync := by decide
  exchange := fun _ =>
    ⟨by decide, by decide, by decide, by decide, by decide, by decide, by decide, by decide, by decide, by decide, by decide,
      by decide, by decide⟩
  atr := by decide
  reply := by decide
  result := by decide

theorem chaining_inv : chaining.Inv where
  notFailed := by decide
  held := by decide
  buffers := by intro b; cases b <;> decide
  session := fun _ => ⟨by decide, by decide, by decide, by decide⟩
  resting := by decide
  waiting := by decide
  resync := by decide
  exchange := fun _ =>
    ⟨by decide, by decide, by decide, by decide, by decide, by decide, by decide, by decide, by decide, by decide, by decide,
      by decide, by decide⟩
  atr := by decide
  reply := by decide
  result := by decide

theorem receiving_inv : receiving.Inv where
  notFailed := by decide
  held := by decide
  buffers := by intro b; cases b <;> decide
  session := fun _ => ⟨by decide, by decide, by decide, by decide⟩
  resting := by decide
  waiting := by decide
  resync := by decide
  exchange := fun _ =>
    ⟨by decide, by decide, by decide, by decide, by decide, by decide, by decide, by decide, by decide, by decide, by decide,
      by decide, by decide⟩
  atr := by decide
  reply := by decide
  result := by decide

theorem resyncing_inv : resyncing.Inv where
  notFailed := by decide
  held := by decide
  buffers := by intro b; cases b <;> decide
  session := fun _ => ⟨by decide, by decide, by decide, by decide⟩
  resting := by decide
  waiting := by decide
  resync := by decide
  exchange := fun _ =>
    ⟨by decide, by decide, by decide, by decide, by decide, by decide, by decide, by decide, by decide, by decide, by decide,
      by decide, by decide⟩
  atr := by decide
  reply := by decide
  result := by decide

/-- The invariant does not read the inputs not yet taken, and of the budget only that it is 1 to 3 inside an exchange. -/
theorem inv_vary {s : State} (h : s.Inv) (r : Byte) (cmds : List HostCmd) (ws : List Bool) (rs : List ReadAnswer)
    (hr : s.inExchange → 1 ≤ r.toNat ∧ r.toNat ≤ 3) :
    ({ s with retry := r, hostIn := cmds, writes := ws, reads := rs } : State).Inv where
  notFailed := h.notFailed
  held := h.held
  buffers := by intro b; have := h.buffers b; cases b <;> exact this
  session := fun hl => ⟨(h.session hl).1, (h.session hl).2, (h.session hl).3, (h.session hl).4⟩
  resting := h.resting
  waiting := h.waiting
  resync := h.resync
  exchange := fun hl =>
    ⟨(h.exchange hl).1, (h.exchange hl).2, hr hl, (h.exchange hl).4, (h.exchange hl).5, (h.exchange hl).6,
      (h.exchange hl).7, (h.exchange hl).8, (h.exchange hl).9, (h.exchange hl).10, (h.exchange hl).11, (h.exchange hl).12,
      (h.exchange hl).13⟩
  atr := h.atr
  reply := h.reply
  result := h.result

/-! ### Witnesses: states and operands that meet the hypotheses of each statement, one for each clause -/

/-- A reply of `I(0,0)[90 00]` in LRC mode (V35). -/
def okReply : List Byte := [0x21#8, 0x00#8, 0x02#8, 0x90#8, 0x00#8, 0xB3#8]

/-- The same with its checksum changed (V41). -/
def badReply : List Byte := [0x21#8, 0x00#8, 0x02#8, 0x90#8, 0x00#8, 0xB2#8]

/-- `waiting` with one channel answer scripted. -/
def waitingFor (a : ReadAnswer) : State := { waiting with reads := [a] }

/-- `resyncing` with one channel answer scripted. -/
def resyncingFor (a : ReadAnswer) : State := { resyncing with reads := [a] }

theorem waitingFor_inv (a : ReadAnswer) : (waitingFor a).Inv := inv_vary waiting_inv 3#8 [] [true] [a] (fun _ => by decide)
theorem resyncingFor_inv (a : ReadAnswer) : (resyncingFor a).Inv := inv_vary resyncing_inv 3#8 [] [true] [a] (fun _ => by decide)

theorem witness_ControlByteMapInvertible : (Control.unknown 0x01#8).wellFormed = true := by decide

theorem witness_CodecRoundTrip_encode : (Block.mk 0x21#8 (.unknown 0xFF#8) longest).valid = true :=
  Block.valid_iff.2 ⟨by decide, Nat.le_of_eq longest_length⟩
theorem witness_CodecRoundTrip_decode : decodeBlock .lrc okReply = .ok ⟨0x21#8, .i false false, [0x90#8, 0x00#8]⟩ := by decide

theorem witness_DecodeOfEncodeIsInstruction_block : (Instr.unknown 0x21#8 0x1F#8 longest).wellFormed = true := by
  simp [Instr.wellFormed, longest_fits, recognizedControlBytes]
theorem witness_DecodeOfEncodeIsInstruction_command :
    (Instr.encodeCmd .crc 0x12#8 (.unknown 0x01#8) tooLong).wellFormed = true ∧ (Instr.unassignedCmd 0x00#8).wellFormed = true := by
  decide

theorem witness_EdcCorruptionDetected :
    (Block.mk 0x21#8 (.i false false) [0x90#8, 0x00#8]).valid = true ∧
    encodeBlock .lrc ⟨0x21#8, .i false false, [0x90#8, 0x00#8]⟩ = some okReply ∧ 3 + 2 ≤ 5 ∧ 5 < okReply.length ∧
    okReply[5]? ≠ some 0xB2#8 := by decide

theorem witness_OtherCorruptionDetected_length :
    (Block.mk 0x21#8 (.i false false) [0x90#8, 0x00#8]).valid = true ∧
    encodeBlock .lrc ⟨0x21#8, .i false false, [0x90#8, 0x00#8]⟩ = some okReply ∧ okReply[2]? ≠ some 0x03#8 := by decide
theorem witness_OtherCorruptionDetected_covered :
    (Block.mk 0x21#8 (.i false false) [0x90#8, 0x00#8]).valid = true ∧
    encodeBlock .lrc ⟨0x21#8, .i false false, [0x90#8, 0x00#8]⟩ = some okReply ∧ 4 < 3 + 2 ∧ 4 ≠ 2 ∧
    okReply[4]? ≠ some 0x01#8 ∧ okReply[0]? ≠ some 0x22#8 := by decide

theorem witness_DecodeOutcomes : decodeBlock .lrc okReply = .ok ⟨0x21#8, .i false false, [0x90#8, 0x00#8]⟩ := by decide

theorem witness_StepRunsPresentedCommand_closed :
    ({ State.reset with hostIn := [HostCmd.bare 0x04#8] } : State).lstate = .closed ∧
    ({ State.reset with hostIn := [HostCmd.bare 0x04#8] } : State).hostIn = HostCmd.bare 0x04#8 :: [] := by decide
theorem witness_StepRunsPresentedCommand_idle :
    asking.atRest ∧ asking.hostIn = { HostCmd.bare 0x03#8 with apdu := select, cap := 258#16 } :: [] := ⟨.inl rfl, rfl⟩
theorem witness_StepRunsPresentedCommand_waits :
    ({ opened with lstate := .awaitingAtr } : State).atRest ∧ ({ opened with lstate := .awaitingAtr } : State).hostIn = [] :=
  ⟨.inr rfl, rfl⟩

theorem witness_StepRunsReceivedBlock_exchanging :
    (waitingFor (.returns (.bytes okReply))).inExchange ∧
    (waitingFor (.returns (.bytes okReply))).readOutcome 259 = some (.bytes okReply) ∧
    decode (waitingFor (.returns (.bytes okReply))).edcMode (.block okReply) = .ok (.iBlock 0x21#8 false false [0x90#8, 0x00#8]) :=
  ⟨.inl rfl, by decide, by decide⟩
theorem witness_StepRunsReceivedBlock_resynchronizing :
    (resyncingFor (.returns (.bytes [0x21#8, 0xE0#8, 0x00#8, 0xC1#8]))).inExchange ∧
    (resyncingFor (.returns (.bytes [0x21#8, 0xE0#8, 0x00#8, 0xC1#8]))).readOutcome 259 =
      some (.bytes [0x21#8, 0xE0#8, 0x00#8, 0xC1#8]) ∧
    decode .lrc (.block [0x21#8, 0xE0#8, 0x00#8, 0xC1#8]) = .ok (.sRespResynch 0x21#8 []) :=
  ⟨.inr rfl, by decide, by decide⟩

theorem witness_TimeoutResynchronizes :
    (waitingFor (.returns .timeout)).lstate = .exchanging ∧ (waitingFor (.returns .timeout)).readOutcome 259 = some .timeout ∧
    ((waitingFor (.returns .timeout)).hasRead .timeout).writeAnswer = true := by decide

theorem witness_InvalidReplyRetransmits_more :
    (waitingFor (.returns (.bytes badReply))).Inv ∧ (waitingFor (.returns (.bytes badReply))).lstate = .exchanging ∧
    (waitingFor (.returns (.bytes badReply))).readOutcome 259 = some (.bytes badReply) ∧
    decodeBlock .lrc badReply = .error .checksumMismatch ∧
    (waitingFor (.returns (.bytes badReply))).currentBlock = some (.i false false, select) ∧
    ((waitingFor (.returns (.bytes badReply))).hasReadBytes badReply).writeAnswer = true ∧
    1 < (waitingFor (.returns (.bytes badReply))).retry.toNat :=
  ⟨waitingFor_inv _, by decide, by decide, by decide, by decide, by decide, by decide⟩
/-- `waiting` with one unit of the budget left and an invalid reply to come. -/
def waitingLast : State := { waiting with retry := 1#8, writes := [false], reads := [.returns (.bytes badReply)] }

theorem witness_InvalidReplyRetransmits_last :
    waitingLast.lstate = .exchanging ∧ waitingLast.readOutcome 259 = some (.bytes badReply) ∧
    decodeBlock waitingLast.edcMode badReply = .error .checksumMismatch ∧ waitingLast.retry = 1#8 := by decide

theorem witness_ChannelReadErrorFails :
    (waitingFor (.returns .error)).inExchange ∧ (waitingFor (.returns .error)).readOutcome 259 = some .error :=
  ⟨.inl rfl, by decide⟩

theorem witness_UnansweredResyncFails_timeout :
    (resyncingFor (.returns .timeout)).lstate = .resynchronizing ∧
    (resyncingFor (.returns .timeout)).readOutcome 259 = some .timeout := by decide
theorem witness_UnansweredResyncFails_invalid :
    (resyncingFor (.returns (.bytes badReply))).lstate = .resynchronizing ∧
    (resyncingFor (.returns (.bytes badReply))).readOutcome 259 = some (.bytes badReply) ∧
    decodeBlock (resyncingFor (.returns (.bytes badReply))).edcMode badReply = .error .checksumMismatch := by decide

theorem witness_ReadThatNeverReturnsIsStuck :
    ((waitingFor .never).reads.head? = some .never ∧ (waitingFor .never).inExchange) ∧
    ({ opened with reads := [.never] } : State).reads.head? = some .never ∧ ({ opened with reads := [.never] } : State).atRest :=
  ⟨⟨rfl, .inl rfl⟩, rfl, .inl rfl⟩

theorem witness_OpenBindsSession :
    ({ State.reset with acquires := [true] } : State).lstate = .closed ∧ (7#8).toNat ≤ 7 ∧ (0#8).toNat ≤ 7 ∧
    ({ State.reset with acquires := [true] } : State).acquireAnswer = true := by decide

theorem witness_OpenRefused_state : opened.atRest := .inl rfl
theorem witness_OpenRefused_address : State.reset.lstate = .closed ∧ (7 < (8#8).toNat ∨ 7 < (0#8).toNat) := by decide
theorem witness_OpenRefused_channel :
    ({ State.reset with acquires := [false] } : State).lstate = .closed ∧ (7#8).toNat ≤ 7 ∧
    ({ State.reset with acquires := [false] } : State).acquireAnswer = false := by decide

theorem witness_ResetReturnsAtr :
    (replying opened [0x3B#8, 0x80#8]).atRest ∧
    (assertReset (replying opened [0x3B#8, 0x80#8])).readOutcome 33 = some (.bytes [0x3B#8, 0x80#8]) :=
  ⟨.inl rfl, by decide⟩

theorem witness_ResetReportsFailure_closed : State.reset.lstate = .closed := rfl
theorem witness_ResetReportsFailure_error :
    ({ opened with reads := [.returns .error] } : State).atRest ∧
    (assertReset { opened with reads := [.returns .error] }).readOutcome 33 = some .error := ⟨.inl rfl, by decide⟩
theorem witness_ResetReportsFailure_timeout :
    ({ opened with reads := [.returns .timeout] } : State).atRest ∧
    (assertReset { opened with reads := [.returns .timeout] }).readOutcome 33 = some .timeout := ⟨.inl rfl, by decide⟩

theorem witness_TransceiveStartsExchange :
    asking.Inv ∧ asking.atRest ∧ 4 ≤ select.length ∧ select.length ≤ 261 ∧ 2 ≤ (258#16).toNat ∧ (258#16).toNat ≤ 258 ∧
    asking.writeAnswer = true :=
  ⟨inv_vary opened_inv 0#8 asking.hostIn [true] [] (by rintro (h | h) <;> cases h), .inl rfl, by decide, by decide, by decide,
    by decide, by decide⟩

theorem witness_TransceiveRefused :
    State.reset.lstate = .closed ∧ opened.atRest ∧ select.tail.length < 4 ∧ (1#16).toNat < 2 ∧ 258 < (259#16).toNat ∧
    261 < (List.replicate 262 0#8).length := ⟨rfl, .inl rfl, by decide, by decide, by decide, by rw [List.length_replicate]; decide⟩

theorem witness_CloseDiscardsSession : opened.atRest ∧ State.reset.lstate = .closed := ⟨.inl rfl, rfl⟩

theorem witness_EncodePortResult : (State.reset.lstate = .closed ∨ State.reset.atRest) ∧ 254 < tooLong.length ∧
    longest.length ≤ 254 := ⟨.inl rfl, by rw [tooLong_length]; decide, Nat.le_of_eq longest_length⟩

theorem witness_DecodePortResult :
    (opened.lstate = .closed ∨ opened.atRest) ∧ decodeBlock .lrc okReply = .ok ⟨0x21#8, .i false false, [0x90#8, 0x00#8]⟩ ∧
    decodeBlock .lrc badReply = .error .checksumMismatch ∧ decodeBlock .lrc [] = .error .malformedLength :=
  ⟨.inr (.inl rfl), by decide, by decide, by decide⟩

theorem witness_UnassignedCodeRefused :
    (opened.lstate = .closed ∨ opened.atRest) ∧
    (HostCmd.bare 0x05#8).code ∉ [0x01#8, 0x02#8, 0x03#8, 0x04#8, 0x10#8, 0x11#8] := ⟨.inr (.inl rfl), by decide⟩

theorem witness_BusyEngineIgnoresCommands :
    waiting.lstate = .exchanging ∧ resyncing.lstate = .resynchronizing ∧
    ({ waiting with lstate := .failed } : State).lstate = .failed := by decide

/-- In `SendLast`, the response exactly fills a capacity of 2. -/
theorem witness_LastInformationCompletes :
    waiting.Inv ∧ waiting.lstate = .exchanging ∧ waiting.phase ≠ .sendChain ∧ (0x21#8 : Byte) = waiting.nadRx ∧
    false = waiting.rsb ∧ [0x90#8, 0x00#8].length ≤ waiting.ifsd.toNat ∧
    waiting.rspLen.toNat + [0x90#8, 0x00#8].length ≤ waiting.rspCap.toNat ∧
    2 ≤ waiting.rspLen.toNat + [0x90#8, 0x00#8].length :=
  ⟨waiting_inv, by decide, by decide, by decide, by decide, by decide, by decide, by decide⟩
theorem witness_LastInformationCompletes_received :
    receiving.Inv ∧ receiving.lstate = .exchanging ∧ receiving.phase ≠ .sendChain ∧ (0x21#8 : Byte) = receiving.nadRx ∧
    false = receiving.rsb ∧ ([] : List Byte).length ≤ receiving.ifsd.toNat ∧
    receiving.rspLen.toNat + ([] : List Byte).length ≤ receiving.rspCap.toNat ∧
    2 ≤ receiving.rspLen.toNat + ([] : List Byte).length :=
  ⟨receiving_inv, by decide, by decide, by decide, by decide, by decide, by decide, by decide⟩

theorem witness_ShortResponseKeepsBits :
    waiting.Inv ∧ waiting.lstate = .exchanging ∧ waiting.phase ≠ .sendChain ∧ (0x21#8 : Byte) = waiting.nadRx ∧
    false = waiting.rsb ∧ [0x90#8].length ≤ waiting.ifsd.toNat ∧
    waiting.rspLen.toNat + [0x90#8].length ≤ waiting.rspCap.toNat ∧ waiting.rspLen.toNat + [0x90#8].length < 2 :=
  ⟨waiting_inv, by decide, by decide, by decide, by decide, by decide, by decide, by decide⟩

theorem witness_ChainedInformationAcknowledged :
    receiving.Inv ∧ receiving.lstate = .exchanging ∧ receiving.phase ≠ .sendChain ∧ (0x21#8 : Byte) = receiving.nadRx ∧
    false = receiving.rsb ∧ (List.replicate 32 0#8).length ≤ receiving.ifsd.toNat ∧
    receiving.rspLen.toNat + (List.replicate 32 0#8).length ≤ receiving.rspCap.toNat ∧ receiving.writeAnswer = true :=
  ⟨receiving_inv, by decide, by decide, by decide, by decide, by decide, by decide, by decide⟩

theorem witness_OversizedResponseFails :
    ({ waiting with rspCap := 2#16 } : State).lstate = .exchanging ∧ ({ waiting with rspCap := 2#16 } : State).phase ≠ .sendChain ∧
    (0x21#8 : Byte) = waiting.nadRx ∧ false = waiting.rsb ∧ [0x01#8, 0x90#8, 0x00#8].length ≤ waiting.ifsd.toNat ∧
    ({ waiting with rspCap := 2#16 } : State).rspCap.toNat < waiting.rspLen.toNat + [0x01#8, 0x90#8, 0x00#8].length := by decide

theorem witness_UnexpectedInformationResynchronizes :
    waiting.lstate = .exchanging ∧ (0x21#8 : Byte) = waiting.nadRx ∧ waiting.writeAnswer = true ∧ true ≠ waiting.rsb ∧
    waiting.ifsd.toNat < (List.replicate 33 0#8).length ∧ chaining.lstate = .exchanging ∧ chaining.phase = .sendChain ∧
    chaining.writeAnswer = true := by decide

theorem witness_PositiveAcknowledgeAdvances :
    chaining.Inv ∧ chaining.lstate = .exchanging ∧ chaining.phase = .sendChain ∧ (0x21#8 : Byte) = chaining.nadRx ∧
    false = !chaining.ssb ∧ chaining.writeAnswer = true :=
  ⟨chaining_inv, by decide, by decide, by decide, by decide, by decide⟩

theorem witness_OtherPositiveResynchronizes :
    (waiting.lstate = .exchanging ∧ (0x21#8 : Byte) = waiting.nadRx ∧ waiting.phase ≠ .sendChain ∧ waiting.writeAnswer = true) ∧
    chaining.lstate = .exchanging ∧ (0x21#8 : Byte) = chaining.nadRx ∧ true = chaining.ssb ∧ chaining.writeAnswer = true := by
  decide

theorem witness_NegativeAcknowledgeRetransmits_more :
    receiving.Inv ∧ receiving.lstate = .exchanging ∧ (0x21#8 : Byte) = receiving.nadRx ∧
    receiving.currentBlock = some (.rPos false, []) ∧ receiving.writeAnswer = true ∧ 1 < receiving.retry.toNat :=
  ⟨receiving_inv, by decide, by decide, by decide, by decide, by decide⟩
/-- `chaining` with one unit of the budget left. -/
def chainingLast : State := { chaining with retry := 1#8, writes := [false] }

theorem witness_NegativeAcknowledgeRetransmits_last :
    chainingLast.lstate = .exchanging ∧ (0x21#8 : Byte) = chainingLast.nadRx ∧ chainingLast.retry = 1#8 := by decide

theorem witness_SupervisoryRequestsServed :
    waiting.lstate = .exchanging ∧ (0x21#8 : Byte) = waiting.nadRx ∧ waiting.writeAnswer = true ∧ (255#8 : Byte) ≠ 0#8 ∧
    1 ≤ (1#8).toNat ∧ (254#8).toNat ≤ 254 := by decide

theorem witness_MalformedSupervisoryResynchronizes :
    waiting.lstate = .exchanging ∧ (0x21#8 : Byte) = waiting.nadRx ∧ waiting.writeAnswer = true ∧
    ([] : List Byte).length ≠ 1 ∧ [1#8, 2#8].length ≠ 1 ∧ [0#8] = [0#8] ∧ [255#8] = [255#8] := by decide

theorem witness_AbortRequestFails :
    waiting.lstate = .exchanging ∧ (0x21#8 : Byte) = waiting.nadRx ∧ waiting.writeAnswer = true ∧
    ({ waiting with writes := [false] } : State).writeAnswer = false := by decide

theorem witness_UnexpectedKindsResynchronize :
    waiting.lstate = .exchanging ∧ (0x21#8 : Byte) = waiting.nadRx ∧ waiting.writeAnswer = true ∧
    Instr.unknown 0x21#8 0x1F#8 [] ∈
      [.sReqResynch 0x21#8 [], .sRespResynch 0x21#8 [], .sRespIfs 0x21#8 [], .sRespAbort 0x21#8 [], .sRespWtx 0x21#8 [],
        .unknown 0x21#8 0x1F#8 []] := by decide

theorem witness_WrongAddressResynchronizes :
    waiting.lstate = .exchanging ∧ (Block.mk 0x12#8 (.sReq .wtx) [1#8]).nad ≠ waiting.nadRx ∧ waiting.writeAnswer = true ∧
    ({ waiting with writes := [false] } : State).writeAnswer = false := by decide

theorem witness_MatchedResyncRetries_more :
    resyncing.Inv ∧ resyncing.lstate = .resynchronizing ∧ (0x21#8 : Byte) = resyncing.nadRx ∧
    ({ resyncing with ssb := false, rsb := false } : State).currentBlock = some (.i false false, select) ∧
    resyncing.writeAnswer = true ∧ 1 < resyncing.retry.toNat :=
  ⟨resyncing_inv, by decide, by decide, by decide, by decide, by decide⟩
/-- `resyncing` with one unit of the budget left. -/
def resyncingLast : State := { resyncing with retry := 1#8, writes := [false] }

theorem witness_MatchedResyncRetries_last :
    resyncingLast.lstate = .resynchronizing ∧ (0x21#8 : Byte) = resyncingLast.nadRx ∧ resyncingLast.retry = 1#8 := by decide

theorem witness_UnmatchedResyncFails :
    resyncing.lstate = .resynchronizing ∧ (Block.mk 0x12#8 (.sResp .resynch) []).nad ≠ resyncing.nadRx ∧
    (Block.mk 0x21#8 (.sReq .wtx) [1#8]).control ≠ .sResp .resynch := by decide

theorem witness_HalvingRecutsTheChunk_last :
    chainingLast.lstate = .exchanging ∧ chainingLast.phase.sending = true ∧ chainingLast.retry = 1#8 := by decide
theorem witness_HalvingRecutsTheChunk_more :
    chaining.Inv ∧ chaining.lstate = .exchanging ∧ chaining.phase.sending = true ∧ 1 < chaining.retry.toNat ∧
    chaining.writeAnswer = true := ⟨chaining_inv, by decide, by decide, by decide, by decide⟩

/-- An accepted I-block gives a next state: what the frames of the received kinds ask for. -/
theorem witness_BlockRegisterFrame :
    ∃ t, exec (.ofBlock ⟨0x21#8, .i false true, [0xDD#8]⟩) receiving = .next t ∧ t.rspLen = 4#16 := ⟨_, rfl, by decide⟩
theorem witness_BlockStoreFrame_written :
    ∃ t, exec (.ofBlock ⟨0x21#8, .i false true, [0xDD#8]⟩) receiving = .next t ∧ lastWrite t ≠ [] ∧
      t.bufRead .rsp 3 = some 0xDD#8 := ⟨_, rfl, by decide, by decide⟩
theorem witness_BlockStoreFrame_not_information :
    ∃ t, exec (.ofBlock ⟨0x21#8, .sResp .ifs, [0xDD#8]⟩) receiving = .next t ∧ t.lstate = .resynchronizing :=
  ⟨_, rfl, by decide⟩

theorem witness_RefusedWriteFails :
    ∃ t raw, exec (.sReqWtx 0x21#8 [3#8]) { waiting with writes := [false] } = .next t ∧
      t.events = .write raw false :: waiting.events := ⟨_, _, rfl, rfl⟩
theorem witness_RefusedWriteFails_ok :
    ∃ t raw, exec (.sReqWtx 0x21#8 [3#8]) waiting = .next t ∧ t.events = .write raw true :: waiting.events := ⟨_, _, rfl, rfl⟩

theorem witness_SequenceBitsToggle_rpos :
    ∃ t, exec (.ofBlock ⟨0x21#8, .rPos false, []⟩) chaining = .next t ∧ t.ssb ≠ chaining.ssb := ⟨_, rfl, by decide⟩
theorem witness_SequenceBitsToggle_information :
    ∃ t, exec (.ofBlock ⟨0x21#8, .i false false, [0x90#8, 0x00#8]⟩) waiting = .next t ∧ t.ssb ≠ waiting.ssb ∧
      t.rsb ≠ waiting.rsb := ⟨_, rfl, by decide, by decide⟩
theorem witness_SequenceBitsToggle_resynch :
    ∃ t, exec (.ofBlock ⟨0x21#8, .sResp .resynch, []⟩) { resyncing with ssb := true, rsb := true } = .next t ∧
      t.ssb ≠ true ∧ t.rsb ≠ true := ⟨_, rfl, by decide, by decide⟩
theorem witness_SequenceBitsToggle_rolled_back :
    ∃ t, exec (.ofBlock ⟨0x21#8, .sReq .abort, []⟩) { waiting with lkgSsb := true, lkgRsb := true } = .next t ∧
      t.ssb ≠ waiting.ssb ∧ t.rsb ≠ waiting.rsb := ⟨_, rfl, by decide, by decide⟩

theorem witness_OnlyOpenAndCloseRebind : ∃ t, exec .resetCmd (replying opened [0x3B#8, 0x80#8]) = .next t := ⟨_, rfl⟩

theorem witness_OpenFrame : ∃ t, exec (.openCmd [] 2#8 1#8 .crc) { State.reset with acquires := [true] } = .next t ∧
    t.nadTx = 0x12#8 := ⟨_, rfl, by decide⟩

theorem witness_ResetFrame_read : ∃ t, exec .resetCmd (replying opened [0x3B#8, 0x80#8]) = .next t ∧ t.lstate = .awaitingAtr :=
  ⟨_, rfl, takeAtr_lstate _ _ _⟩
theorem witness_ResetFrame_failed :
    ∃ t, exec .resetCmd { opened with reads := [.returns .timeout], atrb := [(0, 0x3B#8), (1, 0x80#8)], atrLen := 2#8 } = .next t ∧
      t.atrLen.toNat ≤ 1 ∧ t.status ≠ .ok := ⟨_, rfl, by decide, by decide⟩
theorem witness_ResetFrame_refused :
    ∃ t, exec .resetCmd State.reset = .next t ∧ t.status ≠ .ok := ⟨_, rfl, by decide⟩

theorem witness_TransceiveFrame : ∃ t, exec (.transceiveCmd select 258#16) asking = .next t ∧
    t.bufRead .req 1 = some 0xA4#8 ∧ t.bufRead .txb 7 = some 0xB6#8 := ⟨_, rfl, by decide, by decide⟩
theorem witness_TransceiveFrame_refused : ∃ t, exec (.transceiveCmd select 1#16) asking = .next t ∧ t.events = asking.events :=
  ⟨_, rfl, by decide⟩

theorem witness_EveryStepKeepsInvariant :
    (waitingFor (.returns (.bytes okReply))).Inv ∧ ∃ t, step (waitingFor (.returns (.bytes okReply))) = .next t ∧
      t.status = .ok := ⟨waitingFor_inv _, _, rfl, by decide⟩

theorem witness_InvariantStepsAreSafe_goes_on : (resyncingFor (.returns .timeout)).Inv := resyncingFor_inv _
/-- The host presents `RESET` and the channel will never return from its read. -/
def hanging : State := { opened with hostIn := [HostCmd.bare 0x02#8], reads := [.never] }

theorem witness_InvariantStepsAreSafe_stuck_in_reset :
    hanging.Inv ∧ hanging.reads.head? = some .never ∧ hanging.atRest ∧ hanging.hostIn = HostCmd.bare 0x02#8 :: [] ∧
    (HostCmd.bare 0x02#8).code = 0x02#8 :=
  ⟨inv_vary opened_inv 0#8 _ _ _ (by rintro (h | h) <;> cases h), rfl, .inl rfl, rfl, rfl⟩
theorem witness_InvariantStepsAreSafe_stuck : (waitingFor .never).Inv ∧ (waitingFor .never).reads.head? = some .never :=
  ⟨waitingFor_inv _, rfl⟩

theorem witness_OneReadThenAtMostOneWrite_written :
    (waitingFor (.returns .timeout)).inExchange ∧ ∃ t, step (waitingFor (.returns .timeout)) = .next t ∧
      t.events.length = 2 := ⟨.inl rfl, _, rfl, by decide⟩
theorem witness_OneReadThenAtMostOneWrite_ended :
    (waitingFor (.returns .error)).inExchange ∧ ∃ t, step (waitingFor (.returns .error)) = .next t ∧ t.lstate = .idle ∧
      t.events.length = 1 := ⟨.inl rfl, _, rfl, by decide, by decide⟩

theorem witness_OnlySixFormsAreSent :
    ∃ t, step asking = .next t ∧ .write [0x12#8, 0x00#8, 0x04#8, 0x00#8, 0xA4#8, 0x04#8, 0x00#8, 0xB6#8] true ∈ t.events :=
  ⟨_, rfl, by decide⟩

theorem witness_ExchangeKeepsShadowAndBudget :
    (waitingFor (.returns (.bytes badReply))).Inv ∧ (waitingFor (.returns (.bytes badReply))).inExchange ∧
    ∃ t, step (waitingFor (.returns (.bytes badReply))) = .next t ∧ t.retry = 2#8 :=
  ⟨waitingFor_inv _, .inl rfl, _, rfl, by decide⟩

theorem witness_WaitExtensionLastsOneRead :
    (waitingFor (.returns (.bytes [0x21#8, 0xC3#8, 0x01#8, 0x03#8, 0xE0#8]))).Inv ∧
    (waitingFor (.returns (.bytes [0x21#8, 0xC3#8, 0x01#8, 0x03#8, 0xE0#8]))).inExchange ∧
    ∃ t, step (waitingFor (.returns (.bytes [0x21#8, 0xC3#8, 0x01#8, 0x03#8, 0xE0#8]))) = .next t ∧ t.wtm = 3#8 :=
  ⟨waitingFor_inv _, .inl rfl, _, rfl, by decide⟩

theorem witness_StatusOfEachCommand_commands :
    (State.reset.lstate = .closed ∨ State.reset.atRest) ∧
    (∃ t, exec (.openCmd [] 8#8 1#8 .lrc) State.reset = .next t) ∧ (∃ t, exec .resetCmd State.reset = .next t) ∧
    (∃ t, exec (.transceiveCmd select 258#16) State.reset = .next t) ∧
    (∃ t, exec .closeCmd State.reset = .next t) ∧ (∃ t, exec (.encodeCmd .lrc 0#8 (.rPos true) []) State.reset = .next t) ∧
    ∃ t, exec (.decodeCmd .lrc []) State.reset = .next t :=
  ⟨.inl rfl, ⟨_, rfl⟩, ⟨_, rfl⟩, ⟨_, rfl⟩, ⟨_, rfl⟩, ⟨_, rfl⟩, _, rfl⟩
theorem witness_StatusOfEachCommand_exchange :
    (waitingFor (.returns .error)).Inv ∧ (waitingFor (.returns .error)).inExchange ∧
    ∃ t, step (waitingFor (.returns .error)) = .next t ∧ t.lstate = .idle :=
  ⟨waitingFor_inv _, .inl rfl, _, rfl, by decide⟩

/-- `asking` with a channel that takes the block and then answers Error. -/
def failing : State := { asking with reads := [.returns .error] }

/-- The states of the exchange `failing` starts. -/
def failingPath : Nat → State
  | 0 => State.orSelf failing (exec (.transceiveCmd select 258#16) failing)
  | _ + 1 => State.orSelf failing (step (State.orSelf failing (exec (.transceiveCmd select 258#16) failing)))

theorem witness_FailedExchangeRestoresSession :
    failing.Inv ∧ failing.atRest ∧ exec (.transceiveCmd select 258#16) failing = .next (failingPath 0) ∧
    (∀ k, k < 1 → (failingPath k).inExchange ∧ step (failingPath k) = .next (failingPath (k + 1))) ∧
    (failingPath 1).lstate = .idle ∧ (failingPath 1).status ≠ .ok ∧ (failingPath 1).status ≠ .shortResponse :=
  ⟨inv_vary opened_inv 0#8 asking.hostIn [true] [.returns .error] (by rintro (h | h) <;> cases h), .inl rfl, rfl,
    fun k hk => by cases Nat.lt_one_iff.1 hk; exact ⟨.inl rfl, rfl⟩, by decide, by decide, by decide⟩

theorem witness_SimpleExchangeReturnsResponse :
    ({ asking with reads := [.returns (.bytes okReply)] } : State).Inv ∧
    ({ asking with reads := [.returns (.bytes okReply)] } : State).lstate = .idle ∧ 4 ≤ select.length ∧
    select.length ≤ asking.ifsc.toNat ∧ 2 ≤ [0x90#8, 0x00#8].length ∧ [0x90#8, 0x00#8].length ≤ 32 ∧
    [0x90#8, 0x00#8].length ≤ (258#16).toNat ∧ (258#16).toNat ≤ 258 ∧
    asking.hostIn = { HostCmd.bare 0x03#8 with apdu := select, cap := 258#16 } :: [] ∧ asking.writes = true :: [] ∧
    Block.wire asking.edcMode ⟨asking.nadRx, .i asking.rsb false, [0x90#8, 0x00#8]⟩ = okReply :=
  ⟨inv_vary opened_inv 0#8 asking.hostIn [true] _ (by rintro (h | h) <;> cases h), by decide, by decide, by decide, by decide,
    by decide, by decide, by decide, by decide, by decide, by decide⟩

end Sys2Proof.Tests
end

section
/-! PROOFS. The power-on state, the queue of presented commands, and the updates of the state that keep the invariant. -/

namespace Sys2Proof.Machine

/-! ## The power-on state and the commands of a resting state -/

/-- Settles O8: every clause is a field of the power-on record. -/
theorem powerOnState : Obligations.PowerOnState :=
  ⟨rfl, rfl, rfl, rfl, fun b _ => by cases b <;> rfl, rfl, rfl⟩

/-- Settles O51: no session is open, no length is positive and no buffer cell is written. -/
theorem powerOnMeetsInvariant : Obligations.PowerOnMeetsInvariant where
  notFailed := by decide
  held := by decide
  buffers b := by cases b <;> decide
  session h := absurd rfl h
  resting := by decide
  waiting := by decide
  resync := by decide
  exchange := by rintro (h | h) <;> cases h
  atr := by decide
  reply := by decide
  result := by decide

/-- In a resting state the engine takes the command the host presents (R150). -/
theorem step_of_command {s : State} {c : HostCmd} {cs : List HostCmd} (hr : s.lstate = .closed ∨ s.atRest)
    (hc : s.hostIn = c :: cs) : step s = exec (decodeCommand c) { s with hostIn := cs } := by
  simp only [step, fetch_resting hr, fetchCommand, hc]

/-- In a resting state with no command presented the engine waits (R21). -/
theorem step_of_noCommand {s : State} (hr : s.lstate = .closed ∨ s.atRest) (hc : s.hostIn = []) : step s = .next s := by
  simp only [step, fetch_resting hr, fetchCommand, hc]

/-- Settles O9: the two clauses are the two shapes of the queue of presented commands. -/
theorem stepRunsPresentedCommand : Obligations.StepRunsPresentedCommand :=
  fun _ hr => ⟨fun _ _ hc => step_of_command hr hc, step_of_noCommand hr⟩

/-! ## Operations that go on -/

/-- The operation gives a next state, and that state satisfies `P`. -/
def GoesOn (P : State → Prop) (r : Result) : Prop := ∃ t, r = .next t ∧ P t

theorem GoesOn.next {P : State → Prop} {t : State} (h : P t) : GoesOn P (.next t) := ⟨t, rfl, h⟩

theorem GoesOn.mono {P Q : State → Prop} {r : Result} (h : GoesOn P r) (hPQ : ∀ t, P t → Q t) : GoesOn Q r := by
  obtain ⟨t, hr, ht⟩ := h
  exact ⟨t, hr, hPQ t ht⟩

variable {s t u : State}

/-- Spending a unit of the budget goes on if both its endings do (R186). -/
theorem spend_goesOn {P : State → Prop} {f : Status} {k : State → Result}
    (hlast : s.retry = 1#8 → P ({ s with fault := f, retry := 0#8 }.rolledBack f))
    (hmore : s.retry ≠ 1#8 → GoesOn P (k { s with fault := f, retry := s.retry - 1#8 })) : GoesOn P (spend f k s) := by
  by_cases hr : s.retry = 1#8
  · rw [spend_last k hr]
    exact .next (hlast hr)
  · rw [spend_more k hr]
    exact hmore hr

/-! ## The invariant, update by update -/

/-- A run written inside the capacity of one buffer keeps all five canonical and within their capacities (R62). -/
theorem buffers_of_writeFrom (b : Buf) (i : Nat) (vs : List Byte)
    (h : ∀ c : Buf, (s.buf c).wf = true ∧ (s.buf c).below c.capacity = true) (hi : i + vs.length ≤ b.capacity)
    (ht : ∀ c, t.buf c = if c = b then (s.buf b).writeFrom i vs else s.buf c) :
    ∀ c : Buf, (t.buf c).wf = true ∧ (t.buf c).below c.capacity = true := by
  intro c
  rw [ht]
  split
  · rename_i hc
    subst hc
    exact ⟨Memory.wf_writeFrom (h c).1 i vs, Memory.below_writeFrom (h c).2 hi⟩
  · exact h c

theorem State.inExchange.ne_closed (h : s.inExchange) : s.lstate ≠ .closed := by
  rcases h with h | h <;> simp [h]

theorem State.atRest.ne_closed (h : s.atRest) : s.lstate ≠ .closed := by
  rcases h with h | h <;> simp [h]

/-- A raw block of the session fits `TXB` (R8). -/
theorem State.raw_length_le {c : Control} {p : List Byte} (hp : p.length ≤ 254) : (s.raw c p).length ≤ 259 := by
  have := s.edcMode.size_le
  simp only [State.raw, Block.wire_length]
  omega

/-! ### Operations inside an exchange -/

theorem State.Inv.hands (h : s.Inv) (ok : Bool) {c : Control} {p : List Byte} (hp : p.length ≤ 254) : (s.hands ok c p).Inv :=
  { h with
    buffers := buffers_of_writeFrom .txb 0 (s.raw c p) h.buffers ((Nat.zero_add _).trans_le (State.raw_length_le hp))
      fun b => by cases b <;> rfl
    session := fun hl => { h.session hl with }
    exchange := fun hl => { h.exchange hl with } }

/-- A failed exchange leaves a legal resting state, whatever became of the fault latch and the budget (R196). -/
theorem State.Inv.rolledBack (h : s.Inv) (hx : s.inExchange) (f e : Status) (r : Byte) :
    ({ s with fault := f, retry := r }.rolledBack e).Inv :=
  { h with
    notFailed := by simp
    held := ⟨fun _ => by simp, fun _ => h.held.2 hx.ne_closed⟩
    session := fun _ =>
      { h.session hx.ne_closed with ifsc := (h.exchange hx).lkgIfsc, ifsd := (h.exchange hx).lkgIfsd }
    resting := fun _ => rfl
    waiting := by simp
    resync := by simp
    exchange := by simp
    result := fun _ => ⟨rfl, rfl⟩ }

/-- A completed exchange leaves a legal resting state (R219, R251). -/
theorem State.Inv.completes (h : s.Inv) (hx : s.inExchange) (hw : s.wtm = 1#8) {st : Status} {len : Half} {data : ResultData}
    (hd : st ≠ .ok → len = 0#16 ∧ data = .none) : (complete st len data { s with lstate := .idle }).Inv :=
  { h with
    notFailed := by simp
    held := ⟨fun _ => by simp, fun _ => h.held.2 hx.ne_closed⟩
    session := fun _ => { h.session hx.ne_closed with }
    resting := fun _ => hw
    waiting := by simp
    resync := by simp
    exchange := by simp
    result := hd }

theorem State.Inv.hasRead (h : s.Inv) (hx : s.inExchange) (o : ReadOutcome) : (s.hasRead o).Inv :=
  { h with
    session := fun hl => { h.session hl with }
    resting := fun hr => by rcases hx with hx | hx <;> simp [hx] at hr
    waiting := fun hl => by
      have hl : s.lstate = .exchanging := hl
      simp [hl]
    resync := fun hl => by
      have hl : s.lstate = .resynchronizing := hl
      simpa [hl] using h.resync hl
    exchange := fun hl => { h.exchange hl with } }

theorem State.Inv.hasReadBytes (h : s.Inv) (hx : s.inExchange) {raw : List Byte} (hr : raw.length ≤ 259) :
    (s.hasReadBytes raw).Inv :=
  have hlen : (BitVec.ofNat 16 raw.length).toNat = raw.length := by rw [BitVec.toNat_ofNat]; omega
  { h.hasRead hx (.bytes raw) with
    buffers := buffers_of_writeFrom .rxb 0 raw h.buffers ((Nat.zero_add _).trans_le hr)
      fun b => by cases b <;> rfl
    session := fun hl => { h.session hl with }
    exchange := fun hl => { h.exchange hl with }
    reply := by simpa [hlen] using ⟨hr, Memory.filled_writeFrom_zero s.rxb raw⟩ }

end Sys2Proof.Machine
end

section
/-! PROOFS. How an exchange answers a reply: registers are written, then the step ends with at most one block sent. Every answer
goes on, keeps the invariant, and leaves the shadow and the request as they are. -/

namespace Sys2Proof.Machine

variable {s t u : State} {W : Byte → Prop} {f : Status} {c : Control} {p : List Byte}

/-! ## What a step inside an exchange keeps -/

/-- The shadow, the binding and the request are the same, the budget has not grown and the offset has not fallen (R34, R187,
R216). -/
structure State.KeepsExchange (s t : State) : Prop where
  lkg     : s.sameLkg t := by exact ⟨rfl, rfl, rfl, rfl⟩
  binding : s.sameBinding t := by exact ⟨rfl, rfl, rfl⟩
  reqLen  : t.reqLen = s.reqLen := by rfl
  rspCap  : t.rspCap = s.rspCap := by rfl
  req     : t.req = s.req := by rfl
  retry   : t.retry.toNat ≤ s.retry.toNat := by exact le_rfl
  txOff   : s.txOff.toNat ≤ t.txOff.toNat := by exact le_rfl

theorem State.KeepsExchange.trans (h : s.KeepsExchange u) (k : u.KeepsExchange t) : s.KeepsExchange t where
  lkg := by
    obtain ⟨h1, h2, h3, h4⟩ := h.lkg
    obtain ⟨k1, k2, k3, k4⟩ := k.lkg
    exact ⟨k1.trans h1, k2.trans h2, k3.trans h3, k4.trans h4⟩
  binding := by
    obtain ⟨h1, h2, h3⟩ := h.binding
    obtain ⟨k1, k2, k3⟩ := k.binding
    exact ⟨k1.trans h1, k2.trans h2, k3.trans h3⟩
  reqLen := k.reqLen.trans h.reqLen
  rspCap := k.rspCap.trans h.rspCap
  req := k.req.trans h.req
  retry := k.retry.trans h.retry
  txOff := h.txOff.trans k.txOff

/-- The registers are written and nothing is sent yet: `u` is a legal exchange with no channel call more than `s`. -/
structure State.Prepares (s u : State) : Prop where
  inv     : u.Inv
  running : u.inExchange
  events  : u.events = s.events := by rfl
  keeps   : s.KeepsExchange u := by exact {}

theorem State.Prepares.trans (h : s.Prepares u) (k : u.Prepares t) : s.Prepares t where
  inv := k.inv
  running := k.running
  events := k.events.trans h.events
  keeps := h.keeps.trans k.keeps

/-- How a step inside an exchange ends: a block goes out and the engine waits, or the exchange is over. -/
inductive State.Closes (u : State) : State → Prop where
  | sent {c : Control} {p : List Byte} (hp : p.length ≤ 254) : u.Closes (u.hands true c p)
  | sentAndFailed {ok : Bool} {c : Control} {p : List Byte} {e : Status} (hp : p.length ≤ 254) :
      u.Closes ((u.hands ok c p).rolledBack e)
  | failed {f e : Status} {r : Byte} (hr : r.toNat ≤ u.retry.toNat) : u.Closes ({ u with fault := f, retry := r }.rolledBack e)
  | completed {st : Status} {len : Half} {data : ResultData} (hw : u.wtm = 1#8)
      (hd : st ≠ .ok → len = 0#16 ∧ data = .none) : u.Closes (complete st len data { u with lstate := .idle })

theorem State.Closes.inv (h : u.Closes t) (hi : u.Inv) (hx : u.inExchange) : t.Inv := by
  cases h with
  | sent hp => exact hi.hands true hp
  | sentAndFailed hp => exact (hi.hands _ hp).rolledBack hx _ _ _
  | failed hr => exact hi.rolledBack hx _ _ _
  | completed hw hd => exact hi.completes hx hw hd

theorem State.Closes.keeps (h : u.Closes t) : u.KeepsExchange t := by
  cases h with
  | sent hp => exact {}
  | sentAndFailed hp => exact {}
  | failed hr => exact { retry := hr }
  | completed hw hd => exact {}

/-- At most one block is written (R75). -/
theorem State.Closes.events (h : u.Closes t) : t.events = u.events ∨ ∃ raw ok, t.events = .write raw ok :: u.events := by
  cases h with
  | sent hp => exact .inr ⟨_, _, rfl⟩
  | sentAndFailed hp => exact .inr ⟨_, _, rfl⟩
  | failed hr => exact .inl rfl
  | completed hw hd => exact .inl rfl

theorem State.Closes.wtm (h : u.Closes t) : t.wtm = 1#8 ∨ t.wtm = u.wtm := by
  cases h with
  | sent hp => exact .inr rfl
  | sentAndFailed hp => exact .inl rfl
  | failed hr => exact .inl rfl
  | completed hw hd => exact .inr rfl

/-! ## How a reply is answered -/

/-- A reply was just read: the exchange is legal, and `WTM` is at its default (R161 step w1). -/
structure State.Heard (s : State) : Prop where
  inv     : s.Inv
  running : s.inExchange
  wtm     : s.wtm = 1#8

/-- The reply heard in `s` is answered with `t`: registers are written, the multiplier as `W` says, and the step ends. -/
def State.Answers (s : State) (W : Byte → Prop) (t : State) : Prop := ∃ u, s.Prepares u ∧ W u.wtm ∧ u.Closes t

theorem State.Answers.mono {V : Byte → Prop} (h : s.Answers W t) (hWV : ∀ w, W w → V w) : s.Answers V t := by
  obtain ⟨u, hu, hw, hc⟩ := h
  exact ⟨u, hu, hWV _ hw, hc⟩

/-- An answer that leaves `WTM` at its default is an answer for every `W` that allows the default. -/
theorem GoesOn.of_default {r : Result} (h : GoesOn (s.Answers (· = 1#8)) r) (hW : W 1#8) : GoesOn (s.Answers W) r :=
  h.mono fun _ ht => ht.mono fun _ hw => hw ▸ hW

theorem State.Heard.prepares_self (h : s.Heard) : s.Prepares s := { inv := h.inv, running := h.running }

/-- What answers the reply once some registers are written answers it. -/
theorem State.Prepares.answers (h : s.Prepares u) (ha : u.Answers W t) : s.Answers W t := by
  obtain ⟨v, hv, hw, hc⟩ := ha
  exact ⟨v, h.trans hv, hw, hc⟩

/-- A failed exchange is an answer (R196). -/
theorem State.Heard.answers_rolledBack (h : s.Heard) (e : Status) : s.Answers (· = 1#8) (s.rolledBack e) :=
  ⟨s, h.prepares_self, h.wtm, .failed (f := s.fault) (r := s.retry) le_rfl⟩

theorem State.Prepares.sendBlock_goesOn (h : s.Prepares u) (hw : W u.wtm) (hp : p.length ≤ 254) :
    GoesOn (s.Answers W) (sendBlock c p id u) := by
  rw [sendBlock_of_fits id hp]
  cases u.writeAnswer with
  | true => exact .next ⟨u, h, hw, .sent hp⟩
  | false => exact .next ⟨u, h, hw, .sentAndFailed hp⟩

/-- In a legal exchange there is a current block to send, and it fits. -/
theorem State.Prepares.transmit_goesOn (h : s.Prepares u) (hw : W u.wtm) : GoesOn (s.Answers W) (transmit u) := by
  obtain ⟨c, p, hc, hp⟩ := (h.inv.exchange h.running).currentBlock_some
  rw [transmit, hc]
  exact h.sendBlock_goesOn hw hp

/-! ### The registers each answer writes -/

theorem State.Heard.prepares_resync (h : s.Heard) (hf : f = .timeout ∨ f = .sequenceError) :
    s.Prepares { s with lstate := .resynchronizing, fault := f } where
  running := .inr rfl
  inv :=
    { h.inv with
      notFailed := by simp
      held := ⟨fun _ => by simp, fun _ => h.inv.held.2 h.running.ne_closed⟩
      session := fun _ => { h.inv.session h.running.ne_closed with }
      resting := by simp
      waiting := by simp
      resync := fun _ => ⟨h.wtm, hf⟩
      exchange := fun _ => { h.inv.exchange h.running with } }

theorem State.Heard.prepares_resynced (h : s.Heard) :
    s.Prepares { s with ssb := false, rsb := false, lstate := .exchanging } where
  running := .inl rfl
  inv :=
    { h.inv with
      notFailed := by simp
      held := ⟨fun _ => by simp, fun _ => h.inv.held.2 h.running.ne_closed⟩
      session := fun _ => { h.inv.session h.running.ne_closed with }
      resting := by simp
      waiting := fun _ => by simp [h.wtm]
      resync := by simp
      exchange := fun _ => { h.inv.exchange h.running with } }

theorem State.ExchangeLegal.retry_pred (h : s.ExchangeLegal) (hr : s.retry ≠ 1#8) :
    1 ≤ (s.retry - 1#8).toNat ∧ (s.retry - 1#8).toNat < s.retry.toNat := by
  have := h.retry
  bv_omega

theorem State.Heard.prepares_spend (h : s.Heard) (hl : s.lstate = .exchanging) (f : Status) (hr : s.retry ≠ 1#8) :
    s.Prepares { s with fault := f, retry := s.retry - 1#8 } :=
  have hx := h.inv.exchange h.running
  have hp := hx.retry_pred hr
  { running := h.running
    keeps := { retry := hp.2.le }
    inv :=
      { h.inv with
        session := fun hc => { h.inv.session hc with }
        resync := fun hc => nomatch hl.symm.trans hc
        exchange := fun _ => { hx with retry := ⟨hp.1, hp.2.le.trans hx.retry.2⟩ } } }

theorem State.Heard.prepares_wtm (h : s.Heard) (hl : s.lstate = .exchanging) {v : Byte} (hv : v ≠ 0#8) :
    s.Prepares { s with wtm := v } where
  running := h.running
  inv :=
    { h.inv with
      session := fun hc => { h.inv.session hc with }
      resting := by simp [hl]
      waiting := fun _ => hv
      resync := fun hc => nomatch hl.symm.trans hc
      exchange := fun hc => { h.inv.exchange hc with } }

theorem State.Heard.prepares_ifs (h : s.Heard) {v : Byte} (hv : sizeLegal v) :
    s.Prepares { s with ifsc := v, chunkMax := v } where
  running := h.running
  inv :=
    { h.inv with
      session := fun hc => { h.inv.session hc with ifsc := hv }
      exchange := fun hc => { h.inv.exchange hc with chunkMax := hv } }

/-- The chunk cut from a request that is not used up is legal (R38, R211). -/
theorem setChunk_legal (hm : sizeLegal s.chunkMax) (ho : s.txOff.toNat < s.reqLen.toNat) :
    sizeLegal (setChunk s).txLen ∧ s.txOff.toNat + (setChunk s).txLen.toNat ≤ s.reqLen.toNat ∧
    ((setChunk s).txMore = true ↔ s.txOff.toNat + (setChunk s).txLen.toNat < s.reqLen.toNat) ∧
    ((setChunk s).phase = .sendChain ↔ (setChunk s).txMore = true) := by
  obtain ⟨h1, h2⟩ := hm
  have hrem : s.remaining = s.reqLen.toNat - s.txOff.toNat := rfl
  have hlen : (setChunk s).txLen.toNat = min s.chunkMax.toNat s.remaining := by
    simp only [setChunk, BitVec.toNat_ofNat]
    omega
  have hmore : (setChunk s).txMore = true ↔ s.chunkMax.toNat < s.remaining := by simp [setChunk]
  refine ⟨by unfold sizeLegal; omega, by omega, by rw [hmore]; omega, ?_⟩
  rw [hmore]
  simp only [setChunk]
  split <;> simp_all

/-- The next chunk after an acknowledged one (R162, R214): a chained chunk leaves some of the request. -/
theorem State.Heard.prepares_advance (h : s.Heard) (hp : s.phase = .sendChain) (b : Bool) :
    s.Prepares (advance { s with ssb := b }) := by
  have hx := h.inv.exchange h.running
  have hlt := hx.txMore.1 (hx.phase.1 hp)
  have hoff : (s.txOff + s.txLen.zeroExtend 16).toNat = s.txOff.toNat + s.txLen.toNat := by
    have := hx.reqLen.2
    simp only [BitVec.toNat_add, BitVec.toNat_setWidth, BitVec.truncate_eq_setWidth]
    omega
  obtain ⟨hlen, hchunk, hmore, hphase⟩ :=
    setChunk_legal (s := { s with ssb := b, txOff := s.txOff + s.txLen.zeroExtend 16 }) hx.chunkMax (by rw [hoff]; exact hlt)
  exact
    { running := h.running
      keeps := { txOff := (Nat.le_add_right _ _).trans_eq hoff.symm }
      inv :=
        { h.inv with
          session := fun hc => { h.inv.session hc with }
          exchange := fun _ => { hx with txLen := hlen, chunk := hchunk, txMore := hmore, phase := hphase } } }

/-- An I-block that fits the response is appended (R164 step 4). -/
theorem State.Heard.prepares_accept (h : s.Heard) (hp : s.phase ≠ .sendChain) {inf : List Byte}
    (hfit : s.rspLen.toNat + inf.length ≤ s.rspCap.toNat) {ph : Phase} (hph : ph ≠ .sendChain) :
    s.Prepares { acceptPayload inf s with phase := ph } :=
  have hx := h.inv.exchange h.running
  have hlen : (acceptPayload inf s).rspLen.toNat = s.rspLen.toNat + inf.length := by
    have := hx.rspCap.2
    simp only [acceptPayload, BitVec.toNat_add, BitVec.toNat_ofNat]
    omega
  { running := h.running
    inv :=
      { h.inv with
        buffers := buffers_of_writeFrom .rsp s.rspLen.toNat inf h.inv.buffers (hfit.trans hx.rspCap.2)
          fun b => by cases b <;> rfl
        session := fun hc => { h.inv.session hc with }
        exchange := fun _ =>
          { hx with
            rspLen := hlen.trans_le hfit
            phase := iff_of_false hph fun hm => hp (hx.phase.2 hm)
            rspFilled := by
              rw [show (({ acceptPayload inf s with phase := ph } : State).rspLen.toNat) = _ from hlen]
              exact Memory.filled_extend hx.rspFilled inf } } }

/-! ### The answers -/

/-- A resynchronization request (R188). -/
theorem State.Heard.resync_goesOn (h : s.Heard) (hf : f = .timeout ∨ f = .sequenceError) :
    GoesOn (s.Answers (· = 1#8)) (resync f s) :=
  (h.prepares_resync hf).sendBlock_goesOn h.wtm (Nat.zero_le 254)

/-- A retransmission (R186). -/
theorem State.Heard.retransmit_goesOn (h : s.Heard) (hl : s.lstate = .exchanging) (f : Status) :
    GoesOn (s.Answers (· = 1#8)) (retransmit f s) :=
  spend_goesOn (fun _ => ⟨s, h.prepares_self, h.wtm, .failed (Nat.zero_le _)⟩)
    fun hr => (h.prepares_spend hl f hr).transmit_goesOn h.wtm

/-- A matched resynchronization (R188 steps s6 to s8). -/
theorem State.Heard.resynced_goesOn (h : s.Heard) : GoesOn (s.Answers (· = 1#8)) (resynced s) :=
  have hu := h.prepares_resynced
  spend_goesOn (fun _ => ⟨s, h.prepares_self, h.wtm, .failed (Nat.zero_le _)⟩)
    fun hr => (hu.trans (State.Heard.prepares_spend ⟨hu.inv, hu.running, h.wtm⟩ rfl s.fault hr)).transmit_goesOn h.wtm

/-- The completion of an exchange (R219, R251): the response is filled, so it can be read. -/
theorem State.Prepares.finish_goesOn (h : s.Prepares u) (hw : u.wtm = 1#8) : GoesOn (s.Answers (· = 1#8)) (finish u) := by
  obtain ⟨data, hd⟩ := Option.isSome_iff_exists.1 (h.inv.exchange h.running).rspFilled
  unfold finish
  split
  · exact .next ⟨u, h, hw, .completed hw fun _ => ⟨rfl, rfl⟩⟩
  · rw [hd]
    exact .next ⟨u, h, hw, .completed hw fun hok => absurd rfl hok⟩

/-- An I-block that fits the response is accepted (R164 step 4, R218). -/
theorem State.Heard.acceptBlock_goesOn (h : s.Heard) (hp : s.phase ≠ .sendChain) (m : Bool) {inf : List Byte}
    (hfit : s.rspLen.toNat + inf.length ≤ s.rspCap.toNat) : GoesOn (s.Answers (· = 1#8)) (acceptBlock m inf s) := by
  have hcap := (h.inv.exchange h.running).rspCap.2
  rw [acceptBlock, if_neg (show ¬ _ > Config.rspMax from Nat.not_lt.2 (hfit.trans hcap))]
  cases m with
  | true => exact (h.prepares_accept hp hfit (ph := .recvChain) (by simp)).transmit_goesOn h.wtm
  | false => exact (h.prepares_accept hp hfit hp).finish_goesOn h.wtm

theorem State.Heard.judgeInformation_goesOn (h : s.Heard) (hp : s.phase ≠ .sendChain) (ns m : Bool) (inf : List Byte) :
    GoesOn (s.Answers (· = 1#8)) (judgeInformation ns m inf s) := by
  unfold judgeInformation
  split
  · split
    · exact h.resync_goesOn (.inr rfl)
    · split
      · exact .next (h.answers_rolledBack .invalidArgument)
      · rename_i hfit
        exact h.acceptBlock_goesOn hp m (Nat.not_lt.1 hfit)
  · exact h.resync_goesOn (.inr rfl)

/-- `S(ABORT, REQ)` is answered, and the exchange fails whatever the channel says of the answer (R177). -/
theorem State.Heard.abort_goesOn (h : s.Heard) :
    GoesOn (s.Answers (· = 1#8)) (sendBlock (.sResp .abort) [] (fail .sequenceError) s) := by
  rw [sendBlock_of_fits (p := []) _ (Nat.zero_le 254)]
  cases s.writeAnswer with
  | true => exact .next ⟨s, h.prepares_self, h.wtm, .sentAndFailed (Nat.zero_le 254)⟩
  | false => exact .next ⟨s, h.prepares_self, h.wtm, .sentAndFailed (Nat.zero_le 254)⟩

/-- `WTM` after the block `b` is received: its default, or what `b` asks for when it is a waiting-time request to an exchange that
waits for a reply (R175). -/
def State.wtmAfter (s : State) (b : Block) (w : Byte) : Prop :=
  w = 1#8 ∨ s.lstate = .exchanging ∧ b = ⟨s.nadRx, .sReq .wtx, [w]⟩

/-- Whatever block with the right address an exchange receives, the step goes on (R161 step w7). -/
theorem State.Heard.judge_goesOn (h : s.Heard) (hl : s.lstate = .exchanging) {b : Block} (hn : b.nad = s.nadRx) :
    GoesOn (s.Answers (s.wtmAfter b)) (judge b s) := by
  have hdef : s.wtmAfter b 1#8 := .inl rfl
  have hresync := (h.resync_goesOn (f := .sequenceError) (.inr rfl)).of_default hdef
  unfold judge
  split
  · split
    · exact hresync
    · rename_i hp
      exact (h.judgeInformation_goesOn (by simp [hp]) _ _ _).of_default hdef
    · rename_i hp
      exact (h.judgeInformation_goesOn (by simp [hp]) _ _ _).of_default hdef
  · split
    · rename_i hp
      split
      · exact ((h.prepares_advance hp (!s.ssb)).transmit_goesOn h.wtm).of_default hdef
      · exact hresync
    · exact hresync
    · exact hresync
  · exact (h.retransmit_goesOn hl .sequenceError).of_default hdef
  · exact (h.retransmit_goesOn hl .sequenceError).of_default hdef
  · exact hresync
  · split
    · rename_i v hv
      obtain ⟨hinf, hsize⟩ := ifsValue_eq_some.1 hv
      exact ((h.prepares_ifs hsize).sendBlock_goesOn h.wtm (by simp [hinf])).of_default hdef
    · exact hresync
  · exact h.abort_goesOn.of_default hdef
  · rename_i hc
    split
    · rename_i v hv
      obtain ⟨hinf, hne⟩ := wtxValue_eq_some.1 hv
      have hb : b = ⟨s.nadRx, .sReq .wtx, [v]⟩ := by rw [← hn, ← hc, ← hinf]
      exact (h.prepares_wtm hl hne).sendBlock_goesOn (.inr ⟨hl, hb⟩) (by simp [hinf])
    · exact hresync
  · exact hresync
  · exact hresync

/-- A received block inside an exchange (R168, R189). -/
theorem State.Heard.exec_goesOn (h : s.Heard) (b : Block) : GoesOn (s.Answers (s.wtmAfter b)) (exec (.ofBlock b) s) := by
  have hdef : s.wtmAfter b 1#8 := .inl rfl
  rw [exec_ofBlock]
  rcases h.running with hl | hl <;> by_cases hn : b.nad = s.nadRx
  · rw [onReply_exchanging _ _ hl hn]
    exact h.judge_goesOn hl hn
  · rw [onReply_exchanging_other _ _ hl hn]
    exact (h.resync_goesOn (.inr rfl)).of_default hdef
  · rw [onReply_resynchronizing _ _ hl hn, judgeResync]
    split
    · exact h.resynced_goesOn.of_default hdef
    · exact (GoesOn.next (h.answers_rolledBack s.fault)).of_default hdef
  · rw [onReply_resynchronizing_other _ _ hl hn]
    exact (GoesOn.next (h.answers_rolledBack s.fault)).of_default hdef

theorem State.Heard.onTimeout_goesOn (h : s.Heard) : GoesOn (s.Answers (· = 1#8)) (onTimeout s) := by
  rcases h.running with hl | hl
  · rw [onTimeout_exchanging hl]
    exact h.resync_goesOn (.inl rfl)
  · rw [onTimeout_resynchronizing hl]
    exact .next (h.answers_rolledBack s.fault)

theorem State.Heard.onInvalid_goesOn (h : s.Heard) (e : DecodeError) : GoesOn (s.Answers (· = 1#8)) (onInvalid e s) := by
  rcases h.running with hl | hl
  · rw [onInvalid_exchanging e hl]
    exact h.retransmit_goesOn hl _
  · rw [onInvalid_resynchronizing e hl]
    exact .next (h.answers_rolledBack s.fault)

end Sys2Proof.Machine
end

section
/-! PROOFS. Every step: a reply inside an exchange, a host command in a resting state. -/

namespace Sys2Proof.Machine

variable {s t u : State} {W : Byte → Prop}

/-! ## The steps inside an exchange -/

theorem State.Inv.heard_hasRead (h : s.Inv) (hx : s.inExchange) (o : ReadOutcome) : (s.hasRead o).Heard where
  inv := h.hasRead hx o
  running := hx
  wtm := by
    rcases hx with hl | hl
    · simp [hl]
    · simpa [hl] using (h.resync hl).1

theorem State.Inv.heard_hasReadBytes (h : s.Inv) (hx : s.inExchange) {raw : List Byte} (hr : raw.length ≤ 259) :
    (s.hasReadBytes raw).Heard where
  inv := h.hasReadBytes hx hr
  running := hx
  wtm := (h.heard_hasRead hx (.bytes raw)).wtm

/-- The multiplier a step inside an exchange leaves when the channel answers `o`: the default, or that of the waiting-time request
`o` carries (R30, R175). -/
def State.leavesWtm (s : State) (o : ReadOutcome) (w : Byte) : Prop :=
  w = 1#8 ∨ s.lstate = .exchanging ∧ ∃ raw, o = .bytes raw ∧ decodeBlock s.edcMode raw = .ok ⟨s.nadRx, .sReq .wtx, [w]⟩

/-- All that a step inside an exchange does once the channel answers: it reads the answer, writes registers and ends, with at most
one block sent. -/
theorem State.Inv.step_exchange_goesOn (h : s.Inv) (hx : s.inExchange) {o : ReadOutcome} (ho : s.readOutcome 259 = some o) :
    GoesOn ((s.hasRead o).Answers (s.leavesWtm o)) (step s) := by
  have hread := h.heard_hasRead hx o
  have hdef : s.leavesWtm o 1#8 := .inl rfl
  rw [step_exchange hx, ho]
  cases o with
  | error => exact (GoesOn.next (hread.answers_rolledBack .channelError)).of_default hdef
  | timeout => exact hread.onTimeout_goesOn.of_default hdef
  | bytes raw =>
    have hbytes := h.heard_hasReadBytes hx (readOutcome_length ho)
    have hstore : (s.hasRead (.bytes raw)).Prepares (s.hasReadBytes raw) := { inv := hbytes.inv, running := hx }
    dsimp only
    cases hd : decodeBlock s.edcMode raw with
    | error e => exact ((hbytes.onInvalid_goesOn e).mono fun _ => hstore.answers).of_default hdef
    | ok b =>
      refine (hbytes.exec_goesOn b).mono fun _ ht => (hstore.answers ht).mono fun w hw => hw.imp_right ?_
      rintro ⟨hl, rfl⟩
      exact ⟨hl, raw, rfl, hd⟩

/-- Every next state of an exchange is an answer to the channel's next outcome. -/
theorem State.Inv.step_exchange_next (h : s.Inv) (hx : s.inExchange) (hs : step s = .next t) :
    ∃ o, s.readOutcome 259 = some o ∧ (s.hasRead o).Answers (s.leavesWtm o) t := by
  cases ho : s.readOutcome 259 with
  | none => rw [step_exchange hx, ho] at hs; cases hs
  | some o =>
    obtain ⟨t', ht', ha⟩ := h.step_exchange_goesOn hx ho
    cases hs.symm.trans ht'
    exact ⟨o, rfl, ha⟩

/-- Settles O56: of the read, the registers written and the end of the step none touches the shadow or the request. -/
theorem exchangeKeepsShadowAndBudget : Obligations.ExchangeKeepsShadowAndBudget := by
  intro s t h hx hs
  obtain ⟨o, -, u, hu, -, hc⟩ := h.step_exchange_next hx hs
  have hread : s.KeepsExchange (s.hasRead o) := {}
  have hk := (hread.trans hu.keeps).trans hc.keeps
  exact ⟨hk.lkg, hk.binding, hk.reqLen, hk.rspCap, fun a => congrArg (Memory.read · a) hk.req, hk.retry, hk.txOff⟩

/-- Settles O57: the registers are written without a channel call, and the end of the step writes at most one block and leaves
`WTM` or puts it at its default. -/
theorem waitExtensionLastsOneRead : Obligations.WaitExtensionLastsOneRead := by
  intro s t h hx hs
  obtain ⟨o, ho, u, hu, hw, hc⟩ := h.step_exchange_next hx hs
  refine ⟨⟨o, ho, ?_⟩, ?_⟩
  · rw [← State.hasRead_events, ← hu.events]
    exact hc.events
  · rcases hc.wtm with ht | ht
    · exact .inl ht
    · rw [ht, ho]
      refine hw.imp_right fun ⟨hl, raw, hraw, hd⟩ => ⟨hl, raw, congrArg some hraw, hd⟩

/-! ## The commands of a resting state -/

theorem State.Inv.endsWith (h : s.Inv) (st : Status) : (s.endsWith st).Inv :=
  { h with
    session := fun hl => { h.session hl with }
    exchange := fun hl => { h.exchange hl with }
    result := fun _ => ⟨rfl, rfl⟩ }

theorem State.Inv.complete_ok (h : s.Inv) (len : Half) (data : ResultData) : (complete .ok len data s).Inv :=
  { h with
    session := fun hl => { h.session hl with }
    exchange := fun hl => { h.exchange hl with }
    result := fun hne => absurd rfl hne }

theorem State.Inv.takeCommand (h : s.Inv) (cs : List HostCmd) : ({ s with hostIn := cs } : State).Inv :=
  { h with
    session := fun hl => { h.session hl with }
    exchange := fun hl => { h.exchange hl with } }

theorem sizeLegal_default : sizeLegal Config.ifscDefault := by decide

theorem retryMax_legal : 1 ≤ Config.retryMax.toNat ∧ Config.retryMax.toNat ≤ 3 := by decide

/-! ### `OPEN` -/

/-- Two operands of at most 7 make node addresses without the reserved bits, each the swap of the other (R83). -/
theorem nadByte_legal {host chip : Byte} (h : addressesLegal host chip = true) :
    (nadByte chip host &&& 0x88#8 = 0#8 ∧ nadByte host chip &&& 0x88#8 = 0#8) ∧
    nadByte host chip >>> 4 = nadByte chip host &&& 7#8 ∧ nadByte host chip &&& 7#8 = nadByte chip host >>> 4 := by
  have small : ∀ a b : BitVec 3,
      (nadByte (b.setWidth 8) (a.setWidth 8) &&& 0x88#8 = 0#8 ∧ nadByte (a.setWidth 8) (b.setWidth 8) &&& 0x88#8 = 0#8) ∧
      nadByte (a.setWidth 8) (b.setWidth 8) >>> 4 = nadByte (b.setWidth 8) (a.setWidth 8) &&& 7#8 ∧
      nadByte (a.setWidth 8) (b.setWidth 8) &&& 7#8 = nadByte (b.setWidth 8) (a.setWidth 8) >>> 4 := by decide
  have three : ∀ x : Byte, x.toNat ≤ 7 → (x.setWidth 3).setWidth 8 = x := by decide
  obtain ⟨hh, hc⟩ := addressesLegal_iff.1 h
  simpa only [three host hh, three chip hc] using small (host.setWidth 3) (chip.setWidth 3)

theorem acquireAndBind_inv (h : s.Inv) (hl : s.lstate = .closed) {host chip : Byte} (ha : addressesLegal host chip = true)
    (cfg : List Byte) (mode : EdcMode) : (acquireAndBind cfg host chip mode s).Inv := by
  obtain ⟨hbits, hswap⟩ := nadByte_legal ha
  unfold acquireAndBind
  cases hans : s.acquireAnswer with
  | true =>
    exact
      { h with
        notFailed := by simp [bindSession]
        held := ⟨fun _ => by simp [bindSession], fun _ => hans⟩
        session := fun _ => ⟨sizeLegal_default, rfl, hbits, hswap⟩
        resting := fun _ => rfl
        waiting := by simp
        resync := by simp
        exchange := by simp
        result := fun _ => ⟨rfl, rfl⟩ }
  | false =>
    exact
      { h with
        held := by simp [hans, hl]
        session := fun hc => { h.session hc with }
        exchange := fun hx => { h.exchange hx with }
        result := fun _ => ⟨rfl, rfl⟩ }

/-! ### `RESET` -/

theorem resetPulse_inv (h : s.Inv) (hr : s.atRest) : (resetPulse s).Inv :=
  { h with
    notFailed := by simp
    held := ⟨fun _ => by simp, fun _ => h.held.2 hr.ne_closed⟩
    session := fun _ => { h.session hr.ne_closed with ifsc := sizeLegal_default, ifsd := rfl }
    resting := fun _ => rfl
    waiting := by simp
    resync := by simp
    exchange := by simp
    atr := ⟨Nat.zero_le 33, rfl⟩ }

theorem afterRead_inv (h : s.Inv) (n timeout : Nat) (o : ReadOutcome) : (afterRead n timeout o s).Inv :=
  { h with
    session := fun hl => { h.session hl with }
    exchange := fun hl => { h.exchange hl with } }

theorem takeAtr_inv (h : s.Inv) (wf : List Byte → Bool) {a : List Byte} (ha : a.length ≤ 33) : (takeAtr wf a s).Inv := by
  have hlen : (BitVec.ofNat 8 a.length).toNat = a.length := by rw [BitVec.toNat_ofNat]; omega
  cases hw : wf a with
  | true =>
    rw [takeAtr_of_wellFormed hw]
    refine State.Inv.complete_ok (s := { s with atrb := _, atrLen := _ }) ?_ _ _
    exact
      { h with
        buffers := buffers_of_writeFrom .atrb 0 a h.buffers ((Nat.zero_add _).trans_le ha)
          fun b => by cases b <;> rfl
        session := fun hl => { h.session hl with }
        exchange := fun hl => { h.exchange hl with }
        atr := by simpa [hlen] using ⟨ha, Memory.filled_writeFrom_zero s.atrb a⟩ }
  | false =>
    rw [takeAtr_of_malformed hw]
    exact h.endsWith _

/-- The read of a `RESET` returns and the command completes, or it never returns (R246, R328). -/
theorem State.Inv.readAtr_resetPulse (h : s.Inv) (hr : s.atRest) :
    GoesOn State.Inv (readAtr (resetPulse s)) ∨
    (s.reads.head? = some .never ∧ readAtr (resetPulse s) = .fault (.readNeverReturns s.stuckInReset)) := by
  have hp := resetPulse_inv h hr
  unfold readAtr
  split
  · rename_i ho
    exact .inr ⟨readOutcome_eq_none (s := resetPulse s) ho, rfl⟩
  · exact .inl (.next ((afterRead_inv hp _ _ _).endsWith _))
  · exact .inl (.next ((afterRead_inv hp _ _ _).endsWith _))
  · rename_i a ho
    exact .inl (.next (takeAtr_inv (afterRead_inv hp _ _ _) _ (readOutcome_length ho)))

/-! ### `TRANSCEIVE` -/

/-- The accepted request is a legal exchange (R210, R249). -/
theorem exchangeStart_acceptRequest_inv (h : s.Inv) (hr : s.atRest) {apdu : List Byte} {cap : Half}
    (hreq : requestLegal apdu cap = true) : (exchangeStart (acceptRequest apdu cap s)).Inv := by
  obtain ⟨⟨hmin, hmax⟩, hcap⟩ := requestLegal_iff.1 hreq
  have hlen : (BitVec.ofNat 16 apdu.length).toNat = apdu.length := by rw [BitVec.toNat_ofNat]; omega
  have hs := h.session hr.ne_closed
  obtain ⟨hlegal, hchunk, hmore, hphase⟩ :=
    setChunk_legal (s := { acceptRequest apdu cap s with chunkMax := s.ifsc, txOff := 0#16 }) hs.ifsc
      (by simp only [acceptRequest, hlen, BitVec.toNat_ofNat]; omega)
  exact
    { h with
      notFailed := by simp
      held := ⟨fun _ => by simp, fun _ => h.held.2 hr.ne_closed⟩
      buffers := buffers_of_writeFrom .req 0 apdu h.buffers ((Nat.zero_add _).trans_le hmax)
        fun b => by cases b <;> rfl
      session := fun _ => { hs with }
      resting := fun _ => rfl
      waiting := fun _ => by simp [Config.wtmDefault]
      resync := by simp
      exchange := fun _ =>
        { lkgIfsc := hs.ifsc
          lkgIfsd := hs.ifsd
          retry := retryMax_legal
          reqLen := by simpa [hlen] using ⟨hmin, hmax⟩
          rspCap := hcap
          rspLen := Nat.zero_le _
          chunkMax := hs.ifsc
          txLen := hlegal
          chunk := hchunk
          txMore := hmore
          phase := hphase
          reqFilled := by simpa [hlen] using Memory.filled_writeFrom_zero s.req apdu
          rspFilled := rfl } }

theorem State.Inv.transceive_goesOn (h : s.Inv) (hr : s.atRest) {apdu : List Byte} {cap : Half}
    (hreq : requestLegal apdu cap = true) : GoesOn State.Inv (transmit (exchangeStart (acceptRequest apdu cap s))) := by
  have hu : (exchangeStart (acceptRequest apdu cap s)).Heard :=
    ⟨exchangeStart_acceptRequest_inv h hr hreq, .inl rfl, rfl⟩
  refine (hu.prepares_self.transmit_goesOn hu.wtm).mono ?_
  rintro t ⟨u, hu, -, hc⟩
  exact hc.inv hu.inv hu.running

/-! ### `CLOSE` -/

theorem discardSession_inv (s : State) : (discardSession s).Inv :=
  { powerOnMeetsInvariant with
    session := fun hl => absurd rfl hl
    exchange := by rintro (hl | hl) <;> cases hl }

/-! ### The command the host presents -/

/-- A command presented in a resting state completes or starts an exchange, unless it is a `RESET` whose read never returns. -/
theorem State.Inv.command_goesOn (h : s.Inv) (hr : s.lstate = .closed ∨ s.atRest) (c : HostCmd) :
    GoesOn State.Inv (exec (decodeCommand c) s) ∨
    (s.reads.head? = some .never ∧ s.atRest ∧ c.code = 0x02#8 ∧
      exec (decodeCommand c) s = .fault (.readNeverReturns s.stuckInReset)) := by
  have refused : GoesOn State.Inv (refuse s) := .next (h.endsWith .invalidArgument)
  unfold decodeCommand
  split
  · left
    rw [exec, execOpenCmd, onCommand_resting _ hr]
    split
    · rename_i hl
      split
      · rename_i ha
        exact .next (acquireAndBind_inv h hl ha _ _)
      · exact refused
    · exact refused
  split
  · rename_i hcode
    rw [exec, execResetCmd, onCommand_resting _ hr]
    split
    · rename_i hl
      have hrest := hr.resolve_left fun hc => by simp [hc, LState.session] at hl
      exact (h.readAtr_resetPulse hrest).imp_right fun ⟨hn, hf⟩ => ⟨hn, hrest, hcode, hf⟩
    · exact .inl refused
  left
  split
  · rw [exec, execTransceiveCmd, onCommand_resting _ hr]
    split
    · rename_i hl
      rw [Bool.and_eq_true] at hl
      exact h.transceive_goesOn (hr.resolve_left fun hc => by simp [hc, LState.session] at hl) hl.2
    · exact refused
  split
  · rw [exec, execCloseCmd, onCommand_resting _ hr]
    refine .next (State.Inv.endsWith ?_ .ok)
    split
    · exact h
    · exact discardSession_inv s
  split
  · rw [exec, execEncodeCmd, onCommand_resting _ hr]
    split
    · exact .next (h.endsWith .payloadTooLong)
    · exact .next (h.complete_ok _ _)
  split
  · rw [exec, execDecodeCmd, onCommand_resting _ hr]
    split
    · exact .next (h.complete_ok _ _)
    · exact .next (h.endsWith _)
  · rw [exec, execUnassignedCmd, onCommand_resting _ hr]
    exact refused

/-! ## Every step -/

theorem State.Inv.resting_or_inExchange (h : s.Inv) : (s.lstate = .closed ∨ s.atRest) ∨ s.inExchange := by
  have := h.notFailed
  unfold State.atRest State.inExchange
  cases hl : s.lstate <;> simp_all

/-- A step from a state that meets the invariant goes on to one that meets it, or the engine is stuck in a read that never
returns (R296, R328). -/
theorem State.Inv.step_goesOn (h : s.Inv) :
    GoesOn State.Inv (step s) ∨
    (s.reads.head? = some .never ∧
      ((s.inExchange ∧ step s = .fault (.readNeverReturns s.stuckInReply)) ∨
        (s.atRest ∧ ∃ c cs, s.hostIn = c :: cs ∧ c.code = 0x02#8 ∧
          step s = .fault (.readNeverReturns { s with hostIn := cs }.stuckInReset)))) := by
  rcases h.resting_or_inExchange with hr | hx
  · cases hc : s.hostIn with
    | nil =>
      rw [step_of_noCommand hr hc]
      exact .inl (.next h)
    | cons c cs =>
      rw [step_of_command hr hc]
      exact ((h.takeCommand cs).command_goesOn hr c).imp_right
        fun ⟨hn, hrest, hcode, hf⟩ => ⟨hn, .inr ⟨hrest, c, cs, rfl, hcode, hf⟩⟩
  · cases ho : s.readOutcome 259 with
    | none => exact .inr ⟨readOutcome_eq_none ho, .inl ⟨hx, by rw [step_exchange hx, ho]⟩⟩
    | some o =>
      refine .inl ((h.step_exchange_goesOn hx ho).mono ?_)
      rintro t ⟨u, hu, -, hc⟩
      exact hc.inv hu.inv hu.running

/-- Settles O52: every step either goes on to a state that meets the invariant or faults. -/
theorem everyStepKeepsInvariant : Obligations.EveryStepKeepsInvariant := by
  intro s t h hs
  rcases h.step_goesOn with ⟨t', ht', hi⟩ | ⟨-, ⟨-, hf⟩ | ⟨-, c, cs, -, -, hf⟩⟩
  · cases hs.symm.trans ht'
    exact hi
  · cases hs.symm.trans hf
  · cases hs.symm.trans hf

/-- Settles O53: the only steps that do not go on are the reads that never return. -/
theorem invariantStepsAreSafe : Obligations.InvariantStepsAreSafe :=
  fun _ h => h.step_goesOn.imp_left fun ⟨t, ht, _⟩ => ⟨t, ht⟩

end Sys2Proof.Machine
end

section
/-! PROOFS. The Byte Channel and the buffers in any state, the invariant not asked for: whatever answers a reply writes at most one
block, and only an ended exchange writes none. -/

namespace Sys2Proof.Machine

variable {s t u : State} {rsp : Memory} {f : Status} {c : Control} {p : List Byte}

/-! ## One block is written, or the exchange ends -/

/-- An operation ends the exchange without a write, or writes one block, which stands in `TXB`; if the channel refuses the block,
the exchange fails (R75, R158, R171). `RSP` is left as `rsp`. -/
inductive State.WritesOrEnds (s : State) (rsp : Memory) (t : State) : Prop where
  | ends (hrsp : t.rsp = rsp) (hidle : t.lstate = .idle) (hevents : t.events = s.events) (htxb : t.txb = s.txb)
  | writes (raw : List Byte) (hrsp : t.rsp = rsp) (hevents : t.events = .write raw s.writeAnswer :: s.events)
      (htxb : t.txb = s.txb.writeFrom 0 raw)
      (hrefused : s.writeAnswer = false → ∃ v : State, t = v.rolledBack .channelError)

theorem State.WritesOrEnds.rsp_eq (h : s.WritesOrEnds rsp t) : t.rsp = rsp := by
  cases h with
  | ends hrsp => exact hrsp
  | writes _ hrsp => exact hrsp

/-- Registers are written, and neither `TXB` nor the channel sees it. -/
structure State.Unsent (s u : State) : Prop where
  txb         : u.txb = s.txb := by rfl
  writeAnswer : u.writeAnswer = s.writeAnswer := by rfl
  events      : u.events = s.events := by rfl

/-- What an operation does after some registers are written it does from where they were written. -/
theorem State.WritesOrEnds.of_unsent (h : u.WritesOrEnds rsp t) (hu : s.Unsent u) : s.WritesOrEnds rsp t := by
  cases h with
  | ends hrsp hidle hevents htxb => exact .ends hrsp hidle (hevents.trans hu.events) (htxb.trans hu.txb)
  | writes raw hrsp hevents htxb hrefused =>
    rw [hu.writeAnswer] at hevents hrefused
    rw [hu.events] at hevents
    rw [hu.txb] at htxb
    exact .writes raw hrsp hevents htxb hrefused

/-! ### The shared operations -/

theorem State.writesOrEnds_rolledBack (s : State) (e : Status) : s.WritesOrEnds s.rsp (s.rolledBack e) := .ends rfl rfl rfl rfl

/-- A block is written; what follows an accepted write makes no other and leaves `TXB` and `RSP`. -/
theorem sendBlock_writesOrEnds {k : State → State} (hk : ∀ x : State, x.Unsent (k x) ∧ (k x).rsp = x.rsp)
    (h : sendBlock c p k s = .next t) : s.WritesOrEnds s.rsp t := by
  have hp := (sendBlock_next h).1
  cases hw : s.writeAnswer with
  | true =>
    cases (sendBlock_of_ok k hp hw).symm.trans h
    obtain ⟨hu, hrsp⟩ := hk (s.hands true c p)
    exact .writes _ hrsp (hw ▸ hu.events) hu.txb (by simp [hw])
  | false =>
    cases (sendBlock_of_error k hp hw).symm.trans h
    exact .writes _ rfl (hw ▸ rfl) rfl fun _ => ⟨_, rfl⟩

theorem transmit_writesOrEnds (h : transmit s = .next t) : s.WritesOrEnds s.rsp t := by
  obtain ⟨c, p, hc, -⟩ := transmit_next h
  rw [transmit, hc] at h
  exact sendBlock_writesOrEnds (fun _ => ⟨{}, rfl⟩) h

theorem resync_writesOrEnds (h : resync f s = .next t) : s.WritesOrEnds s.rsp t :=
  (sendBlock_writesOrEnds (fun _ => ⟨{}, rfl⟩) h).of_unsent {}

theorem retransmit_writesOrEnds (h : retransmit f s = .next t) : s.WritesOrEnds s.rsp t := by
  rcases spend_next h with ⟨-, rfl⟩ | ⟨-, h⟩
  · exact .ends rfl rfl rfl rfl
  · exact (transmit_writesOrEnds h).of_unsent {}

theorem resynced_writesOrEnds (h : resynced s = .next t) : s.WritesOrEnds s.rsp t := by
  rcases resynced_next h with ⟨-, rfl⟩ | ⟨-, h⟩
  · exact .ends rfl rfl rfl rfl
  · exact (transmit_writesOrEnds h).of_unsent {}

theorem finish_writesOrEnds (h : finish s = .next t) : s.WritesOrEnds s.rsp t := by
  unfold finish at h
  split at h
  · cases h
    exact .ends rfl rfl rfl rfl
  · split at h
    · cases h
    · cases h
      exact .ends rfl rfl rfl rfl

/-- An accepted payload is appended to `RSP`; it is acknowledged, or the exchange is complete (R164 step 4, R218). -/
theorem acceptBlock_writesOrEnds {m : Bool} {inf : List Byte} (h : acceptBlock m inf s = .next t) :
    s.WritesOrEnds (s.rsp.writeFrom s.rspLen.toNat inf) t := by
  unfold acceptBlock at h
  split at h
  · cases h
  · split at h
    · exact (transmit_writesOrEnds h).of_unsent {}
    · exact (finish_writesOrEnds h).of_unsent {}

/-! ### The replies -/

/-- What a block with the right address does to an exchange; only an I-block is stored (R164). -/
theorem judge_writesOrEnds {b : Block} (h : judge b s = .next t) :
    s.WritesOrEnds s.rsp t ∨
    ((∃ ns m, b.control = .i ns m) ∧ s.WritesOrEnds (s.rsp.writeFrom s.rspLen.toNat b.payload) t) := by
  rcases judge_next h with h | ⟨m, hc, -, -, ⟨-, rfl⟩ | ⟨-, h⟩⟩ | ⟨-, -, h⟩ | ⟨-, h⟩ | ⟨v, -, -, -, h⟩ | ⟨v, -, -, -, h⟩ | ⟨-, h⟩
  · exact .inl (resync_writesOrEnds h)
  · exact .inl (s.writesOrEnds_rolledBack _)
  · exact .inr ⟨⟨_, _, hc⟩, acceptBlock_writesOrEnds h⟩
  · exact .inl ((transmit_writesOrEnds h).of_unsent {})
  · exact .inl (retransmit_writesOrEnds h)
  · exact .inl ((sendBlock_writesOrEnds (fun _ => ⟨{}, rfl⟩) h).of_unsent {})
  · exact .inl ((sendBlock_writesOrEnds (fun _ => ⟨{}, rfl⟩) h).of_unsent {})
  · exact .inl (sendBlock_writesOrEnds (k := fail .sequenceError) (fun _ => ⟨{}, rfl⟩) h)

theorem judgeResync_writesOrEnds {b : Block} (h : judgeResync b s = .next t) : s.WritesOrEnds s.rsp t := by
  unfold judgeResync at h
  split at h
  · exact resynced_writesOrEnds h
  · cases h
    exact s.writesOrEnds_rolledBack _

/-- All that a received block does to `RSP`, `TXB` and the channel, in any state (R164, R168, R189, R288). -/
theorem exec_ofBlock_writesOrEnds {b : Block} (h : exec (.ofBlock b) s = .next t) :
    (¬ s.inExchange ∧ t = s) ∨ s.WritesOrEnds s.rsp t ∨
    ((∃ ns m, b.control = .i ns m) ∧ s.WritesOrEnds (s.rsp.writeFrom s.rspLen.toNat b.payload) t) := by
  rw [exec_ofBlock] at h
  rcases onReply_next h with ⟨-, -, h⟩ | ⟨-, -, h⟩ | ⟨-, -, h⟩ | ⟨-, -, rfl⟩ | h
  · exact .inr (judge_writesOrEnds h)
  · exact .inr (.inl (resync_writesOrEnds h))
  · exact .inr (.inl (judgeResync_writesOrEnds h))
  · exact .inr (.inl (s.writesOrEnds_rolledBack _))
  · exact .inl h

theorem onTimeout_writesOrEnds (hx : s.inExchange) (h : onTimeout s = .next t) : s.WritesOrEnds s.rsp t := by
  rcases hx with hl | hl
  · rw [onTimeout_exchanging hl] at h
    exact resync_writesOrEnds h
  · rw [onTimeout_resynchronizing hl] at h
    cases h
    exact s.writesOrEnds_rolledBack _

theorem onInvalid_writesOrEnds (hx : s.inExchange) {e : DecodeError} (h : onInvalid e s = .next t) :
    s.WritesOrEnds s.rsp t := by
  rcases hx with hl | hl
  · rw [onInvalid_exchanging e hl] at h
    exact retransmit_writesOrEnds h
  · rw [onInvalid_resynchronizing e hl] at h
    cases h
    exact s.writesOrEnds_rolledBack _

/-- A step inside an exchange is one read, and what answers its outcome writes one block or ends the exchange (R75, R76). -/
theorem step_exchange_writesOrEnds (hx : s.inExchange) (h : step s = .next t) :
    ∃ (o : ReadOutcome) (rsp : Memory), (s.hasRead o).WritesOrEnds rsp t := by
  rw [step_exchange hx] at h
  split at h
  · cases h
  · cases h
    exact ⟨.error, _, State.writesOrEnds_rolledBack _ _⟩
  · exact ⟨.timeout, _, onTimeout_writesOrEnds hx h⟩
  · rename_i raw _
    have hstore : (s.hasRead (.bytes raw)).Unsent (s.hasReadBytes raw) := {}
    split at h
    · exact ⟨.bytes raw, _, (onInvalid_writesOrEnds (s := s.hasReadBytes raw) hx h).of_unsent hstore⟩
    · rcases exec_ofBlock_writesOrEnds h with ⟨hn, -⟩ | h | ⟨-, h⟩
      · exact absurd hx hn
      · exact ⟨.bytes raw, _, h.of_unsent hstore⟩
      · exact ⟨.bytes raw, _, h.of_unsent hstore⟩

end Sys2Proof.Machine
end

section
/-! PROOFS. The statements about the received block, the buffers it may write and the write that answers it. -/

namespace Sys2Proof

/-- An instruction of a received kind is the one of the block it arrived in. -/
theorem Instr.ofBlock_of_block {i : Instr} {b : Block} (h : i.block = some b) : Instr.ofBlock b = i := by
  cases i <;> cases h <;> rfl

end Sys2Proof

namespace Sys2Proof.Machine

variable {s t : State} {rsp : Memory}

/-! ## The read of a reply -/

/-- Settles O10: the read is recorded and its bytes stored, and the step is the decoded block's meaning. -/
theorem stepRunsReceivedBlock : Obligations.StepRunsReceivedBlock := by
  intro s raw i hx (ho : s.readOutcome Config.blockMax = some (.bytes raw)) hd
  simp only [step, fetch_exchange hx, fetchReply, ho, hd, storeReply_endWait_afterRead hx]

/-- Settles O54: the read is the step's first call, and its answer writes at most one block. -/
theorem oneReadThenAtMostOneWrite : Obligations.OneReadThenAtMostOneWrite := by
  intro s t hx hs
  obtain ⟨o, rsp, h⟩ := step_exchange_writesOrEnds hx hs
  cases h with
  | ends _ hidle hevents => exact ⟨_, o, .inl ⟨hidle, hevents⟩⟩
  | writes raw _ hevents => exact ⟨_, o, .inr ⟨raw, _, hevents⟩⟩

/-! ## The buffers a received block may write -/

/-- `TXB` and the record of calls as `BlockStoreFrame` says: both untouched, or one block written to both (R63, R134). -/
theorem State.WritesOrEnds.txb_frame (h : s.WritesOrEnds rsp t) :
    (t.events = s.events ∧ s.sameBytes t .txb) ∨
    ∃ raw ok, t.events = .write raw ok :: s.events ∧
      ∀ a, t.bufRead .txb a = if a < raw.length then raw[a]? else s.bufRead .txb a := by
  cases h with
  | ends _ _ hevents htxb => exact .inl ⟨hevents, fun a => congrArg (Memory.read · a) htxb⟩
  | writes raw _ hevents htxb =>
    refine .inr ⟨raw, _, hevents, fun a => ?_⟩
    simpa only [State.bufRead, State.buf, htxb, Nat.zero_le, true_and, Nat.zero_add, Nat.sub_zero]
      using Memory.read_writeFrom s.txb 0 a raw

/-- Settles O44: a block leaves `RSP` or, as an I-block, writes its payload at `RSP_LEN`. -/
theorem blockStoreFrame : Obligations.BlockStoreFrame := by
  intro s t b h
  have kept (hrsp : t.rsp = s.rsp) : s.sameBytes t .rsp := fun a => congrArg (Memory.read · a) hrsp
  rcases exec_ofBlock_writesOrEnds h with ⟨-, rfl⟩ | h | ⟨⟨ns, m, hc⟩, h⟩
  · exact ⟨fun _ _ => rfl, fun _ _ => rfl, .inl ⟨rfl, fun _ => rfl⟩⟩
  · exact ⟨fun a _ => kept h.rsp_eq a, fun _ => kept h.rsp_eq, h.txb_frame⟩
  · refine ⟨fun a ha => ?_, fun hn => absurd hc (hn ns m), h.txb_frame⟩
    exact (congrArg (Memory.read · a) h.rsp_eq).trans (Memory.read_writeFrom_outside s.rsp ha)

/-! ## The write the channel refuses -/

/-- If the one call recorded since `s` is a write, the recorded answer is the channel's, and a refusal has failed the exchange
(R68, R171). -/
def State.AfterWriteFrom (s t : State) : Prop :=
  ∀ raw ok, t.events = .write raw ok :: s.events →
    ok = s.writeAnswer ∧ (ok = false → ∃ v : State, t = v.rolledBack .channelError)

/-- Where no call is recorded there is nothing to ask of a write. -/
theorem State.afterWriteFrom_of_events_eq (h : t.events = s.events) : s.AfterWriteFrom t :=
  fun _ _ hw => absurd (hw.symm.trans h) (List.cons_ne_self _ _)

/-- Nor where the newest call recorded is not a write. -/
theorem State.afterWriteFrom_of_events_cons {e : ChanEvent} {es : List ChanEvent} (he : ∀ raw ok, e ≠ .write raw ok)
    (h : t.events = e :: es) : s.AfterWriteFrom t :=
  fun raw ok hw => absurd (List.cons.inj (h.symm.trans hw)).1 (he raw ok)

theorem State.WritesOrEnds.afterWriteFrom (h : s.WritesOrEnds rsp t) : s.AfterWriteFrom t := by
  intro raw ok hw
  cases h with
  | ends _ _ hevents => exact State.afterWriteFrom_of_events_eq hevents raw ok hw
  | writes _ _ hevents _ hrefused =>
    cases hw.symm.trans hevents
    exact ⟨rfl, hrefused⟩

theorem exec_ofBlock_afterWriteFrom {b : Block} (h : exec (.ofBlock b) s = .next t) : s.AfterWriteFrom t := by
  rcases exec_ofBlock_writesOrEnds h with ⟨-, rfl⟩ | h | ⟨-, h⟩
  · exact State.afterWriteFrom_of_events_eq rfl
  · exact h.afterWriteFrom
  · exact h.afterWriteFrom

/-- `OPEN` calls `ChanAcquire` only (R244). -/
theorem execOpenCmd_afterWriteFrom {cfg : List Byte} {host chip : Byte} {mode : EdcMode}
    (h : exec (.openCmd cfg host chip mode) s = .next t) : s.AfterWriteFrom t := by
  have hev : (acquireAndBind cfg host chip mode s).events = .acquire cfg s.acquireAnswer :: s.events := by
    unfold acquireAndBind
    split <;> rfl
  rcases execOpenCmd_next h with rfl | rfl | ⟨-, -, rfl⟩
  · exact State.afterWriteFrom_of_events_eq rfl
  · exact State.afterWriteFrom_of_events_eq rfl
  · exact State.afterWriteFrom_of_events_cons (by simp) hev

/-- The last call of `RESET` is its read (R246). -/
theorem execResetCmd_afterWriteFrom (h : exec .resetCmd s = .next t) : s.AfterWriteFrom t := by
  rcases execResetCmd_next h with rfl | rfl | ⟨-, o, -, ⟨st, -, rfl⟩ | ⟨a, -, -, hwf, rfl⟩⟩
  · exact State.afterWriteFrom_of_events_eq rfl
  · exact State.afterWriteFrom_of_events_eq rfl
  · exact State.afterWriteFrom_of_events_cons (e := .read 33 Config.atrTimeout o) (by simp) rfl
  · rw [takeAtr_of_wellFormed hwf]
    exact State.afterWriteFrom_of_events_cons (e := .read 33 Config.atrTimeout o) (by simp) rfl

/-- `TRANSCEIVE` writes the first block of the request (R222). -/
theorem execTransceiveCmd_afterWriteFrom {apdu : List Byte} {cap : Half} (h : exec (.transceiveCmd apdu cap) s = .next t) :
    s.AfterWriteFrom t := by
  rcases execTransceiveCmd_next h with rfl | rfl | ⟨-, -, h⟩
  · exact State.afterWriteFrom_of_events_eq rfl
  · exact State.afterWriteFrom_of_events_eq rfl
  · exact ((transmit_writesOrEnds h).of_unsent {}).afterWriteFrom

/-- `CLOSE` calls `ChanRelease` only (R252). -/
theorem execCloseCmd_afterWriteFrom (h : exec .closeCmd s = .next t) : s.AfterWriteFrom t := by
  rw [exec, execCloseCmd] at h
  rcases onCommand_next h with ⟨-, h⟩ | rfl
  · cases h
    split
    · exact State.afterWriteFrom_of_events_eq rfl
    · exact State.afterWriteFrom_of_events_cons (e := .release) (by simp) rfl
  · exact State.afterWriteFrom_of_events_eq rfl

/-- A command run by a frame that records no call (R253, R102). -/
theorem onCommand_afterWriteFrom {run : State → Result} (hrun : ∀ v, run s = .next v → v.events = s.events)
    (h : onCommand run s = .next t) : s.AfterWriteFrom t := by
  rcases onCommand_next h with ⟨-, h⟩ | rfl
  · exact State.afterWriteFrom_of_events_eq (hrun t h)
  · exact State.afterWriteFrom_of_events_eq rfl

/-- Every instruction: a received kind by the block it arrived in, a command by what it calls. -/
theorem exec_afterWriteFrom {i : Instr} (h : exec i s = .next t) : s.AfterWriteFrom t := by
  cases hb : i.block with
  | some b => exact exec_ofBlock_afterWriteFrom (Instr.ofBlock_of_block hb ▸ h)
  | none =>
    cases i with
    | openCmd cfg host chip mode => exact execOpenCmd_afterWriteFrom h
    | resetCmd => exact execResetCmd_afterWriteFrom h
    | transceiveCmd apdu cap => exact execTransceiveCmd_afterWriteFrom h
    | closeCmd => exact execCloseCmd_afterWriteFrom h
    | encodeCmd mode nad control payload =>
      rw [exec, execEncodeCmd] at h
      refine onCommand_afterWriteFrom (fun v hv => ?_) h
      split at hv <;> cases hv <;> rfl
    | decodeCmd mode raw =>
      rw [exec, execDecodeCmd] at h
      refine onCommand_afterWriteFrom (fun v hv => ?_) h
      split at hv <;> cases hv <;> rfl
    | unassignedCmd code =>
      rw [exec, execUnassignedCmd] at h
      exact onCommand_afterWriteFrom (fun v hv => by cases hv; rfl) h
    | _ => cases hb

/-- Settles O45: a refused write has failed the exchange, and `Fail(ChannelError)` leaves the last-known-good registers (R196). -/
theorem refusedWriteFails : Obligations.RefusedWriteFails := by
  intro i s t raw ok h hw
  obtain ⟨hok, hfail⟩ := exec_afterWriteFrom h raw ok hw
  refine ⟨hok, fun hno => ?_⟩
  obtain ⟨v, rfl⟩ := hfail hno
  exact ⟨rfl, rfl, rfl, rfl, rfl, rfl, rfl, rfl, rfl⟩

end Sys2Proof.Machine
end

section
/-! PROOFS. The codec and the decoder of instructions: what decodes from what was encoded, and the command codes no row assigns. -/

namespace Sys2Proof

/-! ## Decoding what was encoded -/

/-- The class of a byte that R88 to R90 do not list is `Unknown` of that byte (R92, R125). -/
theorem classify_of_unrecognized : ∀ raw : Byte, (!recognizedControlBytes.contains raw) = true → classify raw = .unknown raw := by
  decide

/-- `CLASSIFY` undoes `PCB_ENCODE` on well-formed control values (R127). -/
theorem classify_pcbEncode {c : Control} (h : c.wellFormed = true) : classify (pcbEncode c) = c := by
  cases c with
  | unknown raw => exact classify_of_unrecognized raw h
  | i ns m => cases ns <;> cases m <;> rfl
  | rPos nr => cases nr <;> rfl
  | rNegSeq nr => cases nr <;> rfl
  | rNegOther nr => cases nr <;> rfl
  | sReq kind => cases kind <;> rfl
  | sResp kind => cases kind <;> rfl

/-- Once the tests on the two lengths pass, `DECODE` is the error-detection test and the Block (R140 steps 4 to 6). -/
theorem decodeBlock_of_lengths {mode : EdcMode} {nad pcb len : Byte} {rest : List Byte} (hle : len.toNat ≤ 254)
    (hlen : rest.length = len.toNat + mode.size) :
    decodeBlock mode (nad :: pcb :: len :: rest) = decodeChecked mode (nad :: pcb :: len :: rest) nad pcb rest := by
  have hraw : (nad :: pcb :: len :: rest).length = 3 + len.toNat + mode.size := by simp only [List.length_cons]; omega
  have hmax : ¬ len.toNat > Config.lenMax := Nat.not_lt.2 hle
  rw [decodeBlock, if_neg (by omega)]
  exact (if_neg hmax).trans (if_neg (by omega))

/-- `DECODE` undoes `ENCODE` on valid blocks: all that precedes the error-detection field is the body it was computed of (R143). -/
theorem decodeBlock_wire (mode : EdcMode) {b : Block} (h : b.valid = true) : decodeBlock mode (b.wire mode) = .ok b := by
  obtain ⟨hc, hp⟩ := Block.valid_iff.1 h
  have hlen : (BitVec.ofNat 8 b.payload.length).toNat = b.payload.length := lengthByte_toNat hp
  have hcov : (b.wire mode).length - mode.size = 3 + b.payload.length := by rw [Block.wire_length, Nat.add_sub_cancel]
  calc decodeBlock mode (b.wire mode)
    _ = decodeChecked mode (b.wire mode) b.nad (pcbEncode b.control) (b.payload ++ edc mode b.body) :=
      decodeBlock_of_lengths (rest := b.payload ++ edc mode b.body) (hlen.trans_le hp) (by rw [List.length_append, edc_length, hlen])
    _ = .ok b := by
      simp only [decodeChecked, hcov, Block.wire_drop_body, Block.wire_take_body, if_true, classify_pcbEncode hc,
        Nat.add_sub_cancel_left, List.take_left]

/-- The raw bytes of a valid block decode to its instruction (R161 step w7). -/
theorem decode_wire (mode : EdcMode) {b : Block} (h : b.valid = true) : decode mode (.block (b.wire mode)) = .ok (.ofBlock b) := by
  rw [decode, decodeBlock_wire mode h]

/-- An instruction of a received kind is put on the wire as the block it arrived in (R80). -/
theorem encode_of_block (mode : EdcMode) {i : Instr} {b : Block} (h : i.block = some b) :
    encode mode i = .block (b.wire mode) := by
  cases i <;> cases h <;> rfl

/-- An instruction of a received kind is well formed exactly when its block is valid (R128). -/
theorem Instr.wellFormed_of_block {i : Instr} {b : Block} (h : i.block = some b) : i.wellFormed = b.valid := by
  cases i <;> cases h <;> rfl

/-- A code outside the table is an unassigned command (R102). -/
theorem decodeCommand_of_unassigned {c : HostCmd} (h : c.code ∉ assignedCommandCodes) :
    decodeCommand c = .unassignedCmd c.code := by
  simp only [assignedCommandCodes, List.mem_cons, List.not_mem_nil, or_false, not_or] at h
  simp only [decodeCommand, h, if_false]

/-- A command's code and operands decode to the command (R100, R101). -/
theorem decode_encode_of_command (mode : EdcMode) {i : Instr} (hw : i.wellFormed = true) (hb : i.block = none) :
    decode mode (encode mode i) = .ok i := by
  cases i with
  | openCmd cfg host chip m => simp [encode, decode, decodeCommand, HostCmd.bare]
  | resetCmd => rfl
  | transceiveCmd apdu cap => rfl
  | closeCmd => rfl
  | encodeCmd m nad control payload => simp [encode, decode, decodeCommand, HostCmd.bare, classify_pcbEncode hw]
  | decodeCmd m raw => simp [encode, decode, decodeCommand, HostCmd.bare]
  | unassignedCmd code =>
    have hcode : (HostCmd.bare code).code ∉ assignedCommandCodes := by simpa [Instr.wellFormed, HostCmd.bare] using hw
    exact congrArg Except.ok (decodeCommand_of_unassigned hcode)
  | _ => cases hb

/-- Settles O3: a received kind is the block it arrived in, which `DECODE` gives back; a command is its code and operands. -/
theorem decodeOfEncodeIsInstruction : Obligations.DecodeOfEncodeIsInstruction := by
  intro mode i hw
  cases hb : i.block with
  | none => exact decode_encode_of_command mode hw hb
  | some b =>
    rw [encode_of_block mode hb, decode_wire mode (Instr.wellFormed_of_block hb ▸ hw), Instr.ofBlock_of_block hb]

/-! ## The words of the opcode table -/

/-- A table byte that stands for the instruction `i` decodes to `i` (log entry 19). -/
theorem decodeTableWord_of_encode {w : Nat} {i : Instr} (hlt : w < 256) (hw : i.wellFormed = true)
    (he : tablePortWord .lrc (BitVec.ofNat 8 w) = encode .lrc i) : decodeTableWord 8 w = some i := by
  have hb : tableByte 8 w = some (BitVec.ofNat 8 w) := if_pos ⟨le_rfl, hlt⟩
  simp only [decodeTableWord, hb, he, decodeOfEncodeIsInstruction .lrc i hw]

/-- Settles O7: each word is the encoding of its instruction. -/
theorem tableWordsDecode : Obligations.TableWordsDecode :=
  ⟨decodeTableWord_of_encode (by decide) rfl rfl,
   decodeTableWord_of_encode (by decide) rfl rfl,
   decodeTableWord_of_encode (by decide) rfl rfl,
   decodeTableWord_of_encode (by decide) rfl rfl,
   decodeTableWord_of_encode (by decide) rfl rfl,
   decodeTableWord_of_encode (by decide) rfl rfl,
   decodeTableWord_of_encode (by decide) rfl rfl,
   decodeTableWord_of_encode (by decide) rfl rfl,
   decodeOfEncodeIsInstruction .lrc (.iBlock 0x21#8 false false [0x90#8, 0x00#8]) rfl⟩

end Sys2Proof

namespace Sys2Proof.Machine

/-- Settles O25: no row of the table has the code, and the meaning of an unassigned code is the refusal. -/
theorem unassignedCodeRefused : Obligations.UnassignedCodeRefused :=
  fun _ _ hr hc => ⟨decodeCommand_of_unassigned hc, onCommand_resting refuse hr⟩

end Sys2Proof.Machine
end

section
/-! PROOFS. The forms of the blocks the engine writes, in any state. -/

namespace Sys2Proof.Machine

variable {s t u : State} {f : Status} {c : Control} {p : List Byte}

/-! ## The blocks an operation writes -/

/-- The six forms of a block the engine sends (R97). -/
def SentForm (c : Control) (p : List Byte) : Prop :=
  (∃ ns m, c = .i ns m) ∨ (∃ nr, c = .rPos nr ∧ p = []) ∨ (c = .sReq .resynch ∧ p = []) ∨
  (c = .sResp .ifs ∧ p.length = 1) ∨ (c = .sResp .abort ∧ p = []) ∨ (c = .sResp .wtx ∧ p.length = 1)

theorem sentForm_resynch : SentForm (.sReq .resynch) [] := .inr (.inr (.inl ⟨rfl, rfl⟩))

theorem sentForm_ifs (v : Byte) : SentForm (.sResp .ifs) [v] := .inr (.inr (.inr (.inl ⟨rfl, rfl⟩)))

theorem sentForm_abort : SentForm (.sResp .abort) [] := .inr (.inr (.inr (.inr (.inl ⟨rfl, rfl⟩))))

theorem sentForm_wtx (v : Byte) : SentForm (.sResp .wtx) [v] := .inr (.inr (.inr (.inr (.inr ⟨rfl, rfl⟩))))

/-- A current block has one of the first two forms (R158). -/
theorem sentForm_currentBlock (h : s.currentBlock = some (c, p)) : SentForm c p :=
  (State.currentBlock_form h).imp_right .inl

/-- From `s` to `t` the record of channel calls grows, and every write added to it is a block of one of the six forms, in the
binding of `s` (R97, R158). -/
def State.SendsForms (s t : State) : Prop :=
  ∃ new, t.events = new ++ s.events ∧ ∀ raw ok, ChanEvent.write raw ok ∈ new → ∃ c p, raw = s.raw c p ∧ SentForm c p

/-- Calls that are no writes send nothing. -/
theorem State.sendsForms_of_no_write {new : List ChanEvent} (h : t.events = new ++ s.events)
    (hn : ∀ raw ok, ChanEvent.write raw ok ∉ new) : s.SendsForms t :=
  ⟨new, h, fun raw ok hw => absurd hw (hn raw ok)⟩

theorem State.sendsForms_of_events_eq (h : t.events = s.events) : s.SendsForms t :=
  State.sendsForms_of_no_write (new := []) h (by simp)

/-- One block of one of the six forms is written. -/
theorem State.sendsForms_of_write (hf : SentForm c p) {ok : Bool} (h : t.events = .write (s.raw c p) ok :: s.events) :
    s.SendsForms t := by
  refine ⟨[.write (s.raw c p) ok], h, fun raw ok hw => ?_⟩
  cases List.mem_singleton.1 hw
  exact ⟨c, p, rfl, hf⟩

/-- What is sent after calls that are no writes is sent, if those leave the binding. -/
theorem State.SendsForms.after {pre : List ChanEvent} (h : u.SendsForms t) (he : u.events = pre ++ s.events)
    (hp : ∀ raw ok, ChanEvent.write raw ok ∉ pre) (hb : s.sameBinding u := by exact ⟨rfl, rfl, rfl⟩) : s.SendsForms t := by
  obtain ⟨new, hnew, hforms⟩ := h
  obtain ⟨hnad, -, hmode⟩ := hb
  refine ⟨new ++ pre, by rw [hnew, he, List.append_assoc], fun raw ok hw => ?_⟩
  obtain ⟨c, p, rfl, hf⟩ := hforms raw ok ((List.mem_append.1 hw).resolve_right (hp raw ok))
  exact ⟨c, p, by rw [State.raw, State.raw, hnad, hmode], hf⟩

/-- What is sent after some registers are written is sent. -/
theorem State.SendsForms.of_registers (h : u.SendsForms t) (he : u.events = s.events := by rfl)
    (hb : s.sameBinding u := by exact ⟨rfl, rfl, rfl⟩) : s.SendsForms t :=
  h.after (pre := []) he (by simp) hb

/-! ### The shared operations -/

theorem sendBlock_sendsForms {k : State → State} (hf : SentForm c p) (hk : ∀ x, (k x).events = x.events)
    (h : sendBlock c p k s = .next t) : s.SendsForms t := by
  obtain ⟨-, rfl | rfl⟩ := sendBlock_next h
  · exact State.sendsForms_of_write hf (hk _)
  · exact State.sendsForms_of_write hf rfl

theorem transmit_sendsForms (h : transmit s = .next t) : s.SendsForms t := by
  obtain ⟨c, p, hc, -, rfl | rfl⟩ := transmit_next h
  · exact State.sendsForms_of_write (sentForm_currentBlock hc) rfl
  · exact State.sendsForms_of_write (sentForm_currentBlock hc) rfl

theorem resync_sendsForms (h : resync f s = .next t) : s.SendsForms t :=
  (sendBlock_sendsForms sentForm_resynch (fun _ => rfl) h).of_registers

theorem retransmit_sendsForms (h : retransmit f s = .next t) : s.SendsForms t := by
  rcases spend_next h with ⟨-, rfl⟩ | ⟨-, h⟩
  · exact State.sendsForms_of_events_eq rfl
  · exact (transmit_sendsForms h).of_registers

theorem resynced_sendsForms (h : resynced s = .next t) : s.SendsForms t := by
  rcases resynced_next h with ⟨-, rfl⟩ | ⟨-, h⟩
  · exact State.sendsForms_of_events_eq rfl
  · exact (transmit_sendsForms h).of_registers

/-- An accepted I-block is acknowledged by `R+`, or it completes the exchange without a write (R218, R219). -/
theorem acceptBlock_sendsForms {m : Bool} {inf : List Byte} (h : acceptBlock m inf s = .next t) : s.SendsForms t := by
  have hack : SentForm (.rPos (!s.rsb)) [] := .inr (.inl ⟨_, rfl, rfl⟩)
  rcases acceptBlock_next h with ⟨-, rfl | rfl⟩ | ⟨-, ⟨-, rfl⟩ | ⟨-, data, -, rfl⟩⟩
  · exact State.sendsForms_of_write hack rfl
  · exact State.sendsForms_of_write hack rfl
  · exact State.sendsForms_of_events_eq rfl
  · exact State.sendsForms_of_events_eq rfl

/-! ## The replies -/

theorem judge_sendsForms {b : Block} (h : judge b s = .next t) : s.SendsForms t := by
  rcases judge_next h with h | ⟨m, -, -, -, ⟨-, rfl⟩ | ⟨-, h⟩⟩ | ⟨-, -, h⟩ | ⟨-, h⟩ | ⟨v, -, -, -, h⟩ | ⟨v, -, -, -, h⟩ | ⟨-, h⟩
  · exact resync_sendsForms h
  · exact State.sendsForms_of_events_eq rfl
  · exact acceptBlock_sendsForms h
  · exact (transmit_sendsForms h).of_registers
  · exact retransmit_sendsForms h
  · exact (sendBlock_sendsForms (sentForm_wtx v) (fun _ => rfl) h).of_registers
  · exact (sendBlock_sendsForms (sentForm_ifs v) (fun _ => rfl) h).of_registers
  · exact sendBlock_sendsForms (k := fail .sequenceError) sentForm_abort (fun _ => rfl) h

theorem judgeResync_sendsForms {b : Block} (h : judgeResync b s = .next t) : s.SendsForms t := by
  unfold judgeResync at h
  split at h
  · exact resynced_sendsForms h
  · cases h
    exact State.sendsForms_of_events_eq rfl

theorem exec_ofBlock_sendsForms {b : Block} (h : exec (.ofBlock b) s = .next t) : s.SendsForms t := by
  rw [exec_ofBlock] at h
  rcases onReply_next h with ⟨-, -, h⟩ | ⟨-, -, h⟩ | ⟨-, -, h⟩ | ⟨-, -, rfl⟩ | ⟨-, rfl⟩
  · exact judge_sendsForms h
  · exact resync_sendsForms h
  · exact judgeResync_sendsForms h
  · exact State.sendsForms_of_events_eq rfl
  · exact State.sendsForms_of_events_eq rfl

theorem onTimeout_sendsForms (hx : s.inExchange) (h : onTimeout s = .next t) : s.SendsForms t := by
  rcases hx with hl | hl
  · rw [onTimeout_exchanging hl] at h
    exact resync_sendsForms h
  · rw [onTimeout_resynchronizing hl] at h
    cases h
    exact State.sendsForms_of_events_eq rfl

theorem onInvalid_sendsForms (hx : s.inExchange) {e : DecodeError} (h : onInvalid e s = .next t) : s.SendsForms t := by
  rcases hx with hl | hl
  · rw [onInvalid_exchanging e hl] at h
    exact retransmit_sendsForms h
  · rw [onInvalid_resynchronizing e hl] at h
    cases h
    exact State.sendsForms_of_events_eq rfl

/-- A step inside an exchange reads a reply, which writes nothing, and answers it. -/
theorem step_exchange_sendsForms (hx : s.inExchange) (h : step s = .next t) : s.SendsForms t := by
  have answered {o : ReadOutcome} (ha : (s.hasRead o).SendsForms t) : s.SendsForms t :=
    ha.after (pre := [_]) (s.hasRead_events o) (by simp)
  rw [step_exchange hx] at h
  split at h
  · cases h
  · cases h
    exact answered (State.sendsForms_of_events_eq rfl)
  · exact answered (onTimeout_sendsForms hx h)
  · rename_i raw _
    have judged (ha : (s.hasReadBytes raw).SendsForms t) : s.SendsForms t :=
      answered (o := .bytes raw) ha.of_registers
    split at h
    · exact judged (onInvalid_sendsForms hx h)
    · exact judged (exec_ofBlock_sendsForms h)

/-! ## The commands -/

/-- `OPEN` calls `ChanAcquire` only (R244). -/
theorem execOpenCmd_sendsForms {cfg : List Byte} {host chip : Byte} {mode : EdcMode}
    (h : exec (.openCmd cfg host chip mode) s = .next t) : s.SendsForms t := by
  have hev : (acquireAndBind cfg host chip mode s).events = [.acquire cfg s.acquireAnswer] ++ s.events := by
    unfold acquireAndBind
    split <;> rfl
  rcases execOpenCmd_next h with rfl | rfl | ⟨-, -, rfl⟩
  · exact State.sendsForms_of_events_eq rfl
  · exact State.sendsForms_of_events_eq rfl
  · exact State.sendsForms_of_no_write hev (by simp)

/-- `RESET` pulses the reset line and reads (R246). -/
theorem execResetCmd_sendsForms (h : exec .resetCmd s = .next t) : s.SendsForms t := by
  have pulsed {o : ReadOutcome} (ht : t.events = [.read 33 Config.atrTimeout o, .assertReset] ++ s.events) : s.SendsForms t :=
    State.sendsForms_of_no_write ht (by simp)
  rcases execResetCmd_next h with rfl | rfl | ⟨-, o, -, ⟨st, -, rfl⟩ | ⟨a, -, -, hwf, rfl⟩⟩
  · exact State.sendsForms_of_events_eq rfl
  · exact State.sendsForms_of_events_eq rfl
  · exact pulsed rfl
  · exact pulsed (by rw [takeAtr_of_wellFormed hwf]; rfl)

/-- `TRANSCEIVE` writes the first block of the request (R222). -/
theorem execTransceiveCmd_sendsForms {apdu : List Byte} {cap : Half} (h : exec (.transceiveCmd apdu cap) s = .next t) :
    s.SendsForms t := by
  rcases execTransceiveCmd_next h with rfl | rfl | ⟨-, -, h⟩
  · exact State.sendsForms_of_events_eq rfl
  · exact State.sendsForms_of_events_eq rfl
  · exact (transmit_sendsForms h).of_registers

/-- `CLOSE` calls `ChanRelease` only (R252). -/
theorem execCloseCmd_sendsForms (h : exec .closeCmd s = .next t) : s.SendsForms t := by
  rw [exec, execCloseCmd] at h
  rcases onCommand_next h with ⟨-, h⟩ | rfl
  · cases h
    split
    · exact State.sendsForms_of_events_eq rfl
    · exact State.sendsForms_of_no_write (new := [.release]) rfl (by simp)
  · exact State.sendsForms_of_events_eq rfl

/-- A command run by a frame that records no call (R253, R102). -/
theorem onCommand_sendsForms {run : State → Result} (hrun : ∀ v, run s = .next v → v.events = s.events)
    (h : onCommand run s = .next t) : s.SendsForms t := by
  rcases onCommand_next h with ⟨-, h⟩ | rfl
  · exact State.sendsForms_of_events_eq (hrun t h)
  · exact State.sendsForms_of_events_eq rfl

/-- Every instruction: a received kind by the block it arrived in, a command by what it calls. -/
theorem exec_sendsForms {i : Instr} (h : exec i s = .next t) : s.SendsForms t := by
  cases hb : i.block with
  | some b => exact exec_ofBlock_sendsForms (Instr.ofBlock_of_block hb ▸ h)
  | none =>
    cases i with
    | openCmd cfg host chip mode => exact execOpenCmd_sendsForms h
    | resetCmd => exact execResetCmd_sendsForms h
    | transceiveCmd apdu cap => exact execTransceiveCmd_sendsForms h
    | closeCmd => exact execCloseCmd_sendsForms h
    | encodeCmd mode nad control payload =>
      rw [exec, execEncodeCmd] at h
      refine onCommand_sendsForms (fun v hv => ?_) h
      split at hv <;> cases hv <;> rfl
    | decodeCmd mode raw =>
      rw [exec, execDecodeCmd] at h
      refine onCommand_sendsForms (fun v hv => ?_) h
      split at hv <;> cases hv <;> rfl
    | unassignedCmd code =>
      rw [exec, execUnassignedCmd] at h
      exact onCommand_sendsForms (fun v hv => by cases hv; rfl) h
    | _ => cases hb

/-! ## Every step -/

theorem step_resting_sendsForms (hr : s.lstate = .closed ∨ s.atRest) (h : step s = .next t) : s.SendsForms t := by
  cases hc : s.hostIn with
  | nil =>
    rw [step_of_noCommand hr hc] at h
    cases h
    exact State.sendsForms_of_events_eq rfl
  | cons c cs =>
    rw [step_of_command hr hc] at h
    exact (exec_sendsForms h).of_registers

/-- `Failed` is left for `Idle` without a channel call (R156, R284). -/
theorem step_failed_sendsForms (hl : s.lstate = .failed) (h : step s = .next t) : s.SendsForms t := by
  simp only [step, fetch, hl] at h
  cases h
  exact State.sendsForms_of_events_eq rfl

/-- Settles O55: a resting state runs a command, `Failed` is left, and an exchange answers a reply. -/
theorem onlySixFormsAreSent : Obligations.OnlySixFormsAreSent := by
  intro s t h
  show s.SendsForms t
  cases hl : s.lstate with
  | closed => exact step_resting_sendsForms (.inl hl) h
  | awaitingAtr => exact step_resting_sendsForms (.inr (.inr hl)) h
  | idle => exact step_resting_sendsForms (.inr (.inl hl)) h
  | exchanging => exact step_exchange_sendsForms (.inl hl) h
  | resynchronizing => exact step_exchange_sendsForms (.inr hl) h
  | failed => exact step_failed_sendsForms hl h

end Sys2Proof.Machine
end

section
/-! PROOFS. The Block Codec: the control-byte map, when `DECODE` reports which error, the round trip, and what a changed byte of an
encoded block does. -/

namespace Sys2Proof

/-! ## The control byte -/

/-- `PCB_ENCODE` undoes `CLASSIFY` on every byte (R127). -/
theorem pcbEncode_classify : ∀ pcb : Byte, pcbEncode (classify pcb) = pcb := by decide

/-- `CLASSIFY` answers `Unknown` only of bytes R88 to R90 do not list (R126). -/
theorem classify_wellFormed : ∀ pcb : Byte, (classify pcb).wellFormed = true := by decide

/-- Settles O1: the two maps undo each other, and the image of `CLASSIFY` is well formed. -/
theorem controlByteMapInvertible : Obligations.ControlByteMapInvertible :=
  ⟨fun _ => classify_pcbEncode, pcbEncode_classify, classify_wellFormed⟩

/-! ## The outcomes of DECODE -/

variable {mode : EdcMode} {raw s e : List Byte} {b : Block} {j : Nat} {v : Byte}

/-- The tests of R140 on lengths pass: a header and the error-detection field are there, and the length byte is at most 254 and
counts the payload bytes present. -/
def LengthsAgree (mode : EdcMode) (raw : List Byte) : Prop :=
  3 + mode.size ≤ raw.length ∧ ∃ len, raw[2]? = some len ∧ len.toNat ≤ 254 ∧ len.toNat = raw.length - 3 - mode.size

/-- The test of R140 on the error-detection field passes: the last bytes are the field of all before them. -/
def EdcMatches (mode : EdcMode) (raw : List Byte) : Prop :=
  raw.drop (raw.length - mode.size) = edc mode (raw.take (raw.length - mode.size))

/-- A sequence of at least three bytes has a header. -/
theorem exists_header (h : 3 ≤ raw.length) : ∃ nad pcb len rest, raw = nad :: pcb :: len :: rest :=
  match raw, h with
  | nad :: pcb :: len :: rest, _ => ⟨nad, pcb, len, rest, rfl⟩

/-- Which way the tests on lengths fail (R140 steps 1 to 3). -/
theorem not_lengthsAgree_iff : ¬ LengthsAgree mode raw ↔
    raw.length < 3 + mode.size ∨ ∃ len, raw[2]? = some len ∧ (len.toNat > 254 ∨ len.toNat ≠ raw.length - 3 - mode.size) := by
  by_cases hs : raw.length < 3 + mode.size
  · exact iff_of_true (fun h => absurd h.1 (by omega)) (.inl hs)
  · have h2 : raw[2]? = some raw[2] := List.getElem?_eq_getElem (by omega)
    simp only [LengthsAgree, h2, Option.some.injEq, exists_eq_left', hs, Nat.le_of_not_lt hs, true_and, false_or]
    omega

theorem decodeBlock_of_lengthsDisagree (h : ¬ LengthsAgree mode raw) : decodeBlock mode raw = .error .malformedLength := by
  by_cases hs : raw.length < 3 + mode.size
  · exact if_pos hs
  · obtain ⟨nad, pcb, len, rest, rfl⟩ := exists_header (by omega : 3 ≤ raw.length)
    rw [decodeBlock, if_neg hs]
    by_cases hmax : len.toNat > Config.lenMax
    · exact if_pos hmax
    · exact (if_neg hmax).trans (if_pos fun hlen => h ⟨Nat.le_of_not_lt hs, len, rfl, Nat.le_of_not_lt hmax, hlen⟩)

/-- Once the tests on lengths pass, the error-detection test decides (R140 steps 4 to 6). -/
theorem decodeBlock_of_lengthsAgree (h : LengthsAgree mode raw) :
    ∃ nad pcb rest, decodeBlock mode raw = decodeChecked mode raw nad pcb rest := by
  obtain ⟨hs, len, h2, hle, hlen⟩ := h
  obtain ⟨nad, pcb, _, rest, rfl⟩ := exists_header (by omega : 3 ≤ raw.length)
  cases h2
  refine ⟨nad, pcb, rest, decodeBlock_of_lengths hle ?_⟩
  simp only [List.length_cons] at hs hlen
  omega

theorem decodeBlock_of_edc_ne (h : LengthsAgree mode raw) (hne : ¬ EdcMatches mode raw) :
    decodeBlock mode raw = .error .checksumMismatch := by
  obtain ⟨nad, pcb, rest, hd⟩ := decodeBlock_of_lengthsAgree h
  rw [hd]
  exact if_neg hne

theorem decodeBlock_of_edc_eq (h : LengthsAgree mode raw) (heq : EdcMatches mode raw) :
    ∃ b, decodeBlock mode raw = .ok b := by
  obtain ⟨nad, pcb, rest, hd⟩ := decodeBlock_of_lengthsAgree h
  exact ⟨_, hd.trans (if_pos heq)⟩

theorem decodeBlock_eq_malformedLength_iff : decodeBlock mode raw = .error .malformedLength ↔ ¬ LengthsAgree mode raw := by
  refine ⟨fun h ha => ?_, decodeBlock_of_lengthsDisagree⟩
  by_cases he : EdcMatches mode raw
  · obtain ⟨b, hb⟩ := decodeBlock_of_edc_eq ha he
    cases hb.symm.trans h
  · cases (decodeBlock_of_edc_ne ha he).symm.trans h

theorem decodeBlock_eq_checksumMismatch_iff : decodeBlock mode raw = .error .checksumMismatch ↔
    LengthsAgree mode raw ∧ ¬ EdcMatches mode raw := by
  refine ⟨fun h => ?_, fun ⟨ha, hne⟩ => decodeBlock_of_edc_ne ha hne⟩
  have ha : LengthsAgree mode raw := by
    by_contra hn
    cases (decodeBlock_of_lengthsDisagree hn).symm.trans h
  refine ⟨ha, fun he => ?_⟩
  obtain ⟨b, hb⟩ := decodeBlock_of_edc_eq ha he
  cases hb.symm.trans h

/-- Settles O6: the lengths disagree, the error-detection fields differ, or the Block is read off the sequence. -/
theorem decodeOutcomes : Obligations.DecodeOutcomes := by
  refine fun mode raw => ⟨decodeBlock_eq_malformedLength_iff.trans not_lengthsAgree_iff,
    decodeBlock_eq_checksumMismatch_iff.trans and_assoc, fun b h => ?_⟩
  obtain ⟨pcb, len, rest, rfl, -, -, -, hc, hp, -⟩ := decodeBlock_eq_ok h
  exact ⟨rfl, congrArg some hc.symm, by rw [hp, Nat.sub_right_comm]; rfl⟩

/-! ## The round trip -/

/-- A sequence that decodes is the raw block of the Block it decodes to: the payload is as long as the length byte says, so the
covered bytes are the Block's body (R143). -/
theorem eq_wire_of_decodeBlock (h : decodeBlock mode raw = .ok b) : raw = b.wire mode := by
  obtain ⟨pcb, len, rest, hraw, hle, hlen, hs, hc, hp, he⟩ := decodeBlock_eq_ok h
  have hrest : rest.length = len.toNat + mode.size := by
    rw [hraw] at hlen hs
    simp only [List.length_cons] at hlen hs
    omega
  have hpay : b.payload = rest.take len.toNat := by rw [hp, hlen, Nat.sub_right_comm]
  have hbyte : BitVec.ofNat 8 b.payload.length = len := by
    rw [hpay, List.length_take_of_le (by omega), BitVec.ofNat_toNat, BitVec.setWidth_eq]
  have hbody : b.body = raw.take (raw.length - mode.size) := by
    rw [Block.body, hbyte, hpay, hc, pcbEncode_classify, (by omega : raw.length - mode.size = len.toNat + 3), hraw]
    rfl
  calc raw
    _ = raw.take (raw.length - mode.size) ++ raw.drop (raw.length - mode.size) := (List.take_append_drop _ _).symm
    _ = b.wire mode := by rw [he, ← hbody, Block.wire]

/-- Settles O2: a valid block's raw bytes decode to it, and only they do. -/
theorem codecRoundTrip : Obligations.CodecRoundTrip := by
  refine ⟨fun mode b hv => ?_, fun mode raw b h => ?_⟩
  · exact ⟨b.wire mode, encodeBlock_of_fits (Block.valid_iff.1 hv).2, decodeBlock_wire mode hv⟩
  · rw [encodeBlock_of_fits (decodeBlock_payload_le h), eq_wire_of_decodeBlock h]

/-! ## A changed byte -/

theorem Block.wire_lengthsAgree (mode : EdcMode) (h : b.payload.length ≤ 254) : LengthsAgree mode (b.wire mode) := by
  have hbyte := lengthByte_toNat h
  exact ⟨by rw [Block.wire_length]; omega, _, rfl, by omega, by rw [Block.wire_length]; omega⟩

/-- The tests on lengths look at no byte but the length byte. -/
theorem LengthsAgree.set (h : LengthsAgree mode raw) (hj : j ≠ 2) (v : Byte) : LengthsAgree mode (raw.set j v) := by
  rwa [LengthsAgree, List.length_set, List.getElem?_set_ne hj]

/-- The length byte is the only one with which the lengths agree. -/
theorem LengthsAgree.not_set_two (h : LengthsAgree mode raw) (hv : raw[2]? ≠ some v) : ¬ LengthsAgree mode (raw.set 2 v) := by
  obtain ⟨hs, len, h2, -, hlen⟩ := h
  rintro ⟨-, len', h2', -, hlen'⟩
  rw [List.getElem?_set_self (by omega)] at h2'
  cases h2'
  rw [List.length_set, ← hlen] at hlen'
  exact hv (h2.trans (congrArg some (BitVec.eq_of_toNat_eq hlen'.symm)))

/-- Covered bytes followed by a field that is not theirs do not decode (R140). -/
theorem decodeBlock_append_of_ne (he : e.length = mode.size) (h : LengthsAgree mode (s ++ e)) (hne : e ≠ edc mode s) :
    decodeBlock mode (s ++ e) = .error .checksumMismatch := by
  have hcov : (s ++ e).length - mode.size = s.length := by rw [List.length_append, he, Nat.add_sub_cancel]
  refine decodeBlock_of_edc_ne h ?_
  rwa [EdcMatches, hcov, List.drop_left, List.take_left]

/-- A byte replaced by another changes the sequence. -/
theorem set_ne_self (hj : j < s.length) (hv : s[j]? ≠ some v) : s.set j v ≠ s := fun h =>
  hv (h ▸ List.getElem?_set_self hj)

/-- Settles O4: the lengths still agree and the covered bytes are the same, but the field is another. -/
theorem edcCorruptionDetected : Obligations.EdcCorruptionDetected := by
  intro mode b raw j v _ henc hj hlt hv
  obtain ⟨hp, rfl⟩ := encodeBlock_eq_some henc
  have hbody : b.body.length ≤ j := by rwa [Block.body_length]
  have hset : (b.wire mode).set j v = b.body ++ (edc mode b.body).set (j - b.body.length) v := List.set_append_right j v hbody
  have hagree := (b.wire_lengthsAgree mode hp).set (by omega : j ≠ 2) v
  rw [hset] at hagree ⊢
  rw [Block.wire, List.getElem?_append_right hbody] at hv
  rw [Block.wire, List.length_append] at hlt
  exact decodeBlock_append_of_ne (by simp) hagree (set_ne_self (by omega) hv)

/-- The exclusive-or of all bytes, taken from two different starts, has two different values (R120). -/
theorem foldl_xor_inj {x y : Byte} : s.foldl (fun x b => x ^^^ b) x = s.foldl (fun x b => x ^^^ b) y ↔ x = y := by
  induction s generalizing x y with
  | nil => exact Iff.rfl
  | cons a s ih => exact ih.trans (BitVec.xor_left_inj a)

/-- Replacing one byte by another changes the exclusive-or of all bytes, from whatever start (R120). -/
theorem foldl_xor_set_ne (hj : j < s.length) (hv : s[j]? ≠ some v) (x : Byte) :
    (s.set j v).foldl (fun x b => x ^^^ b) x ≠ s.foldl (fun x b => x ^^^ b) x := by
  induction s generalizing j x with
  | nil => cases hj
  | cons a s ih =>
    cases j with
    | zero => exact fun h => hv (congrArg some ((BitVec.xor_right_inj x).1 (foldl_xor_inj.1 h)).symm)
    | succ j => exact ih (Nat.lt_of_succ_lt_succ hj) hv (x ^^^ a)

/-- Replacing one covered byte by another changes the LRC (R145). -/
theorem edcLrc_set_ne (hj : j < s.length) (hv : s[j]? ≠ some v) : edcLrc (s.set j v) ≠ edcLrc s :=
  foldl_xor_set_ne hj hv 0x00#8

/-- Settles O5: another length byte does not count the bytes present; another covered byte gives another LRC. -/
theorem otherCorruptionDetected : Obligations.OtherCorruptionDetected := by
  refine fun b j v _ => ⟨fun mode raw henc hv => ?_, fun raw henc hj hj2 hv => ?_⟩
  · obtain ⟨hp, rfl⟩ := encodeBlock_eq_some henc
    exact decodeBlock_of_lengthsDisagree ((b.wire_lengthsAgree mode hp).not_set_two hv)
  · obtain ⟨hp, rfl⟩ := encodeBlock_eq_some henc
    have hbody : j < b.body.length := by rwa [Block.body_length]
    have hset : (b.wire .lrc).set j v = b.body.set j v ++ edc .lrc b.body := List.set_append_left j v hbody
    have hagree := (b.wire_lengthsAgree .lrc hp).set hj2 v
    rw [hset] at hagree ⊢
    rw [Block.wire, List.getElem?_append_left hbody] at hv
    exact decodeBlock_append_of_ne (edc_length _ _) hagree fun h => edcLrc_set_ne hbody hv (List.singleton_inj.1 h).symm

end Sys2Proof

/-! ## The CODEC port -/

namespace Sys2Proof.Machine

/-- Settles O23: in a resting state the command runs, and `ENCODE` fails on long payloads only. -/
theorem encodePortResult : Obligations.EncodePortResult := by
  refine fun s mode nad c p hr => ⟨fun hp => ?_, fun hp => ?_⟩
  · rw [exec, execEncodeCmd, onCommand_resting _ hr, encodeBlock_of_long (b := ⟨nad, c, p⟩) hp]
    rfl
  · rw [exec, execEncodeCmd, onCommand_resting _ hr, encodeBlock_of_fits (b := ⟨nad, c, p⟩) hp]
    rfl

theorem exec_decodeCmd_of_ok {s : State} {mode : EdcMode} {raw : List Byte} {b : Block} (hr : s.lstate = .closed ∨ s.atRest)
    (h : decodeBlock mode raw = .ok b) : exec (.decodeCmd mode raw) s = .next (complete .ok 0#16 (.block b) s) := by
  rw [exec, execDecodeCmd, onCommand_resting _ hr, h]

theorem exec_decodeCmd_of_error {s : State} {mode : EdcMode} {raw : List Byte} {e : DecodeError}
    (hr : s.lstate = .closed ∨ s.atRest) (h : decodeBlock mode raw = .error e) :
    exec (.decodeCmd mode raw) s = .next (s.endsWith (decodeStatus e)) := by
  rw [exec, execDecodeCmd, onCommand_resting _ hr, h]
  rfl

/-- Settles O24: in a resting state the command runs, and completes with what `DECODE` answers. -/
theorem decodePortResult : Obligations.DecodePortResult :=
  fun _ _ _ hr => ⟨fun _ => exec_decodeCmd_of_ok hr, exec_decodeCmd_of_error hr, exec_decodeCmd_of_error hr⟩

end Sys2Proof.Machine
end

section
/-! PROOFS. The exchange's answers in the words of the statements: what a block with the right address does to an exchange that
waits for a reply, one equation per case of the judgement, and what each kind of reply does to the read that returns it. -/

namespace Sys2Proof.Machine

variable {s t : State} {nad v : Byte} {ns nr m : Bool} {inf p : List Byte} {c : Control} {f : Status}

/-! ## The frames -/

theorem exec_ofBlock_exchanging (hl : s.lstate = .exchanging) (c : Control) (inf : List Byte) :
    exec (.ofBlock ⟨s.nadRx, c, inf⟩) s = judge ⟨s.nadRx, c, inf⟩ s := by
  rw [exec_ofBlock, onReply_exchanging _ _ hl rfl]

/-- A block that is judged unexpected starts a resynchronization if the channel takes the request (R173). -/
theorem exec_ofBlock_unexpected (hl : s.lstate = .exchanging) (hw : s.writeAnswer = true)
    (hj : judge ⟨s.nadRx, c, inf⟩ s = resync .sequenceError s) :
    exec (.ofBlock ⟨s.nadRx, c, inf⟩) s = .next (s.asksResync .sequenceError) := by
  rw [exec_ofBlock_exchanging hl, hj, resync_of_ok _ hw]

/-! ## One read of a reply -/

theorem step_of_timeout (hx : s.inExchange) (ho : s.readOutcome 259 = some .timeout) :
    step s = onTimeout (s.hasRead .timeout) := by
  rw [step_exchange hx, ho]

theorem step_of_readError (hx : s.inExchange) (ho : s.readOutcome 259 = some .error) :
    step s = .next ((s.hasRead .error).rolledBack .channelError) := by
  rw [step_exchange hx, ho]

theorem step_of_invalid (hx : s.inExchange) {raw : List Byte} {e : DecodeError} (ho : s.readOutcome 259 = some (.bytes raw))
    (hd : decodeBlock s.edcMode raw = .error e) : step s = onInvalid e (s.hasReadBytes raw) := by
  rw [step_exchange hx, ho]
  simp only [hd]

/-! ## Retransmission -/

theorem ne_one_of_one_lt {r : Byte} (h : 1 < r.toNat) : r ≠ 1#8 := by
  rintro rfl
  exact absurd h (by decide)

/-- With a unit to spare the current block is sent again (R186). -/
theorem retransmit_of_ok (hr : 1 < s.retry.toNat) (hc : s.currentBlock = some (c, p)) (hp : p.length ≤ 254)
    (hw : s.writeAnswer = true) :
    retransmit f s = .next ({ s with fault := f, retry := s.retry - 1#8 }.hands true c p) := by
  rw [retransmit, spend_more _ (ne_one_of_one_lt hr)]
  exact transmit_of_ok hc hp hw

/-- With a unit to spare a matched resynchronization sends the current block again, with the reset bits (R188, R192). -/
theorem resynced_of_ok (hr : 1 < s.retry.toNat) (hc : { s with ssb := false, rsb := false }.currentBlock = some (c, p))
    (hp : p.length ≤ 254) (hw : s.writeAnswer = true) :
    resynced s = .next
      ({ s with ssb := false, rsb := false, retry := s.retry - 1#8, lstate := .exchanging }.hands true c p) := by
  rw [resynced, spend_more (s := { s with ssb := false, rsb := false }) _ (ne_one_of_one_lt hr)]
  exact transmit_of_ok hc hp hw

/-! ## The next chunk -/

/-- The chunk just cut is sent with the chaining bit it was cut with (R158, R211). -/
theorem transmit_setChunk (hm : s.chunkMax.toNat ≤ 254)
    (hp : s.req.readFrom s.txOff.toNat (min s.chunkMax.toNat s.remaining) = some p) (hw : s.writeAnswer = true) :
    transmit (setChunk s) =
      .next ((setChunk s).hands true (.i s.ssb (decide (s.remaining > s.chunkMax.toNat))) p) := by
  have hlen : (setChunk s).txLen.toNat = min s.chunkMax.toNat s.remaining := by
    simp only [setChunk, BitVec.toNat_ofNat]
    omega
  have hphase : (setChunk s).phase ≠ .recvChain := by
    simp only [setChunk]
    split <;> decide
  have hchunk : (setChunk s).chunk = some p := by rw [State.chunk, hlen]; exact hp
  refine transmit_of_ok ?_ (by rw [Memory.readFrom_length hp]; omega) hw
  rw [State.currentBlock_send hphase, hchunk]
  rfl

/-- The offset of the chunk after the current one (R214). -/
theorem advance_eq (s : State) :
    advance s = setChunk { s with txOff := BitVec.ofNat 16 (s.txOff.toNat + s.txLen.toNat) } := by
  have hoff : s.txOff + s.txLen.zeroExtend 16 = BitVec.ofNat 16 (s.txOff.toNat + s.txLen.toNat) := by
    rw [BitVec.ofNat_add, BitVec.ofNat_toNat, BitVec.setWidth_eq, BitVec.ofNat_toNat]
  rw [advance, hoff]

/-! ## The I-block -/

theorem judge_information_of_ne_sendChain (hp : s.phase ≠ .sendChain) :
    judge ⟨nad, .i ns m, inf⟩ s = judgeInformation ns m inf s := by
  simp only [judge]
  split
  · contradiction
  · rfl
  · rfl

theorem judge_information_of_sendChain (hp : s.phase = .sendChain) :
    judge ⟨nad, .i ns m, inf⟩ s = resync .sequenceError s := by
  simp only [judge, hp]

theorem State.expects_iff : s.expects ns = true ↔ ns = s.rsb := beq_iff_eq

theorem judgeInformation_of_wrongBit (h : ns ≠ s.rsb) : judgeInformation ns m inf s = resync .sequenceError s :=
  if_neg (mt State.expects_iff.1 h)

theorem judgeInformation_of_rightBit : judgeInformation s.rsb m inf s =
    if inf.length > s.ifsd.toNat then resync .sequenceError s
    else if s.rspLen.toNat + inf.length > s.rspCap.toNat then .next (s.rolledBack .invalidArgument)
    else acceptBlock m inf s :=
  if_pos (State.expects_iff.2 rfl)

/-- A payload above `IFSD` is unexpected, whatever the bit (R164). -/
theorem judgeInformation_of_overlong (h : s.ifsd.toNat < inf.length) :
    judgeInformation ns m inf s = resync .sequenceError s := by
  by_cases hb : ns = s.rsb
  · rw [hb, judgeInformation_of_rightBit, if_pos h]
  · exact judgeInformation_of_wrongBit hb

theorem judgeInformation_of_oversized (hi : inf.length ≤ s.ifsd.toNat)
    (hcap : s.rspCap.toNat < s.rspLen.toNat + inf.length) :
    judgeInformation s.rsb m inf s = .next (s.rolledBack .invalidArgument) := by
  rw [judgeInformation_of_rightBit, if_neg hi.not_gt, if_pos hcap]

theorem judgeInformation_of_accepted (hi : inf.length ≤ s.ifsd.toNat)
    (hcap : s.rspLen.toNat + inf.length ≤ s.rspCap.toNat) :
    judgeInformation s.rsb m inf s = acceptBlock m inf s := by
  rw [judgeInformation_of_rightBit, if_neg hi.not_gt, if_neg hcap.not_gt]

theorem State.ssbAfterAccept_eq (s : State) : s.ssbAfterAccept = if s.phase = Phase.sendLast then !s.ssb else s.ssb := by
  unfold State.ssbAfterAccept
  cases s.phase <;> rfl

/-- The registers an accepted I-block writes, in the statements' words (R164 step 4). -/
theorem acceptPayload_eq (inf : List Byte) (s : State) :
    acceptPayload inf s =
      { s with
        ssb := if s.phase = Phase.sendLast then !s.ssb else s.ssb, rsb := !s.rsb
        rsp := s.rsp.writeFrom s.rspLen.toNat inf, rspLen := BitVec.ofNat 16 (s.rspLen.toNat + inf.length) } := by
  have hlen : s.rspLen + BitVec.ofNat 16 inf.length = BitVec.ofNat 16 (s.rspLen.toNat + inf.length) := by
    rw [BitVec.ofNat_add, BitVec.ofNat_toNat, BitVec.setWidth_eq]
  rw [acceptPayload, State.ssbAfterAccept_eq, hlen]

theorem acceptBlock_of_fits (h : s.rspLen.toNat + inf.length ≤ 258) :
    acceptBlock m inf s =
      if m then transmit { acceptPayload inf s with phase := .recvChain } else finish (acceptPayload inf s) :=
  if_neg (Nat.not_lt.2 h)

theorem finish_of_readable {data : List Byte} (h2 : 2 ≤ s.rspLen.toNat)
    (hd : s.rsp.readFrom 0 s.rspLen.toNat = some data) :
    finish s = .next (complete .ok s.rspLen (.bytes data) { s with lstate := .idle }) := by
  rw [finish, if_neg h2.not_gt, hd]

/-! ## The R-blocks -/

theorem judge_rPos_acknowledging (hp : s.phase = .sendChain) :
    judge ⟨nad, .rPos (!s.ssb), inf⟩ s = transmit (advance { s with ssb := !s.ssb }) := by
  simp [judge, hp, State.ackedBy]

theorem judge_rPos_unexpected (h : s.phase ≠ .sendChain ∨ nr = s.ssb) :
    judge ⟨nad, .rPos nr, inf⟩ s = resync .sequenceError s := by
  simp only [judge]
  split
  · rename_i hp
    obtain rfl := h.resolve_left (not_not.2 hp)
    exact if_neg (by simp [State.ackedBy])
  · rfl
  · rfl

/-! ## The supervisory requests -/

theorem judge_wtx_of_value (h : wtxValue inf = some v) :
    judge ⟨nad, .sReq .wtx, inf⟩ s = sendBlock (.sResp .wtx) inf id { s with wtm := v } := by
  simp only [judge, h]

theorem judge_ifs_of_value (h : ifsValue inf = some v) :
    judge ⟨nad, .sReq .ifs, inf⟩ s = sendBlock (.sResp .ifs) inf id { s with ifsc := v, chunkMax := v } := by
  simp only [judge, h]

theorem judge_wtx_of_malformed (h : wtxValue inf = none) : judge ⟨nad, .sReq .wtx, inf⟩ s = resync .sequenceError s := by
  simp only [judge, h]

theorem judge_ifs_of_malformed (h : ifsValue inf = none) : judge ⟨nad, .sReq .ifs, inf⟩ s = resync .sequenceError s := by
  simp only [judge, h]

theorem wtxValue_eq_none (h : inf.length ≠ 1 ∨ inf = [0#8]) : wtxValue inf = none := by
  refine Option.eq_none_iff_forall_ne_some.2 fun v hv => ?_
  obtain ⟨rfl, hne⟩ := wtxValue_eq_some.1 hv
  rcases h with h | h
  · exact h rfl
  · exact hne (List.singleton_inj.1 h)

theorem ifsValue_eq_none (h : inf.length ≠ 1 ∨ inf = [0#8] ∨ inf = [255#8]) : ifsValue inf = none := by
  refine Option.eq_none_iff_forall_ne_some.2 fun v hv => ?_
  obtain ⟨rfl, hmin, hmax⟩ := ifsValue_eq_some.1 hv
  rcases h with h | h | h
  · exact h rfl
  · cases h
    exact absurd hmin (by decide)
  · cases h
    exact absurd hmax (by decide)

end Sys2Proof.Machine
end

section
/-! PROOFS. The statements about the Link State Machine: what each reply does to an exchange and to a resynchronization. -/

namespace Sys2Proof.Machine

/-! ## Replies that are no Block -/

/-- Settles O11: the read is recorded, and a timeout asks for a resynchronization. -/
theorem timeoutResynchronizes : Obligations.TimeoutResynchronizes := by
  intro s hl ho hw
  rw [step_of_timeout (.inl hl) ho, onTimeout_exchanging (s := s.hasRead _) hl, resync_of_ok _ hw]

/-- Settles O12: an invalid reply is a retransmission, which the read and the stored bytes leave the current block for. -/
theorem invalidReplyRetransmits : Obligations.InvalidReplyRetransmits := by
  intro s raw e hl ho hd
  have hstep : step s = retransmit (decodeStatus e) (s.hasReadBytes raw) := by
    rw [step_of_invalid (.inl hl) ho hd, onInvalid_exchanging (s := s.hasReadBytes raw) e hl]
  refine ⟨fun c p h hr hc hw => ?_, fun hr => ?_⟩
  · rw [hstep]
    exact retransmit_of_ok (s := s.hasReadBytes raw) hr hc ((h.exchange (.inl hl)).currentBlock_fits hc) hw
  · rw [hstep]
    exact spend_last (s := s.hasReadBytes raw) _ hr

/-- Settles O13: an error of the read fails the exchange without a look at the budget. -/
theorem channelReadErrorFails : Obligations.ChannelReadErrorFails :=
  fun _ => step_of_readError

/-- Settles O14: a resynchronization is answered by a Block or it fails. -/
theorem unansweredResyncFails : Obligations.UnansweredResyncFails := by
  refine fun s hl => ⟨fun ho => ?_, fun raw e ho hd => ?_⟩
  · rw [step_of_timeout (.inr hl) ho, onTimeout_resynchronizing (s := s.hasRead _) hl]
    rfl
  · rw [step_of_invalid (.inr hl) ho hd, onInvalid_resynchronizing (s := s.hasReadBytes raw) e hl]
    rfl

/-! ## I-blocks -/

/-- Settles O27: the payload extends what `RSP` holds, and the response is read whole. -/
theorem lastInformationCompletes : Obligations.LastInformationCompletes := by
  rintro s _ _ inf h hl hp rfl rfl hi hcap h2
  have hx := h.exchange (.inl hl)
  have hfit := hcap.trans hx.rspCap.2
  obtain ⟨before, hb⟩ := Option.isSome_iff_exists.1 hx.rspFilled
  have hlen : (acceptPayload inf s).rspLen.toNat = s.rspLen.toNat + inf.length := by
    rw [acceptPayload_eq, BitVec.toNat_ofNat, Nat.mod_eq_of_lt (by omega)]
  have hdata : (acceptPayload inf s).rsp.readFrom 0 (acceptPayload inf s).rspLen.toNat = some (before ++ inf) := by
    rw [hlen]
    exact Memory.readFrom_extend hb inf
  refine ⟨before, hb, ?_⟩
  calc exec (.iBlock s.nadRx s.rsb false inf) s
    _ = judge ⟨s.nadRx, .i s.rsb false, inf⟩ s := exec_ofBlock_exchanging hl (.i s.rsb false) inf
    _ = acceptBlock false inf s := by rw [judge_information_of_ne_sendChain hp, judgeInformation_of_accepted hi hcap]
    _ = finish (acceptPayload inf s) := acceptBlock_of_fits hfit
    _ = _ := finish_of_readable (hlen ▸ h2) hdata
    _ = _ := by rw [acceptPayload_eq]; rfl

/-- Settles O29: after the accept the current block is `R+` of the toggled bit. -/
theorem chainedInformationAcknowledged : Obligations.ChainedInformationAcknowledged := by
  rintro s _ _ inf h hl hp rfl rfl hi hcap hw
  have hfit := hcap.trans (h.exchange (.inl hl)).rspCap.2
  calc exec (.iBlock s.nadRx s.rsb true inf) s
    _ = judge ⟨s.nadRx, .i s.rsb true, inf⟩ s := exec_ofBlock_exchanging hl (.i s.rsb true) inf
    _ = acceptBlock true inf s := by rw [judge_information_of_ne_sendChain hp, judgeInformation_of_accepted hi hcap]
    _ = transmit { acceptPayload inf s with phase := .recvChain } := acceptBlock_of_fits hfit
    _ = .next ({ acceptPayload inf s with phase := .recvChain }.hands true (.rPos (!s.rsb)) []) :=
      transmit_of_ok (s := { acceptPayload inf s with phase := .recvChain }) (State.currentBlock_recv rfl) (Nat.zero_le 254) hw
    _ = _ := by rw [acceptPayload_eq]

/-- Settles O30: the capacity is tested before anything is appended. -/
theorem oversizedResponseFails : Obligations.OversizedResponseFails := by
  rintro s _ _ m inf hl hp rfl rfl hi hcap
  exact (exec_ofBlock_exchanging hl (.i s.rsb m) inf).trans
    ((judge_information_of_ne_sendChain hp).trans (judgeInformation_of_oversized hi hcap))

/-- Settles O31: each of the three causes fails a test that comes before the accept. -/
theorem unexpectedInformationResynchronizes : Obligations.UnexpectedInformationResynchronizes := by
  rintro s _ ns m inf hl rfl h hw
  refine exec_ofBlock_unexpected (c := .i ns m) hl hw ?_
  by_cases hp : s.phase = .sendChain
  · exact judge_information_of_sendChain hp
  · rw [judge_information_of_ne_sendChain hp]
    rcases h.resolve_left hp with hb | hi
    · exact judgeInformation_of_wrongBit hb
    · exact judgeInformation_of_overlong hi

/-! ## R-blocks -/

/-- Settles O32: a chained chunk leaves some of the request, which is filled, so the next chunk can be cut and read. -/
theorem positiveAcknowledgeAdvances : Obligations.PositiveAcknowledgeAdvances := by
  rintro s _ _ inf h hl hp rfl rfl hw
  have hx := h.exchange (.inl hl)
  generalize hoff : s.txOff.toNat + s.txLen.toNat = off
  have hle : off ≤ s.reqLen.toNat := hoff ▸ hx.chunk
  have hoff16 : (BitVec.ofNat 16 off).toNat = off := by
    rw [BitVec.toNat_ofNat]
    omega
  obtain ⟨p, hread⟩ := Memory.readFrom_of_filled (i := off) (k := min s.chunkMax.toNat (s.reqLen.toNat - off)) hx.reqFilled
    (by omega)
  have hrem : { s with ssb := !s.ssb, txOff := BitVec.ofNat 16 off }.remaining = s.reqLen.toNat - off := by
    rw [State.remaining, hoff16]
  refine ⟨p, hread, ?_⟩
  calc exec (.rPos s.nadRx (!s.ssb) inf) s
    _ = judge ⟨s.nadRx, .rPos (!s.ssb), inf⟩ s := exec_ofBlock_exchanging hl (.rPos (!s.ssb)) inf
    _ = transmit (setChunk { s with ssb := !s.ssb, txOff := BitVec.ofNat 16 off }) := by
      rw [judge_rPos_acknowledging hp, advance_eq, hoff]
    _ = _ := transmit_setChunk hx.chunkMax.2 (by rw [hoff16, hrem]; exact hread) hw
    _ = _ := by rw [setChunk, hrem]

/-- Settles O33: outside `SendChain` no acknowledgement is awaited, and inside it the current bit acknowledges nothing. -/
theorem otherPositiveResynchronizes : Obligations.OtherPositiveResynchronizes := by
  rintro s _ nr inf hl rfl h hw
  exact exec_ofBlock_unexpected (c := .rPos nr) hl hw (judge_rPos_unexpected h)

/-- Settles O34: with the decided `SIZE_NAK` either kind is a retransmission. -/
theorem negativeAcknowledgeRetransmits : Obligations.NegativeAcknowledgeRetransmits := by
  rintro s _ nr inf i hl rfl hi
  have hexec : exec i s = retransmit .sequenceError s := by
    rcases hi with rfl | rfl
    · exact exec_ofBlock_exchanging hl (.rNegSeq nr) inf
    · exact exec_ofBlock_exchanging hl (.rNegOther nr) inf
  rw [hexec]
  exact ⟨fun c p h hr hc hw => retransmit_of_ok hr hc ((h.exchange (.inl hl)).currentBlock_fits hc) hw, spend_last _⟩

/-! ## S-blocks and unknown control bytes -/

/-- Settles O35: the byte is written to the registers it is for, and the request is echoed. -/
theorem supervisoryRequestsServed : Obligations.SupervisoryRequestsServed := by
  rintro s _ v hl rfl hw
  refine ⟨fun hne => ?_, fun hmin hmax => ?_⟩
  · calc exec (.sReqWtx s.nadRx [v]) s
      _ = judge ⟨s.nadRx, .sReq .wtx, [v]⟩ s := exec_ofBlock_exchanging hl (.sReq .wtx) [v]
      _ = sendBlock (.sResp .wtx) [v] id { s with wtm := v } := judge_wtx_of_value (wtxValue_eq_some.2 ⟨rfl, hne⟩)
      _ = _ := sendBlock_of_ok id (by simp) hw
  · calc exec (.sReqIfs s.nadRx [v]) s
      _ = judge ⟨s.nadRx, .sReq .ifs, [v]⟩ s := exec_ofBlock_exchanging hl (.sReq .ifs) [v]
      _ = sendBlock (.sResp .ifs) [v] id { s with ifsc := v, chunkMax := v } :=
        judge_ifs_of_value (ifsValue_eq_some.2 ⟨rfl, hmin, hmax⟩)
      _ = _ := sendBlock_of_ok id (by simp) hw

/-- Settles O36: a malformed payload carries no value to serve. -/
theorem malformedSupervisoryResynchronizes : Obligations.MalformedSupervisoryResynchronizes := by
  rintro s _ inf hl rfl hw
  exact ⟨fun h => exec_ofBlock_unexpected (c := .sReq .wtx) hl hw (judge_wtx_of_malformed (wtxValue_eq_none h)),
    fun h => exec_ofBlock_unexpected (c := .sReq .ifs) hl hw (judge_ifs_of_malformed (ifsValue_eq_none h))⟩

/-- Settles O37: the answer is written, and the exchange fails whether or not the channel takes it. -/
theorem abortRequestFails : Obligations.AbortRequestFails := by
  rintro s _ inf hl rfl
  have hexec : exec (.sReqAbort s.nadRx inf) s = sendBlock (.sResp .abort) [] (fail .sequenceError) s :=
    exec_ofBlock_exchanging hl (.sReq .abort) inf
  rw [hexec]
  exact ⟨sendBlock_of_ok _ (Nat.zero_le 254), sendBlock_of_error _ (Nat.zero_le 254)⟩

/-- Settles O38: each of the six is judged unexpected. -/
theorem unexpectedKindsResynchronize : Obligations.UnexpectedKindsResynchronize := by
  rintro s _ raw inf i hl rfl hw hi
  simp only [List.mem_cons, List.not_mem_nil, or_false] at hi
  rcases hi with rfl | rfl | rfl | rfl | rfl | rfl
  · exact exec_ofBlock_unexpected (c := .sReq .resynch) hl hw rfl
  · exact exec_ofBlock_unexpected (c := .sResp .resynch) hl hw rfl
  · exact exec_ofBlock_unexpected (c := .sResp .ifs) hl hw rfl
  · exact exec_ofBlock_unexpected (c := .sResp .abort) hl hw rfl
  · exact exec_ofBlock_unexpected (c := .sResp .wtx) hl hw rfl
  · exact exec_ofBlock_unexpected (c := .unknown raw) hl hw rfl

/-! ## Blocks with another address, and the answer to a resynchronization -/

/-- Settles O39: the address is tested before the control byte. -/
theorem wrongAddressResynchronizes : Obligations.WrongAddressResynchronizes := by
  intro s b hl hn
  rw [exec_ofBlock, onReply_exchanging_other _ _ hl hn]
  exact ⟨resync_of_ok _, resync_of_error _⟩

/-- Settles O40: the matching response resets the bits and spends a unit for the fault in `FAULT`. -/
theorem matchedResyncRetries : Obligations.MatchedResyncRetries := by
  rintro s _ inf hl rfl
  have hexec : exec (.sRespResynch s.nadRx inf) s = resynced s :=
    (exec_ofBlock ⟨s.nadRx, .sResp .resynch, inf⟩ s).trans (onReply_resynchronizing _ _ hl rfl)
  rw [hexec]
  refine ⟨fun c p h hr hc hw => ?_, fun hr => spend_last (s := { s with ssb := false, rsb := false }) _ hr⟩
  have hx : { s with ssb := false, rsb := false }.ExchangeLegal := { h.exchange (.inr hl) with }
  exact resynced_of_ok hr hc (hx.currentBlock_fits hc) hw

/-- Settles O41: no block but the matching response is judged at all. -/
theorem unmatchedResyncFails : Obligations.UnmatchedResyncFails := by
  intro s b hl h
  rw [exec_ofBlock]
  by_cases hn : b.nad = s.nadRx
  · rw [onReply_resynchronizing _ _ hl hn]
    exact if_neg (h.resolve_left (not_not.2 hn))
  · exact onReply_resynchronizing_other _ _ hl hn

end Sys2Proof.Machine
end

section
/-! PROOFS. The sequence bits after a received block, in any state. -/

namespace Sys2Proof.Machine

variable {s t u : State} {a b m : Bool} {f : Status} {c : Control} {p inf : List Byte}

/-! ## What an operation leaves in the bits -/

/-- The exchange failed, and the bits are the last-known-good ones (R196). -/
structure State.BitsRolledBack (s t : State) : Prop where
  idle   : t.lstate = .idle := by rfl
  noData : t.result = .none := by rfl
  ssb    : t.ssb = s.lkgSsb := by rfl
  rsb    : t.rsb = s.lkgRsb := by rfl

/-- The operation leaves `a` in `SSB` and `b` in `RSB`, unless the exchange failed. -/
def State.BitsBecome (s : State) (a b : Bool) (t : State) : Prop := (t.ssb = a ∧ t.rsb = b) ∨ s.BitsRolledBack t

/-- What an operation leaves in the bits does not depend on registers other than the shadow. -/
theorem State.BitsBecome.of_registers (h : u.BitsBecome a b t) (hssb : u.lkgSsb = s.lkgSsb := by rfl)
    (hrsb : u.lkgRsb = s.lkgRsb := by rfl) : s.BitsBecome a b t :=
  h.imp_right fun h => { h with ssb := h.ssb.trans hssb, rsb := h.rsb.trans hrsb }

theorem sendBlock_bitsBecome (h : sendBlock c p id s = .next t) : s.BitsBecome s.ssb s.rsb t := by
  obtain ⟨-, rfl | rfl⟩ := sendBlock_next h
  · exact .inl ⟨rfl, rfl⟩
  · exact .inr {}

theorem transmit_bitsBecome (h : transmit s = .next t) : s.BitsBecome s.ssb s.rsb t := by
  obtain ⟨c, p, -, -, rfl | rfl⟩ := transmit_next h
  · exact .inl ⟨rfl, rfl⟩
  · exact .inr {}

theorem resync_bitsBecome (h : resync f s = .next t) : s.BitsBecome s.ssb s.rsb t := by
  rcases resync_next h with rfl | rfl
  · exact .inl ⟨rfl, rfl⟩
  · exact .inr {}

theorem retransmit_bitsBecome (h : retransmit f s = .next t) : s.BitsBecome s.ssb s.rsb t := by
  rcases spend_next h with ⟨-, rfl⟩ | ⟨-, h⟩
  · exact .inr {}
  · exact (transmit_bitsBecome h).of_registers

theorem resynced_bitsBecome (h : resynced s = .next t) : s.BitsBecome false false t := by
  rcases resynced_next h with ⟨-, rfl⟩ | ⟨-, h⟩
  · exact .inr {}
  · exact (transmit_bitsBecome h).of_registers

theorem acceptBlock_bitsBecome (h : acceptBlock m inf s = .next t) : s.BitsBecome s.ssbAfterAccept (!s.rsb) t := by
  rcases acceptBlock_next h with ⟨-, rfl | rfl⟩ | ⟨-, ⟨-, rfl⟩ | ⟨-, data, -, rfl⟩⟩
  · exact .inl ⟨rfl, rfl⟩
  · exact .inr {}
  · exact .inl ⟨rfl, rfl⟩
  · exact .inl ⟨rfl, rfl⟩

/-! ## What a received block leaves in the bits -/

/-- A block with the right address toggles bits only as an acknowledgement (R162 to R164). -/
theorem judge_bitsBecome {x : Block} (h : judge x s = .next t) :
    s.BitsBecome s.ssb s.rsb t ∨
    (s.phase = .sendChain ∧ x.control = .rPos (!s.ssb) ∧ s.BitsBecome (!s.ssb) s.rsb t) ∨
    (s.phase ≠ .sendChain ∧ (∃ m, x.control = .i s.rsb m) ∧ s.BitsBecome s.ssbAfterAccept (!s.rsb) t) := by
  rcases judge_next h with
    h | ⟨m, hc, hp, -, ⟨-, rfl⟩ | ⟨-, h⟩⟩ | ⟨hc, hp, h⟩ | ⟨-, h⟩ | ⟨v, -, -, -, h⟩ | ⟨v, -, -, -, h⟩ | ⟨-, h⟩
  · exact .inl (resync_bitsBecome h)
  · exact .inl (.inr {})
  · exact .inr (.inr ⟨hp, ⟨m, hc⟩, acceptBlock_bitsBecome h⟩)
  · exact .inr (.inl ⟨hp, hc, (transmit_bitsBecome h).of_registers⟩)
  · exact .inl (retransmit_bitsBecome h)
  · exact .inl (sendBlock_bitsBecome h).of_registers
  · exact .inl (sendBlock_bitsBecome h).of_registers
  · obtain ⟨-, rfl | rfl⟩ := sendBlock_next h
    · exact .inl (.inr {})
    · exact .inl (.inr {})

theorem judgeResync_bitsBecome {x : Block} (h : judgeResync x s = .next t) :
    s.BitsBecome s.ssb s.rsb t ∨ (x.control = .sResp .resynch ∧ s.BitsBecome false false t) := by
  unfold judgeResync at h
  split at h
  · rename_i hc
    exact .inr ⟨hc, resynced_bitsBecome h⟩
  · cases h
    exact .inl (.inr {})

/-- All that a received block can leave in the bits (R163, R189, R288). -/
theorem exec_ofBlock_bitsBecome {x : Block} (h : exec (.ofBlock x) s = .next t) :
    s.BitsBecome s.ssb s.rsb t ∨
    ((s.lstate = .exchanging ∧ x.nad = s.nadRx) ∧ s.phase = .sendChain ∧ x.control = .rPos (!s.ssb) ∧
      s.BitsBecome (!s.ssb) s.rsb t) ∨
    ((s.lstate = .exchanging ∧ x.nad = s.nadRx) ∧ s.phase ≠ .sendChain ∧ (∃ m, x.control = .i s.rsb m) ∧
      s.BitsBecome s.ssbAfterAccept (!s.rsb) t) ∨
    ((s.lstate = .resynchronizing ∧ x.nad = s.nadRx) ∧ x.control = .sResp .resynch ∧ s.BitsBecome false false t) := by
  rw [exec_ofBlock] at h
  rcases onReply_next h with ⟨hl, hn, h⟩ | ⟨-, -, h⟩ | ⟨hl, hn, h⟩ | ⟨-, -, rfl⟩ | ⟨-, rfl⟩
  · exact (judge_bitsBecome h).imp_right fun h => h.imp (.intro ⟨hl, hn⟩) fun h => .inl ⟨⟨hl, hn⟩, h⟩
  · exact .inl (resync_bitsBecome h)
  · exact (judgeResync_bitsBecome h).imp_right fun h => .inr (.inr ⟨⟨hl, hn⟩, h⟩)
  · exact .inl (.inr {})
  · exact .inl (.inl ⟨rfl, rfl⟩)

/-- Settles O46: of the four ways a received block writes the bits, each toggles or resets the bit it changes for one of the
three causes, unless the exchange failed. -/
theorem sequenceBitsToggleOnlyOnAcknowledgement : Obligations.SequenceBitsToggleOnlyOnAcknowledgement := by
  intro s t x h
  by_cases hb : s.BitsRolledBack t
  · exact ⟨fun _ => .inr (.inr ⟨hb.idle, hb.noData, hb.ssb⟩), fun _ => .inr (.inr ⟨hb.idle, hb.noData, hb.rsb⟩)⟩
  rcases exec_ofBlock_bitsBecome h with
    hw | ⟨⟨hl, hn⟩, hp, hc, hw⟩ | ⟨⟨hl, hn⟩, hp, ⟨m, hc⟩, hw⟩ | ⟨⟨hl, hn⟩, hc, hw⟩
  all_goals obtain ⟨hssb, hrsb⟩ := hw.resolve_right hb
  · exact ⟨fun hne => absurd hssb hne, fun hne => absurd hrsb hne⟩
  · exact ⟨fun _ => .inl ⟨hl, hn, .inl ⟨hp, hc⟩⟩, fun hne => absurd hrsb hne⟩
  · refine ⟨fun hne => .inl ⟨hl, hn, .inr ⟨?_, m, hc⟩⟩, fun _ => .inl ⟨hl, hn, hp, m, hc⟩⟩
    by_contra hlast
    exact hne (by rw [hssb, State.ssbAfterAccept_eq, if_neg hlast])
  · exact ⟨fun _ => .inr (.inl ⟨hl, hn, hc, hssb⟩), fun _ => .inr (.inl ⟨hl, hn, hc, hrsb⟩)⟩

end Sys2Proof.Machine
end

section
/-! PROOFS. The chunks of a request: halving cuts the current one again, a request of at most `IFSC` bytes is one block, and the
step that accepts a request leaves the session as it is. -/

namespace Sys2Proof.Machine

variable {s t : State} {apdu inf raw : List Byte} {cap : Half}

/-! ## Halving -/

theorem negative_of_citesSize (hp : s.phase.sending = true) : negative true s = halve s :=
  if_pos (by rw [hp]; rfl)

theorem halve_of_more (hr : 1 < s.retry.toNat) :
    halve s =
      transmit (setChunk { s with fault := .sequenceError, retry := s.retry - 1#8, chunkMax := halved s.chunkMax }) :=
  spend_more _ (ne_one_of_one_lt hr)

theorem halved_toNat (v : Byte) : (halved v).toNat = max 1 (v.toNat / 2) := by
  rw [halved, BitVec.toNat_ofNat]
  omega

/-- Settles O42: the shorter chunk starts where the chunk in flight starts, so the request holds its bytes. -/
theorem halvingRecutsTheChunk : Obligations.HalvingRecutsTheChunk := by
  intro s hl hp
  rw [negative_of_citesSize hp]
  refine ⟨spend_last _, fun h hr hw => ?_⟩
  have hx := h.exchange (.inl hl)
  have hmax := halved_toNat s.chunkMax
  have hle : max 1 (s.chunkMax.toNat / 2) ≤ 254 := by have := s.chunkMax.isLt; omega
  obtain ⟨p, hread⟩ := Memory.readFrom_of_filled (i := s.txOff.toNat)
    (k := min (max 1 (s.chunkMax.toNat / 2)) (s.reqLen.toNat - s.txOff.toNat)) hx.reqFilled (by have := hx.chunk; omega)
  refine ⟨p, hread, ?_⟩
  calc halve s
    _ = transmit (setChunk { s with fault := .sequenceError, retry := s.retry - 1#8, chunkMax := halved s.chunkMax }) :=
      halve_of_more hr
    _ = _ := transmit_setChunk (hmax.trans_le hle) (by rw [hmax]; exact hread) hw
    _ = _ := by rw [setChunk, hmax]; rfl

/-! ## The step that accepts `TRANSCEIVE` -/

/-- The session registers, the inputs not yet taken and the buffers an exchange does not send from are the same. -/
structure State.KeepsSession (s t : State) : Prop where
  ssb      : t.ssb = s.ssb := by rfl
  rsb      : t.rsb = s.rsb := by rfl
  ifsc     : t.ifsc = s.ifsc := by rfl
  ifsd     : t.ifsd = s.ifsd := by rfl
  binding  : s.sameBinding t := by exact ⟨rfl, rfl, rfl⟩
  atrLen   : t.atrLen = s.atrLen := by rfl
  rxLen    : t.rxLen = s.rxLen := by rfl
  held     : t.held = s.held := by rfl
  hostIn   : t.hostIn = s.hostIn := by rfl
  acquires : t.acquires = s.acquires := by rfl
  reads    : t.reads = s.reads := by rfl
  rsp      : t.rsp = s.rsp := by rfl
  rxb      : t.rxb = s.rxb := by rfl
  atrb     : t.atrb = s.atrb := by rfl

/-- The exchange starts from the session as it is and takes it as last-known-good, so a refused first block restores what was
never changed (R210, R196). -/
theorem transmit_exchangeStart_keepsSession (h : transmit (exchangeStart (acceptRequest apdu cap s)) = .next t) :
    s.KeepsSession t ∧ t.req = s.req.writeFrom 0 apdu := by
  obtain ⟨c, p, -, -, rfl | rfl⟩ := transmit_next h
  · exact ⟨{}, rfl⟩
  · exact ⟨{}, rfl⟩

/-- What the step that accepts `TRANSCEIVE` keeps, and what it leaves in `REQ` and `TXB`: nothing is written when it is refused,
and when it starts the exchange the request and the first block are. -/
theorem execTransceiveCmd_frame (h : exec (.transceiveCmd apdu cap) s = .next t) :
    s.KeepsSession t ∧ (t.req = s.req ∨ t.req = s.req.writeFrom 0 apdu) ∧
    ((t.events = s.events ∧ s.sameBytes t .txb) ∨
      ∃ raw ok, t.events = .write raw ok :: s.events ∧
        ∀ a, t.bufRead .txb a = if a < raw.length then raw[a]? else s.bufRead .txb a) := by
  rcases execTransceiveCmd_next h with rfl | rfl | ⟨-, -, h⟩
  · exact ⟨{}, .inl rfl, .inl ⟨rfl, fun _ => rfl⟩⟩
  · exact ⟨{}, .inl rfl, .inl ⟨rfl, fun _ => rfl⟩⟩
  · obtain ⟨hkeeps, hreq⟩ := transmit_exchangeStart_keepsSession h
    exact ⟨hkeeps, .inr hreq, ((transmit_writesOrEnds h).of_unsent {}).txb_frame⟩

/-- Settles O50: the request is written from index 0, so no cell from its length on is. -/
theorem transceiveFrame : Obligations.TransceiveFrame := by
  intro s t apdu cap h
  obtain ⟨hk, hreq, htxb⟩ := execTransceiveCmd_frame h
  have bytes {m n : Memory} (hmn : m = n) (a : Nat) : m.read a = n.read a := congrArg (Memory.read · a) hmn
  refine ⟨hk.ssb, hk.rsb, hk.ifsc, hk.ifsd, hk.binding, hk.atrLen, hk.rxLen, hk.held, hk.hostIn, hk.acquires, hk.reads,
    bytes hk.rsp, bytes hk.rxb, bytes hk.atrb, fun a ha => ?_, htxb⟩
  rcases hreq with hreq | hreq
  · exact bytes hreq a
  · exact (bytes hreq a).trans (Memory.read_writeFrom_outside s.req (.inr ((Nat.zero_add _).trans_le ha)))

/-! ## A request of one block -/

/-- A legal `TRANSCEIVE` in an open session starts the exchange and sends the first block (R249, R222). -/
theorem execTransceiveCmd_of_legal (hr : s.atRest) (hreq : requestLegal apdu cap = true) :
    exec (.transceiveCmd apdu cap) s = transmit (exchangeStart (acceptRequest apdu cap s)) := by
  have hsession : s.lstate.session = true := by
    rcases hr with hl | hl
    · rw [hl]; rfl
    · rw [hl]; rfl
  rw [exec, execTransceiveCmd, onCommand_resting _ (.inr hr), hsession, hreq]
  rfl

/-- A request of at most `IFSC` bytes is cut into one chunk, the last (R211, R212). -/
theorem exchangeStart_acceptRequest_oneChunk (hfit : apdu.length ≤ s.ifsc.toNat) :
    (exchangeStart (acceptRequest apdu cap s)).txLen.toNat = apdu.length ∧
    (exchangeStart (acceptRequest apdu cap s)).txMore = false ∧
    (exchangeStart (acceptRequest apdu cap s)).phase = .sendLast := by
  have hifsc := s.ifsc.isLt
  have hlen : (BitVec.ofNat 16 apdu.length).toNat = apdu.length := by rw [BitVec.toNat_ofNat]; omega
  have hone : ¬ (BitVec.ofNat 16 apdu.length).toNat > s.ifsc.toNat := by rw [hlen]; exact hfit.not_gt
  refine ⟨?_, decide_eq_false hone, if_neg hone⟩
  show (BitVec.ofNat 8 (min s.ifsc.toNat (BitVec.ofNat 16 apdu.length).toNat)).toNat = apdu.length
  rw [hlen, min_eq_right hfit, BitVec.toNat_ofNat]
  omega

/-- The one block of the request is `I(SSB, 0)` with all its bytes (R158, R212). -/
theorem currentBlock_exchangeStart_oneChunk (hfit : apdu.length ≤ s.ifsc.toNat) :
    (exchangeStart (acceptRequest apdu cap s)).currentBlock = some (.i s.ssb false, apdu) := by
  obtain ⟨hlen, hmore, hphase⟩ := exchangeStart_acceptRequest_oneChunk (cap := cap) hfit
  have hchunk : (exchangeStart (acceptRequest apdu cap s)).chunk = some apdu := by
    rw [State.chunk, hlen]
    exact Memory.readFrom_writeFrom s.req 0 apdu
  rw [State.currentBlock_send (by rw [hphase]; decide), hchunk, hmore]
  rfl

/-- The engine after it sent a request of one block: the exchange is started and waits for the reply (R212). -/
def State.asksInOneBlock (s : State) (apdu : List Byte) (cap : Half) : State :=
  (exchangeStart (acceptRequest apdu cap s)).hands true (.i s.ssb false) apdu

theorem State.asksInOneBlock_phase (hfit : apdu.length ≤ s.ifsc.toNat) : (s.asksInOneBlock apdu cap).phase = .sendLast := by
  obtain ⟨-, -, hphase⟩ := exchangeStart_acceptRequest_oneChunk (cap := cap) hfit
  exact hphase

theorem execTransceiveCmd_oneBlock (hr : s.atRest) (hreq : requestLegal apdu cap = true) (hfit : apdu.length ≤ s.ifsc.toNat)
    (hsize : s.ifsc.toNat ≤ 254) (hw : s.writeAnswer = true) :
    exec (.transceiveCmd apdu cap) s = .next (s.asksInOneBlock apdu cap) := by
  rw [execTransceiveCmd_of_legal hr hreq]
  exact transmit_of_ok (currentBlock_exchangeStart_oneChunk hfit) (hfit.trans hsize) hw

theorem State.Inv.asksInOneBlock (h : s.Inv) (hr : s.atRest) (hreq : requestLegal apdu cap = true)
    (hfit : apdu.length ≤ s.ifsc.toNat) : (s.asksInOneBlock apdu cap).Inv :=
  (exchangeStart_acceptRequest_inv h hr hreq).hands true (hfit.trans (h.session hr.ne_closed).ifsc.2)

/-! ## A response of one block -/

theorem writeAnswer_of_scripted {ok : Bool} {ws : List Bool} (h : s.writes = ok :: ws) : s.writeAnswer = ok := by
  rw [State.writeAnswer, h]

theorem readOutcome_of_scripted {n : Nat} {rs : List ReadAnswer} (h : s.reads = .returns (.bytes raw) :: rs)
    (hlen : raw.length ≤ n) : s.readOutcome n = some (.bytes raw) := by
  rw [State.readOutcome, h]
  simp only [clip, List.take_of_length_le hlen]

/-- A step that reads a valid block runs the block's instruction (R161 step w7). -/
theorem step_of_wire {b : Block} (hx : s.inExchange) (hb : b.valid = true)
    (ho : s.readOutcome 259 = some (.bytes (b.wire s.edcMode))) :
    step s = exec (.ofBlock b) (s.hasReadBytes (b.wire s.edcMode)) :=
  stepRunsReceivedBlock s _ _ hx ho (decode_wire s.edcMode hb)

/-- A step that reads the whole response in one unchained I-block, within every limit, returns its payload (R164, R212, R251). -/
theorem step_of_wholeResponse (h : s.Inv) (hl : s.lstate = .exchanging) (hp : s.phase = .sendLast) (hlen : s.rspLen = 0#16)
    (hmin : 2 ≤ inf.length) (hi : inf.length ≤ 32) (hcap : inf.length ≤ s.rspCap.toNat)
    (ho : s.readOutcome 259 = some (.bytes (Block.wire s.edcMode ⟨s.nadRx, .i s.rsb false, inf⟩))) :
    step s = .next
      { s.hasReadBytes (Block.wire s.edcMode ⟨s.nadRx, .i s.rsb false, inf⟩) with
        ssb := !s.ssb, rsb := !s.rsb, rsp := s.rsp.writeFrom 0 inf, rspLen := BitVec.ofNat 16 inf.length
        lstate := .idle, status := .ok, resLen := BitVec.ofNat 16 inf.length, result := .bytes inf } := by
  have hzero : s.rspLen.toNat + inf.length = inf.length := by rw [hlen]; exact Nat.zero_add _
  have hinv := h.hasReadBytes (.inl hl) (readOutcome_length ho)
  have hifsd : s.ifsd.toNat = 32 := by rw [(h.session (State.inExchange.ne_closed (.inl hl))).ifsd]; rfl
  obtain ⟨before, hbefore, hexec⟩ := lastInformationCompletes _ s.nadRx s.rsb inf hinv hl (by simp [hp]) rfl rfl
    (hi.trans_eq hifsd.symm) (hzero.trans_le hcap) (hmin.trans_eq hzero.symm)
  rw [State.hasReadBytes_rspLen, hlen] at hbefore
  cases hbefore
  have hvalid : Block.valid ⟨s.nadRx, .i s.rsb false, inf⟩ = true := Block.valid_iff.2 ⟨rfl, hi.trans (by decide)⟩
  rw [step_of_wire (.inl hl) hvalid ho]
  refine hexec.trans ?_
  simp [hp, hlen]

/-! ## The exchange of one block each way -/

/-- A step of any machine, then the rest of the run. -/
theorem run_succ_of_next (M : Host.Core) (k : Nat) {s t : M.State} (h : M.step s = .next t) : M.run (k + 1) s = M.run k t := by
  rw [Host.Core.run, h]

/-- Settles O60: the first step sends the request as one block and the second reads the whole response. -/
theorem simpleExchangeReturnsResponse : Obligations.SimpleExchangeReturnsResponse := by
  intro s apdu data cap cmds ws rs h hl hmin hfit hdmin hdmax hdcap hcap hin hwrites hreads
  have hrest : s.atRest := .inl hl
  have hifsc : s.ifsc.toNat ≤ 254 := (h.session hrest.ne_closed).ifsc.2
  have hreq : requestLegal apdu cap = true := requestLegal_iff.2 ⟨⟨hmin, by omega⟩, hdmin.trans hdcap, hcap⟩
  have hsend : step s = .next ({ s with hostIn := cmds }.asksInOneBlock apdu cap) :=
    (step_of_command (.inr hrest) hin).trans
      (execTransceiveCmd_oneBlock (s := { s with hostIn := cmds }) hrest hreq hfit hifsc (writeAnswer_of_scripted hwrites))
  have hasked := (h.takeCommand cmds).asksInOneBlock hrest hreq hfit
  have hraw : (Block.wire s.edcMode ⟨s.nadRx, .i s.rsb false, data⟩).length ≤ 259 :=
    State.raw_length_le (s := { s with nadTx := s.nadRx }) (hdmax.trans (by decide))
  have hreply := step_of_wholeResponse hasked rfl (State.asksInOneBlock_phase hfit) rfl hdmin hdmax hdcap
    (readOutcome_of_scripted hreads hraw)
  exact ⟨_, (run_succ_of_next core 1 hsend).trans (run_succ_of_next core 0 hreply), rfl, rfl, rfl, rfl, rfl, rfl, rfl,
    ⟨rfl, rfl, rfl⟩, _, rfl⟩

end Sys2Proof.Machine
end

section
/-! PROOFS. The host commands of a session as equations: what each answers in a resting state, one lemma per case of the command,
and that none of them runs while the engine is busy. -/

namespace Sys2Proof.Machine

variable {s : State} {cfg apdu inf a : List Byte} {host chip : Byte} {mode : EdcMode} {cap : Half}

/-! ## The frame of a command -/

/-- Every command is one meaning in the frame that tests the state first (R241). -/
theorem exec_command {i : Instr} (h : i.block = none) : ∃ run, ∀ s, exec i s = onCommand run s := by
  cases i with
  | openCmd cfg host chip mode => exact ⟨_, fun _ => rfl⟩
  | resetCmd => exact ⟨_, fun _ => rfl⟩
  | transceiveCmd apdu cap => exact ⟨_, fun _ => rfl⟩
  | closeCmd => exact ⟨_, fun _ => rfl⟩
  | encodeCmd mode nad control payload => exact ⟨_, fun _ => rfl⟩
  | decodeCmd mode raw => exact ⟨_, fun _ => rfl⟩
  | unassignedCmd code => exact ⟨_, fun _ => rfl⟩
  | _ => cases h

/-- What the host presents is never a received block (R100, R102). -/
theorem decodeCommand_block (c : HostCmd) : (decodeCommand c).block = none := by
  unfold decodeCommand
  repeat' split
  all_goals rfl

/-- Settles O26: whatever the command is, its frame finds the engine busy. -/
theorem busyEngineIgnoresCommands : Obligations.BusyEngineIgnoresCommands := by
  intro s c hbusy
  obtain ⟨run, hrun⟩ := exec_command (decodeCommand_block c)
  rw [hrun, onCommand_busy run hbusy]

theorem State.atRest.session (h : s.atRest) : s.lstate.session = true := by
  rcases h with hl | hl
  · rw [hl]; rfl
  · rw [hl]; rfl

/-! ## `OPEN` -/

theorem execOpenCmd_of_atRest (hr : s.atRest) :
    exec (.openCmd cfg host chip mode) s = .next (s.endsWith .invalidArgument) := by
  rw [exec, execOpenCmd, onCommand_resting _ (.inr hr), if_neg hr.ne_closed, refuse_eq]

theorem execOpenCmd_of_illegal (hl : s.lstate = .closed) (ha : ¬ addressesLegal host chip = true) :
    exec (.openCmd cfg host chip mode) s = .next (s.endsWith .invalidArgument) := by
  rw [exec, execOpenCmd, onCommand_resting _ (.inl hl), if_pos hl, if_neg ha, refuse_eq]

theorem execOpenCmd_of_legal (hl : s.lstate = .closed) (ha : addressesLegal host chip = true) :
    exec (.openCmd cfg host chip mode) s = .next (acquireAndBind cfg host chip mode s) := by
  rw [exec, execOpenCmd, onCommand_resting _ (.inl hl), if_pos hl, if_pos ha]

/-- Settles O16: the addresses are legal and the channel is held, so the session is bound. -/
theorem openBindsSession : Obligations.OpenBindsSession := by
  intro s cfg host chip mode hl hhost hchip hacquired
  rw [execOpenCmd_of_legal hl (addressesLegal_iff.2 ⟨hhost, hchip⟩), acquireAndBind, if_pos hacquired, afterAcquire, hacquired]
  rfl

/-- Settles O17: the state is tested first, then the addresses, then the channel is asked for (R244 steps o1 to o3). -/
theorem openRefused : Obligations.OpenRefused := by
  refine fun s cfg host chip mode => ⟨execOpenCmd_of_atRest, fun hl h => ?_, fun hl hhost hchip hrefused => ?_⟩
  · exact execOpenCmd_of_illegal hl (mt addressesLegal_iff.1 (by omega))
  · rw [execOpenCmd_of_legal hl (addressesLegal_iff.2 ⟨hhost, hchip⟩), acquireAndBind, if_neg (by simp [hrefused]),
      afterAcquire, hrefused, completeEmpty_eq]

/-! ## `RESET` -/

theorem execResetCmd_of_closed (hl : s.lstate = .closed) : exec .resetCmd s = .next (s.endsWith .invalidArgument) := by
  rw [exec, execResetCmd, onCommand_resting _ (.inl hl), if_neg (by simp [hl, LState.session]), refuse_eq]

theorem execResetCmd_of_atRest (hr : s.atRest) : exec .resetCmd s = readAtr (resetPulse s) := by
  rw [exec, execResetCmd, onCommand_resting _ (.inr hr), if_pos hr.session]

theorem readAtr_of_error (h : s.readOutcome 33 = some .error) :
    readAtr s = .next ((afterRead 33 Config.atrTimeout .error s).endsWith .channelError) := by
  rw [readAtr, show s.readOutcome Config.atrMax = _ from h]
  rfl

theorem readAtr_of_timeout (h : s.readOutcome 33 = some .timeout) :
    readAtr s = .next ((afterRead 33 Config.atrTimeout .timeout s).endsWith .timeout) := by
  rw [readAtr, show s.readOutcome Config.atrMax = _ from h]
  rfl

theorem readAtr_of_bytes (h : s.readOutcome 33 = some (.bytes a)) :
    readAtr s = .next (takeAtr Config.atrWellFormed a (afterRead 33 Config.atrTimeout (.bytes a) s)) := by
  rw [readAtr, show s.readOutcome Config.atrMax = _ from h]
  rfl

/-- Settles O18: the read returns bytes, and the parameter says whether they are kept. -/
theorem resetReturnsAtr : Obligations.ResetReturnsAtr := by
  intro s a hr ho
  rw [execResetCmd_of_atRest hr, readAtr_of_bytes (s := resetPulse s) ho]
  cases hwf : Config.atrWellFormed a with
  | true => rw [takeAtr_of_wellFormed hwf]; rfl
  | false => rw [takeAtr_of_malformed hwf]; rfl

/-- Settles O19: a failed read is reported after the pulse has written the defaults. -/
theorem resetReportsFailure : Obligations.ResetReportsFailure := by
  refine fun s => ⟨execResetCmd_of_closed, fun hr o st ho hst => ?_⟩
  rw [execResetCmd_of_atRest hr]
  rcases hst with ⟨rfl, rfl⟩ | ⟨rfl, rfl⟩
  · exact readAtr_of_error (s := resetPulse s) ho
  · exact readAtr_of_timeout (s := resetPulse s) ho

/-! ## `TRANSCEIVE` -/

theorem execTransceiveCmd_of_illegal (hr : s.lstate = .closed ∨ s.atRest)
    (h : ¬ (s.lstate.session && requestLegal apdu cap) = true) :
    exec (.transceiveCmd apdu cap) s = .next (s.endsWith .invalidArgument) := by
  rw [exec, execTransceiveCmd, onCommand_resting _ hr, if_neg h, refuse_eq]

/-- Settles O21: a session is open and the request is legal, or nothing is done. -/
theorem transceiveRefused : Obligations.TransceiveRefused := by
  refine fun s apdu cap hr hbad => execTransceiveCmd_of_illegal hr fun h => ?_
  obtain ⟨hsession, hreq⟩ := Bool.and_eq_true_iff.1 h
  have hlegal := requestLegal_iff.1 hreq
  rcases hbad with hl | hbad
  · simp [hl, LState.session] at hsession
  · omega

theorem toNat_requestLength (h : apdu.length ≤ 261) : (BitVec.ofNat 16 apdu.length).toNat = apdu.length := by
  rw [BitVec.toNat_ofNat]
  omega

/-- The registers an accepted request leaves, in the statements' words (R249, R210, R211). -/
theorem exchangeStart_acceptRequest_eq (hlen : apdu.length ≤ 261) :
    exchangeStart (acceptRequest apdu cap s) =
      { s with
        lstate := .exchanging, wtm := 1#8
        req := s.req.writeFrom 0 apdu, reqLen := BitVec.ofNat 16 apdu.length, rspCap := cap, rspLen := 0#16
        lkgSsb := s.ssb, lkgRsb := s.rsb, lkgIfsc := s.ifsc, lkgIfsd := s.ifsd
        retry := 3#8, fault := .ok, chunkMax := s.ifsc, txOff := 0#16
        txLen := BitVec.ofNat 8 (min s.ifsc.toNat apdu.length), txMore := decide (apdu.length > s.ifsc.toNat)
        phase := if apdu.length > s.ifsc.toNat then .sendChain else .sendLast } := by
  rw [exchangeStart, setChunk, State.remaining, acceptRequest]
  simp only [toNat_requestLength hlen]
  rfl

/-- The first block of an accepted request carries its first `min(IFSC, n)` bytes (R158, R211). -/
theorem currentBlock_exchangeStart (hlen : apdu.length ≤ 261) (hsize : s.ifsc.toNat ≤ 254) :
    (exchangeStart (acceptRequest apdu cap s)).currentBlock =
      some (.i s.ssb (decide (apdu.length > s.ifsc.toNat)), apdu.take s.ifsc.toNat) := by
  have htxLen : (BitVec.ofNat 8 (min s.ifsc.toNat apdu.length)).toNat = min s.ifsc.toNat apdu.length := by
    rw [BitVec.toNat_ofNat]
    omega
  rw [exchangeStart_acceptRequest_eq hlen, State.currentBlock_send (by dsimp only; split <;> decide), State.chunk, htxLen]
  dsimp only
  rw [List.take_eq_take_min]
  exact congrArg _ (Memory.readFrom_writeFrom_take s.req 0 _ (min_le_right _ _))

/-- Settles O20: the request just written is cut at `IFSC`, and its first chunk is sent. -/
theorem transceiveStartsExchange : Obligations.TransceiveStartsExchange := by
  intro s apdu cap h hr hmin hmax hcmin hcmax hw
  have hsize := (h.session hr.ne_closed).ifsc.2
  calc exec (.transceiveCmd apdu cap) s
    _ = transmit (exchangeStart (acceptRequest apdu cap s)) :=
      execTransceiveCmd_of_legal hr (requestLegal_iff.2 ⟨⟨hmin, hmax⟩, hcmin, hcmax⟩)
    _ = _ := transmit_of_ok (currentBlock_exchangeStart hmax hsize) ((List.length_take_le _ _).trans hsize) hw
    _ = _ := by rw [exchangeStart_acceptRequest_eq hmax]

/-! ## `CLOSE` -/

theorem execCloseCmd_of_resting (hr : s.lstate = .closed ∨ s.atRest) :
    exec .closeCmd s = .next ((if s.lstate = .closed then s else discardSession s).endsWith .ok) := by
  rw [exec, execCloseCmd, onCommand_resting _ hr, completeEmpty_eq]

/-- Settles O22: the state discarded is an open session's. -/
theorem closeDiscardsSession : Obligations.CloseDiscardsSession := by
  refine fun s => ⟨fun hr => ?_, fun hl => ?_⟩
  · rw [execCloseCmd_of_resting (.inr hr), if_neg hr.ne_closed]
    rfl
  · rw [execCloseCmd_of_resting (.inl hl), if_pos hl]

/-! ## The end of a short exchange -/

theorem finish_of_short (h : s.rspLen.toNat < 2) : finish s = .next ({ s with lstate := .idle }.endsWith .shortResponse) :=
  if_pos h

theorem acceptPayload_rspLen_toNat (h : s.rspLen.toNat + inf.length ≤ 258) :
    (acceptPayload inf s).rspLen.toNat = s.rspLen.toNat + inf.length := by
  rw [acceptPayload_eq, BitVec.toNat_ofNat, Nat.mod_eq_of_lt (by omega)]

/-- Settles O28: the payload is accepted like any other, and the response it completes is too short to read. -/
theorem shortResponseKeepsBits : Obligations.ShortResponseKeepsBits := by
  rintro s _ _ inf h hl hp rfl rfl hi hcap h2
  have hfit := hcap.trans (h.exchange (.inl hl)).rspCap.2
  calc exec (.iBlock s.nadRx s.rsb false inf) s
    _ = judge ⟨s.nadRx, .i s.rsb false, inf⟩ s := exec_ofBlock_exchanging hl (.i s.rsb false) inf
    _ = acceptBlock false inf s := by rw [judge_information_of_ne_sendChain hp, judgeInformation_of_accepted hi hcap]
    _ = finish (acceptPayload inf s) := acceptBlock_of_fits hfit
    _ = .next ({ acceptPayload inf s with lstate := .idle }.endsWith .shortResponse) :=
      finish_of_short ((acceptPayload_rspLen_toNat hfit).trans_lt h2)
    _ = _ := by rw [acceptPayload_eq]

end Sys2Proof.Machine
end

section
/-! PROOFS. Frames of the session: what a received block, `OPEN` and `RESET` leave as it was, and which commands bind. -/

namespace Sys2Proof.Machine

variable {s t : State} {cfg : List Byte} {host chip : Byte} {mode : EdcMode} {b : Buf}

theorem State.sameBytes_of_buf_eq (h : t.buf b = s.buf b) : s.sameBytes t b := fun a => congrArg (Memory.read · a) h

/-! ## The received block -/

/-- The part of a state no received block writes: the rest stands as after power-on (R255, R163, R216). -/
def State.outsideReply (s : State) : State :=
  { State.reset with
    nadTx := s.nadTx, nadRx := s.nadRx, edcMode := s.edcMode
    lkgSsb := s.lkgSsb, lkgRsb := s.lkgRsb, lkgIfsc := s.lkgIfsc, lkgIfsd := s.lkgIfsd
    reqLen := s.reqLen, rspCap := s.rspCap, rxLen := s.rxLen, atrLen := s.atrLen
    req := s.req, rxb := s.rxb, atrb := s.atrb
    held := s.held, hostIn := s.hostIn, acquires := s.acquires, reads := s.reads }

/-- No operation a received block is built of writes that part. -/
theorem exec_ofBlock_outsideReply {x : Block} (h : exec (.ofBlock x) s = .next t) : t.outsideReply = s.outsideReply :=
  exec_ofBlock_frame (fun s t => t.outsideReply = s.outsideReply)
    (hrefl := fun _ => rfl) (htrans := fun _ _ _ hsu hut => hut.trans hsu)
    (hroll := fun _ _ => rfl) (hhands := fun _ _ _ _ => rfl) (hls := fun _ _ _ => rfl) (hret := fun _ _ _ => rfl)
    (hwtm := fun _ _ => rfl) (hifs := fun _ _ _ => rfl) (hbits := fun _ _ _ => rfl) (hadv := fun _ => rfl)
    (hacc := fun _ _ _ => rfl) (hcomp := fun _ _ _ _ => rfl) s t x h

/-- Settles O43: each register and buffer named is in the part no block writes. -/
theorem blockRegisterFrame : Obligations.BlockRegisterFrame := by
  intro s t x h
  have kept {α : Type} (f : State → α) : f t.outsideReply = f s.outsideReply := congrArg f (exec_ofBlock_outsideReply h)
  exact ⟨⟨kept State.nadTx, kept State.nadRx, kept State.edcMode⟩,
    ⟨kept State.lkgSsb, kept State.lkgRsb, kept State.lkgIfsc, kept State.lkgIfsd⟩,
    kept State.reqLen, kept State.rspCap, kept State.rxLen, kept State.atrLen, kept State.held, kept State.hostIn,
    kept State.acquires, kept State.reads, State.sameBytes_of_buf_eq (kept State.req),
    State.sameBytes_of_buf_eq (kept State.rxb), State.sameBytes_of_buf_eq (kept State.atrb)⟩

/-! ## `OPEN` and `RESET` -/

/-- The exchange registers, the last-known-good copy, the buffers of an exchange, and the inputs only the host or an exchange
takes are the same: what neither `OPEN` nor `RESET` writes (R244, R246, R255). -/
structure State.SparesExchange (s t : State) : Prop where
  exchange : s.sameExchange t := by exact ⟨rfl, rfl, rfl, rfl, rfl, rfl, rfl, rfl, rfl, rfl⟩
  lkg      : s.sameLkg t := by exact ⟨rfl, rfl, rfl, rfl⟩
  rxLen    : t.rxLen = s.rxLen := by rfl
  hostIn   : t.hostIn = s.hostIn := by rfl
  writes   : t.writes = s.writes := by rfl
  req      : t.req = s.req := by rfl
  rsp      : t.rsp = s.rsp := by rfl
  txb      : t.txb = s.txb := by rfl
  rxb      : t.rxb = s.rxb := by rfl

theorem State.SparesExchange.sameBytes (h : s.SparesExchange t) (hb : b ≠ .atrb) : s.sameBytes t b := by
  refine State.sameBytes_of_buf_eq ?_
  cases b with
  | req => exact h.req
  | rsp => exact h.rsp
  | txb => exact h.txb
  | rxb => exact h.rxb
  | atrb => exact absurd rfl hb

/-- Whether the channel is taken or not, `OPEN` writes session registers only, and leaves the answer-to-reset (R244). -/
theorem execOpenCmd_spares (h : exec (.openCmd cfg host chip mode) s = .next t) :
    s.SparesExchange t ∧ t.atrLen = s.atrLen ∧ t.reads = s.reads ∧ t.atrb = s.atrb := by
  rcases execOpenCmd_next h with rfl | rfl | ⟨-, -, rfl⟩
  · exact ⟨{}, rfl, rfl, rfl⟩
  · exact ⟨{}, rfl, rfl, rfl⟩
  · unfold acquireAndBind
    split
    · exact ⟨{}, rfl, rfl, rfl⟩
    · exact ⟨{}, rfl, rfl, rfl⟩

/-- Settles O48: the answer-to-reset is spared with the rest, so all five buffers are. -/
theorem openFrame : Obligations.OpenFrame := by
  intro s t cfg host chip mode hexec
  obtain ⟨h, hatrLen, hreads, hatrb⟩ := execOpenCmd_spares hexec
  refine ⟨h.exchange, h.lkg, h.rxLen, hatrLen, h.hostIn, h.writes, hreads, fun b => ?_⟩
  by_cases hb : b = .atrb
  · subst hb; exact State.sameBytes_of_buf_eq hatrb
  · exact h.sameBytes hb

/-- The binding and the holding of the channel outlive `RESET`, which takes no acquire answer (R246). -/
structure State.KeepsBinding (s t : State) : Prop where
  binding  : s.sameBinding t := by exact ⟨rfl, rfl, rfl⟩
  held     : t.held = s.held := by rfl
  acquires : t.acquires = s.acquires := by rfl

/-- `RESET` writes session registers, and `ATRB` only with the answer-to-reset it returns (R246, R312). -/
theorem execResetCmd_spares (h : exec .resetCmd s = .next t) :
    s.SparesExchange t ∧ s.KeepsBinding t ∧
    (t.atrb = s.atrb ∨ ∃ a, t.status = .ok ∧ t.atrLen.toNat = a.length ∧ t.atrb = s.atrb.writeFrom 0 a) := by
  rcases execResetCmd_next h with rfl | rfl | ⟨-, o, -, ⟨st, -, rfl⟩ | ⟨a, -, ha, hwf, rfl⟩⟩
  · exact ⟨{}, {}, .inl rfl⟩
  · exact ⟨{}, {}, .inl rfl⟩
  · exact ⟨{}, {}, .inl rfl⟩
  · have hlen : (BitVec.ofNat 8 a.length).toNat = a.length := by rw [BitVec.toNat_ofNat]; omega
    rw [takeAtr_of_wellFormed hwf]
    exact ⟨{}, {}, .inr ⟨a, rfl, hlen, rfl⟩⟩

/-- Settles O49: an answer-to-reset is written from index 0, so no cell from its length on is. -/
theorem resetFrame : Obligations.ResetFrame := by
  intro s t hexec
  obtain ⟨h, hb, hatrb⟩ := execResetCmd_spares hexec
  refine ⟨hb.binding, h.exchange, h.lkg, h.rxLen, hb.held, h.hostIn, hb.acquires, h.writes, fun _ => h.sameBytes,
    fun i hi => ?_, fun hst => ?_⟩
  · rcases hatrb with hatrb | ⟨a, -, hlen, hatrb⟩
    · exact State.sameBytes_of_buf_eq (b := .atrb) hatrb i
    · exact (congrArg (Memory.read · i) hatrb).trans (Memory.read_writeFrom_outside s.atrb (.inr (by omega)))
  · rcases hatrb with hatrb | ⟨a, hok, -, -⟩
    · exact State.sameBytes_of_buf_eq hatrb
    · exact absurd hok hst

/-! ## The binding -/

theorem onCommand_sameBinding {run : State → Result} (hrun : ∀ v, run s = .next v → s.sameBinding v)
    (h : onCommand run s = .next t) : s.sameBinding t := by
  rcases onCommand_next h with ⟨-, h⟩ | rfl
  · exact hrun t h
  · exact ⟨rfl, rfl, rfl⟩

/-- Settles O47: a received kind by the block it arrived in, a command by what it writes. -/
theorem onlyOpenAndCloseRebind : Obligations.OnlyOpenAndCloseRebind := by
  intro i s t hopen hclose h
  cases hb : i.block with
  | some b =>
    obtain ⟨hbinding, -⟩ := blockRegisterFrame s t b (Instr.ofBlock_of_block hb ▸ h)
    exact hbinding
  | none =>
    cases i with
    | openCmd cfg host chip mode => exact absurd rfl (hopen cfg host chip mode)
    | closeCmd => exact absurd rfl hclose
    | resetCmd =>
      obtain ⟨-, hkeeps, -⟩ := execResetCmd_spares h
      exact hkeeps.binding
    | transceiveCmd apdu cap =>
      obtain ⟨hkeeps, -⟩ := execTransceiveCmd_frame h
      exact hkeeps.binding
    | encodeCmd mode nad control payload =>
      rw [exec, execEncodeCmd] at h
      refine onCommand_sameBinding (fun v hv => ?_) h
      split at hv <;> cases hv <;> exact ⟨rfl, rfl, rfl⟩
    | decodeCmd mode raw =>
      rw [exec, execDecodeCmd] at h
      refine onCommand_sameBinding (fun v hv => ?_) h
      split at hv <;> cases hv <;> exact ⟨rfl, rfl, rfl⟩
    | unassignedCmd code =>
      rw [exec, execUnassignedCmd] at h
      exact onCommand_sameBinding (fun v hv => by cases hv; exact ⟨rfl, rfl, rfl⟩) h
    | _ => cases hb

end Sys2Proof.Machine
end

section
/-! PROOFS. The statuses of the commands, and how an exchange ends: completed, or failed with the session it started from. -/

namespace Sys2Proof.Machine

variable {s t u : State} {c : Control} {p inf apdu cfg raw : List Byte} {cap : Half} {m : Bool} {f e : Status}
  {mode : EdcMode} {host chip nad : Byte}

/-! ## The statuses of the commands -/

theorem execOpenCmd_status (hr : s.lstate = .closed ∨ s.atRest) (h : exec (.openCmd cfg host chip mode) s = .next t) :
    t.status ∈ [.ok, .invalidArgument, .channelError] := by
  rcases hr with hl | hr
  · by_cases ha : addressesLegal host chip = true
    · cases (execOpenCmd_of_legal hl ha).symm.trans h
      unfold acquireAndBind
      split <;> simp
    · cases (execOpenCmd_of_illegal hl ha).symm.trans h
      simp
  · cases (execOpenCmd_of_atRest hr).symm.trans h
    simp

theorem takeAtr_status (wf : List Byte → Bool) (a : List Byte) (s : State) :
    (takeAtr wf a s).status ∈ [.ok, .malformedLength] := by
  cases hwf : wf a with
  | true => simp [takeAtr_of_wellFormed hwf]
  | false => simp [takeAtr_of_malformed hwf]

theorem readAtr_status (h : readAtr s = .next t) : t.status ∈ [.ok, .malformedLength, .timeout, .channelError] := by
  unfold readAtr at h
  split at h
  · cases h
  · cases h; simp
  · cases h; simp
  · cases h
    exact List.mem_append_left [.timeout, .channelError] (takeAtr_status _ _ _)

theorem execResetCmd_status (hr : s.lstate = .closed ∨ s.atRest) (h : exec .resetCmd s = .next t) :
    t.status ∈ [.ok, .invalidArgument, .malformedLength, .timeout, .channelError] := by
  rcases hr with hl | hr
  · cases (execResetCmd_of_closed hl).symm.trans h
    simp
  · exact List.Sublist.subset (by decide) (readAtr_status ((execResetCmd_of_atRest hr).symm.trans h))

/-- In a resting state `TRANSCEIVE` is refused, or it starts the exchange of an open session (R248, R249). -/
theorem execTransceiveCmd_resting_next (hr : s.lstate = .closed ∨ s.atRest)
    (h : exec (.transceiveCmd apdu cap) s = .next t) :
    t = s.endsWith .invalidArgument ∨
    (s.atRest ∧ requestLegal apdu cap = true ∧ transmit (exchangeStart (acceptRequest apdu cap s)) = .next t) := by
  by_cases hlegal : (s.lstate.session && requestLegal apdu cap) = true
  · obtain ⟨hsession, hreq⟩ := Bool.and_eq_true_iff.1 hlegal
    have hrest := hr.resolve_left fun hl => by simp [hl, LState.session] at hsession
    exact .inr ⟨hrest, hreq, (execTransceiveCmd_of_legal hrest hreq).symm.trans h⟩
  · cases (execTransceiveCmd_of_illegal hr hlegal).symm.trans h
    exact .inl rfl

/-- The first block goes out, or the channel refuses it (R158, R171). -/
theorem execTransceiveCmd_status (hr : s.lstate = .closed ∨ s.atRest) (h : exec (.transceiveCmd apdu cap) s = .next t) :
    t.inExchange ∨ t.status ∈ [.invalidArgument, .channelError] := by
  rcases execTransceiveCmd_resting_next hr h with rfl | ⟨-, -, h⟩
  · simp
  · obtain ⟨c, p, -, -, rfl | rfl⟩ := transmit_next h
    · exact .inl (.inl rfl)
    · simp

theorem execCloseCmd_status (hr : s.lstate = .closed ∨ s.atRest) (h : exec .closeCmd s = .next t) : t.status = .ok := by
  cases (execCloseCmd_of_resting hr).symm.trans h
  rfl

theorem execEncodeCmd_status (hr : s.lstate = .closed ∨ s.atRest) (h : exec (.encodeCmd mode nad c p) s = .next t) :
    t.status ∈ [.ok, .payloadTooLong] := by
  obtain ⟨hlong, hfits⟩ := encodePortResult s mode nad c p hr
  by_cases hp : 254 < p.length
  · cases (hlong hp).symm.trans h
    simp
  · cases (hfits (Nat.not_lt.1 hp)).symm.trans h
    simp

theorem execDecodeCmd_status (hr : s.lstate = .closed ∨ s.atRest) (h : exec (.decodeCmd mode raw) s = .next t) :
    t.status ∈ [.ok, .checksumMismatch, .malformedLength] := by
  cases hd : decodeBlock mode raw with
  | ok b =>
    cases (exec_decodeCmd_of_ok hr hd).symm.trans h
    simp
  | error e =>
    cases (exec_decodeCmd_of_error hr hd).symm.trans h
    cases e <;> simp [decodeStatus]

/-! ## How an operation leaves the exchange -/

/-- The exchange is running and waits for a reply, it completed with `OK` or `ShortResponse`, or it failed with an error that
`TRANSCEIVE` may report (R196, R251, R295). -/
inductive State.RunsOrEnds : State → Prop where
  | runs {t : State} (hx : t.inExchange) : t.RunsOrEnds
  | completed {t : State} (hst : t.status = .ok ∨ t.status = .shortResponse) : t.RunsOrEnds
  | failed {u : State} {e : Status} (he : e ≠ .payloadTooLong) : (u.rolledBack e).RunsOrEnds

theorem sendBlock_runsOrEnds (hx : s.inExchange) (h : sendBlock c p id s = .next t) : t.RunsOrEnds := by
  obtain ⟨-, rfl | rfl⟩ := sendBlock_next h
  · exact .runs hx
  · exact .failed (by decide)

theorem transmit_runsOrEnds (hx : s.inExchange) (h : transmit s = .next t) : t.RunsOrEnds := by
  obtain ⟨c, p, -, -, rfl | rfl⟩ := transmit_next h
  · exact .runs hx
  · exact .failed (by decide)

theorem resync_runsOrEnds (h : resync f s = .next t) : t.RunsOrEnds :=
  sendBlock_runsOrEnds (.inr rfl) h

theorem retransmit_runsOrEnds (hx : s.inExchange) (hf : f ≠ .payloadTooLong) (h : retransmit f s = .next t) :
    t.RunsOrEnds := by
  rcases spend_next h with ⟨-, rfl⟩ | ⟨-, h⟩
  · exact .failed hf
  · exact transmit_runsOrEnds (s := { s with fault := f, retry := s.retry - 1#8 }) hx h

theorem resynced_runsOrEnds (hf : s.fault ≠ .payloadTooLong) (h : resynced s = .next t) : t.RunsOrEnds := by
  rcases resynced_next h with ⟨-, rfl⟩ | ⟨-, h⟩
  · exact .failed hf
  · exact transmit_runsOrEnds (.inl rfl) h

theorem acceptBlock_runsOrEnds (hx : s.inExchange) (h : acceptBlock m inf s = .next t) : t.RunsOrEnds := by
  rcases acceptBlock_next h with ⟨-, rfl | rfl⟩ | ⟨-, ⟨-, rfl⟩ | ⟨-, data, -, rfl⟩⟩
  · exact .runs hx
  · exact .failed (by decide)
  · exact .completed (.inr rfl)
  · exact .completed (.inl rfl)

theorem judge_runsOrEnds {b : Block} (hx : s.inExchange) (h : judge b s = .next t) : t.RunsOrEnds := by
  rcases judge_next h with h | ⟨m, -, -, -, ⟨-, rfl⟩ | ⟨-, h⟩⟩ | ⟨-, -, h⟩ | ⟨-, h⟩ | ⟨v, -, -, -, h⟩ | ⟨v, -, -, -, h⟩ | ⟨-, h⟩
  · exact resync_runsOrEnds h
  · exact .failed (by decide)
  · exact acceptBlock_runsOrEnds hx h
  · exact transmit_runsOrEnds (s := advance { s with ssb := !s.ssb }) hx h
  · exact retransmit_runsOrEnds hx (by decide) h
  · exact sendBlock_runsOrEnds (s := { s with wtm := v }) hx h
  · exact sendBlock_runsOrEnds (s := { s with ifsc := v, chunkMax := v }) hx h
  · obtain ⟨-, rfl | rfl⟩ := sendBlock_next h
    · exact .failed (by decide)
    · exact .failed (by decide)

theorem judgeResync_runsOrEnds {b : Block} (hf : s.fault ≠ .payloadTooLong) (h : judgeResync b s = .next t) :
    t.RunsOrEnds := by
  unfold judgeResync at h
  split at h
  · exact resynced_runsOrEnds hf h
  · cases h
    exact .failed hf

/-! ## How a step leaves the exchange -/

/-- `FAULT` holds what a resynchronization started for, a timeout or a sequence error (R188). -/
theorem State.Inv.fault_ne_payloadTooLong (h : s.Inv) (hl : s.lstate = .resynchronizing) : s.fault ≠ .payloadTooLong := by
  rcases (h.resync hl).2 with hf | hf <;> simp [hf]

theorem State.Inv.exec_ofBlock_runsOrEnds (hi : s.Inv) (hx : s.inExchange) {b : Block}
    (h : exec (.ofBlock b) s = .next t) : t.RunsOrEnds := by
  rw [exec_ofBlock] at h
  rcases onReply_next h with ⟨-, -, h⟩ | ⟨-, -, h⟩ | ⟨hl, -, h⟩ | ⟨hl, -, rfl⟩ | ⟨hn, -⟩
  · exact judge_runsOrEnds hx h
  · exact resync_runsOrEnds h
  · exact judgeResync_runsOrEnds (hi.fault_ne_payloadTooLong hl) h
  · exact .failed (hi.fault_ne_payloadTooLong hl)
  · exact absurd hx hn

theorem State.Inv.onTimeout_runsOrEnds (hi : s.Inv) (hx : s.inExchange) (h : onTimeout s = .next t) : t.RunsOrEnds := by
  rcases hx with hl | hl
  · rw [onTimeout_exchanging hl] at h
    exact resync_runsOrEnds h
  · cases (onTimeout_resynchronizing hl).symm.trans h
    exact .failed (hi.fault_ne_payloadTooLong hl)

theorem State.Inv.onInvalid_runsOrEnds (hi : s.Inv) (hx : s.inExchange) {e : DecodeError} (h : onInvalid e s = .next t) :
    t.RunsOrEnds := by
  rcases hx with hl | hl
  · rw [onInvalid_exchanging e hl] at h
    exact retransmit_runsOrEnds (.inl hl) (by cases e <;> decide) h
  · cases (onInvalid_resynchronizing e hl).symm.trans h
    exact .failed (hi.fault_ne_payloadTooLong hl)

/-- Whatever a step inside an exchange reads, the exchange goes on, completes or fails. -/
theorem State.Inv.step_runsOrEnds (hi : s.Inv) (hx : s.inExchange) (h : step s = .next t) : t.RunsOrEnds := by
  rw [step_exchange hx] at h
  split at h
  · cases h
  · cases h
    exact .failed (by decide)
  · exact (hi.hasRead hx .timeout).onTimeout_runsOrEnds hx h
  · rename_i raw ho
    have hbytes := hi.hasReadBytes hx (readOutcome_length ho)
    split at h
    · exact hbytes.onInvalid_runsOrEnds hx h
    · exact hbytes.exec_ofBlock_runsOrEnds hx h

theorem State.inExchange.ne_idle (h : s.inExchange) : s.lstate ≠ .idle := by
  rcases h with h | h <;> simp [h]

/-- No error an exchange fails with is `PayloadTooLong`. -/
theorem State.RunsOrEnds.status_ne_payloadTooLong (h : t.RunsOrEnds) (hl : t.lstate = .idle) :
    t.status ≠ .payloadTooLong := by
  cases h with
  | runs hx => exact absurd hl hx.ne_idle
  | completed hst => rcases hst with hst | hst <;> simp [hst]
  | failed he => exact he

/-- Settles O58: in a resting state each command has its own statuses, and a step of an exchange that ends it completes or fails
it. -/
theorem statusOfEachCommand : Obligations.StatusOfEachCommand :=
  ⟨fun _ _ hr => ⟨fun _ _ _ _ => execOpenCmd_status hr, execResetCmd_status hr, fun _ _ => execTransceiveCmd_status hr,
      execCloseCmd_status hr, fun _ _ _ _ => execEncodeCmd_status hr, fun _ _ => execDecodeCmd_status hr⟩,
    fun _ _ hi hx h => (hi.step_runsOrEnds hx h).status_ne_payloadTooLong⟩

/-! ## The session a failed exchange restores -/

/-- The Link Session State of `t` is that of `s` (R26 to R32). -/
structure State.SameSession (s t : State) : Prop where
  ssb     : t.ssb = s.ssb := by rfl
  rsb     : t.rsb = s.rsb := by rfl
  ifsc    : t.ifsc = s.ifsc := by rfl
  ifsd    : t.ifsd = s.ifsd := by rfl
  wtm     : t.wtm = s.wtm := by rfl
  binding : s.sameBinding t := by exact ⟨rfl, rfl, rfl⟩

/-- `t` is a state of an exchange started from the session of `s`, which the last-known-good copy holds (R34, R210). -/
structure State.RunsFrom (s t : State) : Prop where
  inv     : t.Inv
  ending  : t.RunsOrEnds
  ssb     : t.lkgSsb = s.ssb
  rsb     : t.lkgRsb = s.rsb
  ifsc    : t.lkgIfsc = s.ifsc
  ifsd    : t.lkgIfsd = s.ifsd
  binding : s.sameBinding t

/-- `TRANSCEIVE` is refused and leaves the session, or an exchange runs from it (R210, R243). -/
theorem State.Inv.execTransceiveCmd_runsFrom (hi : s.Inv) (hr : s.atRest)
    (h : exec (.transceiveCmd apdu cap) s = .next t) : (¬ t.inExchange ∧ s.SameSession t) ∨ s.RunsFrom t := by
  rcases execTransceiveCmd_resting_next (.inr hr) h with rfl | ⟨-, hreq, h⟩
  · refine .inl ⟨?_, {}⟩
    rcases hr with hl | hl <;> simp [State.inExchange, hl]
  · have hending := transmit_runsOrEnds (.inl rfl) h
    obtain ⟨t', ht', hinv⟩ := hi.transceive_goesOn hr hreq
    cases h.symm.trans ht'
    obtain ⟨c, p, -, -, rfl | rfl⟩ := transmit_next h
    · exact .inr ⟨hinv, hending, rfl, rfl, rfl, rfl, rfl, rfl, rfl⟩
    · exact .inr ⟨hinv, hending, rfl, rfl, rfl, rfl, rfl, rfl, rfl⟩

/-- A step of the exchange keeps the copy and the binding (R34). -/
theorem State.RunsFrom.step (h : s.RunsFrom t) (hx : t.inExchange) (hs : Machine.step t = .next u) : s.RunsFrom u := by
  obtain ⟨⟨hssb, hrsb, hifsc, hifsd⟩, ⟨hnadTx, hnadRx, hmode⟩, -⟩ := exchangeKeepsShadowAndBudget t u h.inv hx hs
  obtain ⟨hnadTx', hnadRx', hmode'⟩ := h.binding
  exact
    { inv := everyStepKeepsInvariant t u h.inv hs
      ending := h.inv.step_runsOrEnds hx hs
      ssb := hssb.trans h.ssb
      rsb := hrsb.trans h.rsb
      ifsc := hifsc.trans h.ifsc
      ifsd := hifsd.trans h.ifsd
      binding := ⟨hnadTx.trans hnadTx', hnadRx.trans hnadRx', hmode.trans hmode'⟩ }

theorem State.RunsFrom.path {path : Nat → State} (h : s.RunsFrom (path 0)) :
    ∀ n, (∀ k, k < n → (path k).inExchange ∧ Machine.step (path k) = .next (path (k + 1))) → s.RunsFrom (path n)
  | 0, _ => h
  | n + 1, hsteps => by
    obtain ⟨hx, hs⟩ := hsteps n n.lt_succ_self
    exact (State.RunsFrom.path h n fun k hk => hsteps k (hk.trans n.lt_succ_self)).step hx hs

/-- An exchange that ends without completing restores the session it started from, `WTM` at its default as in every resting
state (R196, R285). -/
theorem State.RunsFrom.sameSession (h : s.RunsFrom t) (hw : s.wtm = 1#8) (hl : t.lstate = .idle) (hok : t.status ≠ .ok)
    (hshort : t.status ≠ .shortResponse) : s.SameSession t := by
  cases h.ending with
  | runs hx => exact absurd hl hx.ne_idle
  | completed hst => exact absurd hst (not_or.2 ⟨hok, hshort⟩)
  | failed he => exact ⟨h.ssb, h.rsb, h.ifsc, h.ifsd, hw.symm, h.binding⟩

/-- Settles O59, by induction on the steps of the exchange: each keeps the copy of the session the exchange started from, and a
failure restores it. -/
theorem failedExchangeRestoresSession : Obligations.FailedExchangeRestoresSession := by
  intro s apdu cap path n hi hr hstart hsteps hl hok hshort
  have hsession : s.SameSession (path n) := by
    rcases hi.execTransceiveCmd_runsFrom hr hstart with ⟨hrefused, hsame⟩ | hruns
    · cases n with
      | zero => exact hsame
      | succ n => exact absurd (hsteps 0 n.succ_pos).1 hrefused
    · exact (hruns.path n hsteps).sameSession (hi.resting hr) hl hok hshort
  exact ⟨hsession.ssb, hsession.rsb, hsession.ifsc, hsession.ifsd, hsession.wtm, hsession.binding⟩

end Sys2Proof.Machine
end

section
/-! PROOFS. A channel that never returns from a read leaves the engine inside the call, in an exchange and in a `RESET`. -/

namespace Sys2Proof.Machine

variable {s : State}

/-- A read that the channel never returns from has no outcome, whatever length it asks for (R328). -/
theorem readOutcome_of_never (h : s.reads.head? = some .never) (n : Nat) : s.readOutcome n = none := by
  obtain ⟨rs, hreads⟩ := List.head?_eq_some_iff.1 h
  rw [State.readOutcome, hreads]

/-- Inside an exchange the engine is in the read of the reply (R159, R328). -/
theorem step_of_never (hx : s.inExchange) (h : s.reads.head? = some .never) :
    step s = .fault (.readNeverReturns s.stuckInReply) := by
  rw [step_exchange hx, readOutcome_of_never h]

theorem readAtr_of_never (h : s.reads.head? = some .never) :
    readAtr s = .fault (.readNeverReturns (duringRead Config.atrMax Config.atrTimeout s)) := by
  rw [readAtr, readOutcome_of_never h]

/-- The state inside the read of a `RESET`, in the statements' words (R246 steps r2 to r5). -/
theorem duringRead_resetPulse (s : State) :
    duringRead Config.atrMax Config.atrTimeout (resetPulse s) = s.stuckInReset := rfl

/-- Settles O15: neither read has an outcome. The one of a reply is the first thing the step does; the one of a `RESET` comes
after the pulse, which leaves the channel's answers as they are. -/
theorem readThatNeverReturnsIsStuck : Obligations.ReadThatNeverReturnsIsStuck := by
  refine fun s hnever => ⟨fun hx => step_of_never hx hnever, fun hr => ?_⟩
  rw [execResetCmd_of_atRest hr, readAtr_of_never (s := resetPulse s) hnever, duringRead_resetPulse]

end Sys2Proof.Machine
end
